-- ==== Sys2Proof/Word.lean ====
section
/-! DEFINITION. The word types of the machine (R8, R21, R24, R92): bytes, 16-bit words, the fields of an opcode, and
the index of a V register. -/

namespace Sys2Proof

/-- An 8-bit value: a V register, a timer, an RPL flag, a byte of memory (R21, R30, R32, R62). -/
abbrev Byte := BitVec 8

/-- A 16-bit value: an opcode, PC, I, SP (R24, R26, R29, R91). -/
abbrev Word := BitVec 16

/-- The 12-bit field `nnn` of an opcode (R92). -/
abbrev Addr := BitVec 12

/-- A 4-bit field of an opcode (R92). -/
abbrev Nibble := BitVec 4

/-- The index of a V register, 0 to 15 (R21). -/
abbrev Reg := Fin 16

/-- `hi ‖ lo`: the word whose high byte is `hi` (R9, R67). -/
def joinBytes (hi lo : Byte) : Word := hi ++ lo

/-- `op[15:8]`, the byte at the lower address (R67). -/
def highByte (w : Word) : Byte := w.extractLsb' 8 8

/-- `op[7:0]`, the byte at the higher address (R67). -/
def lowByte (w : Word) : Byte := w.extractLsb' 0 8

end Sys2Proof
end

