-- ==== Sys2Proof/Syntax.lean ====
section
/-! DEFINITION. The instruction set: one constructor for each of the 43 rows of spec/opcode_table.json (R95, R112). -/

namespace Sys2Proof

/-- An instruction with its fields (R92, R93). The pattern of each is in its docstring. -/
inductive Instr where
  /-- `SCD nibble` (00Cn), n ≠ 0 (R130). -/
  | scd (n : Nibble)
  /-- `CLS` (00E0) (R131). -/
  | cls
  /-- `RET` (00EE) (R151). -/
  | ret
  /-- `SCR` (00FB) (R132). -/
  | scr
  /-- `SCL` (00FC) (R133). -/
  | scl
  /-- `EXIT` (00FD) (R134). -/
  | exit
  /-- `LOW` (00FE) (R135). -/
  | low
  /-- `HIGH` (00FF) (R136). -/
  | high
  /-- `JP addr` (1nnn) (R148). -/
  | jp (nnn : Addr)
  /-- `CALL addr` (2nnn) (R149). -/
  | call (nnn : Addr)
  /-- `SE Vx, byte` (3xkk) (R152). -/
  | seImm (x : Reg) (kk : Byte)
  /-- `SNE Vx, byte` (4xkk) (R153). -/
  | sneImm (x : Reg) (kk : Byte)
  /-- `SE Vx, Vy` (5xy0) (R154). -/
  | seReg (x y : Reg)
  /-- `LD Vx, byte` (6xkk) (R172). -/
  | ldImm (x : Reg) (kk : Byte)
  /-- `ADD Vx, byte` (7xkk) (R173). -/
  | addImm (x : Reg) (kk : Byte)
  /-- `LD Vx, Vy` (8xy0) (R174). -/
  | ldReg (x y : Reg)
  /-- `OR Vx, Vy` (8xy1) (R175). -/
  | orReg (x y : Reg)
  /-- `AND Vx, Vy` (8xy2) (R176). -/
  | andReg (x y : Reg)
  /-- `XOR Vx, Vy` (8xy3) (R177). -/
  | xorReg (x y : Reg)
  /-- `ADD Vx, Vy` (8xy4) (R179). -/
  | addReg (x y : Reg)
  /-- `SUB Vx, Vy` (8xy5) (R180). -/
  | subReg (x y : Reg)
  /-- `SHR Vx {, Vy}` (8xy6) (R181). -/
  | shr (x y : Reg)
  /-- `SUBN Vx, Vy` (8xy7) (R182). -/
  | subn (x y : Reg)
  /-- `SHL Vx {, Vy}` (8xyE) (R183). -/
  | shl (x y : Reg)
  /-- `SNE Vx, Vy` (9xy0) (R155). -/
  | sneReg (x y : Reg)
  /-- `LD I, addr` (Annn) (R196). -/
  | ldI (nnn : Addr)
  /-- `JP V0, addr` (Bnnn) (R198). -/
  | jpV0 (nnn : Addr)
  /-- `RND Vx, byte` (Cxkk) (R212). -/
  | rnd (x : Reg) (kk : Byte)
  /-- `DRW Vx, Vy, nibble` (Dxyn) (R224, R225). -/
  | drw (x y : Reg) (n : Nibble)
  /-- `SKP Vx` (Ex9E) (R241). -/
  | skp (x : Reg)
  /-- `SKNP Vx` (ExA1) (R242). -/
  | sknp (x : Reg)
  /-- `LD Vx, DT` (Fx07) (R251). -/
  | ldVxDt (x : Reg)
  /-- `LD Vx, K` (Fx0A) (R252). -/
  | ldVxK (x : Reg)
  /-- `LD DT, Vx` (Fx15) (R254). -/
  | ldDtVx (x : Reg)
  /-- `LD ST, Vx` (Fx18) (R255). -/
  | ldStVx (x : Reg)
  /-- `ADD I, Vx` (Fx1E) (R197). -/
  | addI (x : Reg)
  /-- `LD F, Vx` (Fx29) (R199). -/
  | ldF (x : Reg)
  /-- `LD HF, Vx` (Fx30) (R200). -/
  | ldHf (x : Reg)
  /-- `LD B, Vx` (Fx33) (R266). -/
  | ldB (x : Reg)
  /-- `LD [I], Vx` (Fx55) (R267). -/
  | ldMemVx (x : Reg)
  /-- `LD Vx, [I]` (Fx65) (R269). -/
  | ldVxMem (x : Reg)
  /-- `LD R, Vx` (Fx75) (R270). -/
  | ldRVx (x : Reg)
  /-- `LD Vx, R` (Fx85) (R271). -/
  | ldVxR (x : Reg)
deriving DecidableEq, Repr

end Sys2Proof
end

