-- ==== Sys2Proof/WellFormed.lean ====
section
/-! DEFINITION. Which terms of Instr are instructions. The field types already bound every register index and immediate
(R92); the one remaining check of the encoding tables is 0 < n in 00Cn (R95, R122). -/

namespace Sys2Proof

/-- An instruction that some word encodes: `SCD` needs n ≠ 0, since 00C0 is Unknown (R95); every other constructor is
an instruction at every value of its fields. -/
def Instr.wellFormed : Instr → Bool
  | .scd n => n != 0
  | .cls => true
  | .ret => true
  | .scr => true
  | .scl => true
  | .exit => true
  | .low => true
  | .high => true
  | .jp _ => true
  | .call _ => true
  | .seImm _ _ => true
  | .sneImm _ _ => true
  | .seReg _ _ => true
  | .ldImm _ _ => true
  | .addImm _ _ => true
  | .ldReg _ _ => true
  | .orReg _ _ => true
  | .andReg _ _ => true
  | .xorReg _ _ => true
  | .addReg _ _ => true
  | .subReg _ _ => true
  | .shr _ _ => true
  | .subn _ _ => true
  | .shl _ _ => true
  | .sneReg _ _ => true
  | .ldI _ => true
  | .jpV0 _ => true
  | .rnd _ _ => true
  | .drw _ _ _ => true
  | .skp _ => true
  | .sknp _ => true
  | .ldVxDt _ => true
  | .ldVxK _ => true
  | .ldDtVx _ => true
  | .ldStVx _ => true
  | .addI _ => true
  | .ldF _ => true
  | .ldHf _ => true
  | .ldB _ => true
  | .ldMemVx _ => true
  | .ldVxMem _ => true
  | .ldRVx _ => true
  | .ldVxR _ => true

end Sys2Proof
end

