-- ==== Sys2Proof/Decode.lean ====
section
/-! DEFINITION. The decoder of rules R91–R97, total on 16-bit words and on bytes, and the encoder written from the
formats of R93 and the opcode map of R95. -/

namespace Sys2Proof

/-! ### Fields (R92) -/

/-- `o = op[15:12]`, the primary selector. -/
def fieldO (op : Word) : Nibble := op.extractLsb' 12 4

/-- `x = op[11:8]`, a register index. -/
def fieldX (op : Word) : Reg := (op.extractLsb' 8 4).toFin

/-- `y = op[7:4]`, a register index. -/
def fieldY (op : Word) : Reg := (op.extractLsb' 4 4).toFin

/-- `n = op[3:0]`, an immediate or a sub-selector. -/
def fieldN (op : Word) : Nibble := op.extractLsb' 0 4

/-- `kk = op[7:0]`, an immediate or a sub-selector. -/
def fieldKk (op : Word) : Byte := op.extractLsb' 0 8

/-- `nnn = op[11:0]`, an address or an immediate. -/
def fieldNnn (op : Word) : Addr := op.extractLsb' 0 12

/-! ### Decode (R95) -/

/-- What the decoder answers. -/
inductive Decoded where
  /-- One of the 43 instructions. -/
  | instr (i : Instr)
  /-- `Unknown`: an illegal word; executing it raises UnknownOpcode (R97). -/
  | unknown (op : Word)
deriving DecidableEq, Repr

/-- The 0 family: x must be 0; 00Cn needs n ≠ 0 (R95). -/
def decodeZero (op : Word) : Decoded :=
  if fieldX op ≠ 0 then .unknown op
  else if fieldY op = 0xC ∧ fieldN op ≠ 0 then .instr (.scd (fieldN op))
  else if fieldKk op = 0xE0 then .instr .cls
  else if fieldKk op = 0xEE then .instr .ret
  else if fieldKk op = 0xFB then .instr .scr
  else if fieldKk op = 0xFC then .instr .scl
  else if fieldKk op = 0xFD then .instr .exit
  else if fieldKk op = 0xFE then .instr .low
  else if fieldKk op = 0xFF then .instr .high
  else .unknown op

/-- The 8 family: the low nibble selects the operation (R95). -/
def decodeAlu (op : Word) : Decoded :=
  let x := fieldX op
  let y := fieldY op
  if fieldN op = 0x0 then .instr (.ldReg x y)
  else if fieldN op = 0x1 then .instr (.orReg x y)
  else if fieldN op = 0x2 then .instr (.andReg x y)
  else if fieldN op = 0x3 then .instr (.xorReg x y)
  else if fieldN op = 0x4 then .instr (.addReg x y)
  else if fieldN op = 0x5 then .instr (.subReg x y)
  else if fieldN op = 0x6 then .instr (.shr x y)
  else if fieldN op = 0x7 then .instr (.subn x y)
  else if fieldN op = 0xE then .instr (.shl x y)
  else .unknown op

/-- The E family (R95). -/
def decodeKey (op : Word) : Decoded :=
  if fieldKk op = 0x9E then .instr (.skp (fieldX op))
  else if fieldKk op = 0xA1 then .instr (.sknp (fieldX op))
  else .unknown op

/-- The F family (R95). Fx75 and Fx85 decode for every x. -/
def decodeMisc (op : Word) : Decoded :=
  let x := fieldX op
  if fieldKk op = 0x07 then .instr (.ldVxDt x)
  else if fieldKk op = 0x0A then .instr (.ldVxK x)
  else if fieldKk op = 0x15 then .instr (.ldDtVx x)
  else if fieldKk op = 0x18 then .instr (.ldStVx x)
  else if fieldKk op = 0x1E then .instr (.addI x)
  else if fieldKk op = 0x29 then .instr (.ldF x)
  else if fieldKk op = 0x30 then .instr (.ldHf x)
  else if fieldKk op = 0x33 then .instr (.ldB x)
  else if fieldKk op = 0x55 then .instr (.ldMemVx x)
  else if fieldKk op = 0x65 then .instr (.ldVxMem x)
  else if fieldKk op = 0x75 then .instr (.ldRVx x)
  else if fieldKk op = 0x85 then .instr (.ldVxR x)
  else .unknown op

/-- `decode(op)`: a total function on 16-bit words; what it does not match is Unknown (R95). -/
def decode (op : Word) : Decoded :=
  let o := fieldO op
  if o = 0x0 then decodeZero op
  else if o = 0x1 then .instr (.jp (fieldNnn op))
  else if o = 0x2 then .instr (.call (fieldNnn op))
  else if o = 0x3 then .instr (.seImm (fieldX op) (fieldKk op))
  else if o = 0x4 then .instr (.sneImm (fieldX op) (fieldKk op))
  else if o = 0x5 then
    if fieldN op = 0 then .instr (.seReg (fieldX op) (fieldY op)) else .unknown op
  else if o = 0x6 then .instr (.ldImm (fieldX op) (fieldKk op))
  else if o = 0x7 then .instr (.addImm (fieldX op) (fieldKk op))
  else if o = 0x8 then decodeAlu op
  else if o = 0x9 then
    if fieldN op = 0 then .instr (.sneReg (fieldX op) (fieldY op)) else .unknown op
  else if o = 0xA then .instr (.ldI (fieldNnn op))
  else if o = 0xB then .instr (.jpV0 (fieldNnn op))
  else if o = 0xC then .instr (.rnd (fieldX op) (fieldKk op))
  else if o = 0xD then .instr (.drw (fieldX op) (fieldY op) (fieldN op))
  else if o = 0xE then decodeKey op
  else decodeMisc op

/-- The decoder on bytes: the first two bytes are one big-endian word (R67, R91), and the rest of the list is left over;
none where there are fewer than two bytes, which form no word. -/
def decodeBytes : List Byte → Option (Decoded × List Byte)
  | hi :: lo :: rest => some (decode (joinBytes hi lo), rest)
  | [_] => none
  | [] => none

/-! ### Encode (R93) -/

/-- Formats XKK and XF: `oooo xxxx kkkk kkkk`. -/
def wordXkk (o : Nibble) (x : Reg) (kk : Byte) : Word := o ++ (BitVec.ofFin x : Nibble) ++ kk

/-- Formats XYF, XYN and SCD: `oooo xxxx yyyy nnnn`. -/
def wordXyn (o : Nibble) (x y : Reg) (n : Nibble) : Word :=
  o ++ (BitVec.ofFin x : Nibble) ++ (BitVec.ofFin y : Nibble) ++ n

/-- Format ADDR: `oooo nnnn nnnn nnnn`. -/
def wordNnn (o : Nibble) (nnn : Addr) : Word := o ++ nnn

/-- The word of an instruction, from its row of the opcode map (R93, R95). -/
def encode : Instr → Word
  | .scd n => wordXyn 0x0 0 0xC n
  | .cls => 0x00E0
  | .ret => 0x00EE
  | .scr => 0x00FB
  | .scl => 0x00FC
  | .exit => 0x00FD
  | .low => 0x00FE
  | .high => 0x00FF
  | .jp nnn => wordNnn 0x1 nnn
  | .call nnn => wordNnn 0x2 nnn
  | .seImm x kk => wordXkk 0x3 x kk
  | .sneImm x kk => wordXkk 0x4 x kk
  | .seReg x y => wordXyn 0x5 x y 0x0
  | .ldImm x kk => wordXkk 0x6 x kk
  | .addImm x kk => wordXkk 0x7 x kk
  | .ldReg x y => wordXyn 0x8 x y 0x0
  | .orReg x y => wordXyn 0x8 x y 0x1
  | .andReg x y => wordXyn 0x8 x y 0x2
  | .xorReg x y => wordXyn 0x8 x y 0x3
  | .addReg x y => wordXyn 0x8 x y 0x4
  | .subReg x y => wordXyn 0x8 x y 0x5
  | .shr x y => wordXyn 0x8 x y 0x6
  | .subn x y => wordXyn 0x8 x y 0x7
  | .shl x y => wordXyn 0x8 x y 0xE
  | .sneReg x y => wordXyn 0x9 x y 0x0
  | .ldI nnn => wordNnn 0xA nnn
  | .jpV0 nnn => wordNnn 0xB nnn
  | .rnd x kk => wordXkk 0xC x kk
  | .drw x y n => wordXyn 0xD x y n
  | .skp x => wordXkk 0xE x 0x9E
  | .sknp x => wordXkk 0xE x 0xA1
  | .ldVxDt x => wordXkk 0xF x 0x07
  | .ldVxK x => wordXkk 0xF x 0x0A
  | .ldDtVx x => wordXkk 0xF x 0x15
  | .ldStVx x => wordXkk 0xF x 0x18
  | .addI x => wordXkk 0xF x 0x1E
  | .ldF x => wordXkk 0xF x 0x29
  | .ldHf x => wordXkk 0xF x 0x30
  | .ldB x => wordXkk 0xF x 0x33
  | .ldMemVx x => wordXkk 0xF x 0x55
  | .ldVxMem x => wordXkk 0xF x 0x65
  | .ldRVx x => wordXkk 0xF x 0x75
  | .ldVxR x => wordXkk 0xF x 0x85

/-- The bytes of an instruction as memory holds them, the first at the lowest address (R67). -/
def encodeBytes (i : Instr) : List Byte := [highByte (encode i), lowByte (encode i)]

/-! ### The opcode table's numbering -/

/-- The one word of an opcode-table row whose `nbits` given bits are `w` and whose other bits are 0. Bit 0 is the least
significant bit of the word (R8); every instruction is one word (R91). -/
def tableWord (nbits w : Nat) : Word := BitVec.ofNat 16 (w % 2 ^ nbits)

/-- The bytes of that word in memory: big-endian, the high byte first (R67). -/
def tableBytes (nbits w : Nat) : List Byte :=
  [highByte (tableWord nbits w), lowByte (tableWord nbits w)]

/-- The instruction that the decoder reads from an opcode-table word, none where it refuses. -/
def decodeTableWord (nbits w : Nat) : Option Instr :=
  match decodeBytes (tableBytes nbits w) with
  | some (.instr i, _) => some i
  | some (.unknown _, _) => none
  | none => none

end Sys2Proof
end

