-- ==== Sys2Proof/Config.lean ====
section
/-! DEFINITION. What an implementation fixes: the parameters of rule R6 (OPEN values and quirks) as one record of plain
data, the moves of the agents (R305), and the free values: the random byte and the timer tick (R13), the order of the
moves (R306), and the OPEN ROM bytes (R65, R66), as opaque constants without a body. -/

namespace Sys2Proof

/-- `Q_JUMP`: the base register of Bnnn (R6, R198). -/
inductive JumpBase where
  | v0
  | vx
deriving DecidableEq, Repr

/-- `Q_SHIFT_SRC`: the register that 8xy6 and 8xyE shift (R6, R181, R183). -/
inductive ShiftSource where
  | vx
  | vy
deriving DecidableEq, Repr

/-- `Q_LOADSTORE_I`: what Fx55 and Fx65 do to I (R6, R268). -/
inductive LoadStoreI where
  | unchanged
  | increment
deriving DecidableEq, Repr

/-- `Q_LORES_SCROLL`: the unit of a scroll in normal mode (R6, R127). -/
inductive ScrollUnit where
  | physical
  | logical
deriving DecidableEq, Repr

/-- `Q_SPRITE_EDGE`: what happens to sprite pixels past an edge (R6, R220). -/
inductive SpriteEdge where
  | clipColsWrapRows
  | wrapAll
  | clipAll
deriving DecidableEq, Repr

/-- The parameters that rule R6 marks OPEN or QUIRK. A machine carries one value of this record and no step changes it,
so a statement about every state holds for every value of every parameter (log entries 2 and 3). -/
structure Params where
  qJump         : JumpBase
  qLogicVfReset : Bool
  qShiftSrc     : ShiftSource
  qLoadStoreI   : LoadStoreI
  qExa1Consume  : Bool
  qSelfLoopBnnn : Bool
  qLoresScroll  : ScrollUnit
  qSpriteEdge   : SpriteEdge
  /-- `FONT_SMALL`, the 80 ROM bytes at 0x000 (R62). -/
  fontSmall     : Vector Byte 80
  /-- `FONT_BIG`, the 100 ROM bytes at 0x050 (R62). -/
  fontBig       : Vector Byte 100
  /-- `SENTINEL`, what 0x0B4–0x1FF reads as (R66). -/
  sentinel      : Byte
  /-- `INIT_V`, V0–VF after a reset (R23). -/
  initV         : Vector Byte 16
  /-- `INIT_I`, I after a reset (R24). -/
  initI         : Word
  /-- `INIT_RPL`, the RPL flags at power-on (R32). -/
  initRpl       : Vector Byte 8
deriving DecidableEq, Repr

/-- One move of an agent (R17, R305): the Interpreter's cycle, or an operation of the environment. -/
inductive Move where
  /-- The environment lets the Interpreter take its next cycle. -/
  | interpreter
  /-- `press(k)` (R236). -/
  | press (k : Nat)
  /-- `release(k)` (R236). -/
  | release (k : Nat)
  /-- `request_stop()` (R307). -/
  | requestStop
  /-- `snapshot()` (R308). -/
  | snapshot
  /-- `load_program(bytes)` (R76). -/
  | loadProgram (image : List Byte)
  /-- `start()` (R291). -/
  | start
  /-- `reset()` (R296). -/
  | reset
deriving DecidableEq, Repr, Inhabited

namespace Config

/-- The draw `tick` of a cycle: whether the timers are decremented at its end (R13, R297). A free boolean, one for each
draw index; the index is State.ticks (log entry 4). -/
opaque freeTick : Nat → Bool

/-- The draw `draw_random()` of one Cxkk (R13, R211). A free byte, one for each draw index; the index is State.draws
(log entry 5). -/
opaque freeRandom : Nat → Byte

/-- The move that comes next when no move is settled: a free operation of the environment with a free argument, or a
cycle of the Interpreter (R17, R305–R309). A free move, one for each draw index, so every endless order of moves is
allowed (R306); the index is State.moves (log entry 6). -/
opaque freeMove : Nat → Move

/-- `FONT_SMALL` of the machine that State.reset describes: OPEN, no value is given (R65, log entry 2). -/
opaque fontSmall : Vector Byte 80

/-- `FONT_BIG` of the machine that State.reset describes: OPEN, no value is given (R65, log entry 2). -/
opaque fontBig : Vector Byte 100

/-- `SENTINEL` of the machine that State.reset describes: OPEN, no value is given (R66, log entry 2). -/
opaque sentinel : Byte

end Config

end Sys2Proof
end

