-- ==== Sys2Proof/Machine/Boot.lean ====
section
/-! DEFINITION. The parameter values of the machine that State.reset describes: the quirk defaults of R6, the OPEN ROM
bytes as free values, and the OPEN reset values that the assumption log names. -/

namespace Sys2Proof.Machine

/-- `INIT_V` at State.reset: the spec gives no value (R23); the model's choice is zero (log entry 1). -/
def bootV : Vector Byte 16 := Vector.replicate 16 0

/-- `INIT_I` at State.reset: the spec gives no value (R24); the model's choice is zero (log entry 1). -/
def bootI : Word := 0x0000

/-- `INIT_RPL` at State.reset: the spec gives no value (R32); the model's choice is zero (log entry 1). -/
def bootRpl : Vector Byte 8 := Vector.replicate 8 0

/-- `FONT_SMALL` at State.reset: a free value (R65, log entry 2). -/
def bootFontSmall : Vector Byte 80 := Config.fontSmall

/-- `FONT_BIG` at State.reset: a free value (R65, log entry 2). -/
def bootFontBig : Vector Byte 100 := Config.fontBig

/-- `SENTINEL` at State.reset: a free value (R66, log entry 2). -/
def bootSentinel : Byte := Config.sentinel

/-- The parameters of the machine that State.reset describes: every quirk at the default of R6. -/
def bootParams : Params where
  qJump         := .v0
  qLogicVfReset := false
  qShiftSrc     := .vx
  qLoadStoreI   := .unchanged
  qExa1Consume  := false
  qSelfLoopBnnn := false
  qLoresScroll  := .physical
  qSpriteEdge   := .clipColsWrapRows
  fontSmall     := bootFontSmall
  fontBig       := bootFontBig
  sentinel      := bootSentinel
  initV         := bootV
  initI         := bootI
  initRpl       := bootRpl

end Sys2Proof.Machine
end

