-- ==== Sys2Proof/Machine/State.lean ====
section
/-! DEFINITION. The state of the machine as plain data (10_state.md, R21–R58), its reset value, and the reasons a step
can stop. -/

namespace Sys2Proof.Machine

/-- The RAM as a list of (address, byte) pairs (R62): addresses strictly rising, all in the user region, no byte equal
to what an unlisted address reads as. -/
abbrev Memory := List Host.Cell

/-- The framebuffer's 64 rows of 128 cells, row 0 at the top (R40). Column c of a row is bit c of the row (log entry 9);
`cellAt` reads one cell. -/
abbrev Grid := Vector (BitVec 128) 64

/-- `run_state` (R50). -/
inductive RunState where
  | ready
  | running
  | halted
  | stopped
deriving DecidableEq, Repr

/-- The nine error kinds, in the order of R281. -/
inductive ErrorKind where
  | addressOutOfRange
  | emptyProgram
  | programTooLarge
  | stackOverflow
  | stackUnderflow
  | invalidStackAddress
  | rplIndexOutOfRange
  | unknownOpcode
  | framebufferIndexOverflow
deriving DecidableEq, Repr

/-- The error record (R54): `opcode` is none when the fetch itself failed, `addr` is the failing address of an
AddressOutOfRange and none otherwise. An address is an unbounded number, since I + k is (R9, log entry 11). -/
structure ErrorRecord where
  kind   : ErrorKind
  pc0    : Word
  opcode : Option Word
  addr   : Option Nat
deriving DecidableEq, Repr

/-- The whole state of the block (10_state.md). -/
structure State where
  /-- V0–VF (R21). -/
  v             : Vector Byte 16
  /-- I (R24). -/
  i             : Word
  /-- PC (R26): between cycles the address of the next opcode. -/
  pc            : Word
  /-- SP (R29): the address of the next free stack entry. -/
  sp            : Word
  /-- DT, the delay timer (R30). -/
  dt            : Byte
  /-- ST, the sound timer (R31). -/
  st            : Byte
  /-- RPL[0..7] (R32). -/
  rpl           : Vector Byte 8
  /-- ram[0x200..0xFFF] (R62). -/
  mem           : Memory
  /-- cell[0..63][0..127] (R40). -/
  cells         : Grid
  /-- `extended`, the resolution mode (R41). -/
  extended      : Bool
  /-- key[0..15], true when pressed (R44). -/
  keys          : Vector Bool 16
  /-- `run_state` (R50). -/
  runState      : RunState
  /-- `wait_reg` (R52). -/
  waitReg       : Reg
  /-- `stop_requested` (R53). -/
  stopRequested : Bool
  /-- `error` (R54). -/
  error         : Option ErrorRecord
  /-- The parameters of R6 (log entries 2 and 3). No step changes them. -/
  params        : Params
  /-- The model's own: the index of the next random byte (log entry 5). -/
  draws         : Nat
  /-- The model's own: the index of the next tick draw (log entry 4). -/
  ticks         : Nat
  /-- The model's own: the moves that are settled to come next, the oldest first; when they are used up, every further
  move is free (log entry 6). -/
  schedule      : List Move
  /-- The model's own: the index of the next free move, drawn when the schedule is empty (log entry 6). -/
  moves         : Nat
deriving DecidableEq, Repr

/-- Why the machine stops with a fault. Every error of an instruction or a fetch is a next state (R286); one kind is
left. -/
inductive Fault where
  /-- Raised by DRW alone, if a sprite pixel fell outside the 64 × 128 cells. R281 calls this "a fault of the model" and
  R222 shows that it cannot occur. Safe: the model stops where the hardware would go on. -/
  | framebufferIndexOverflow
deriving DecidableEq, Repr

/-- Why an instruction has no meaning. -/
inductive Refusal where
  /-- Raised by exec's arm of an instruction that has no meaning yet; no arm uses it. Safe: the model stops. -/
  | notModelled (mnemonic : String)
deriving DecidableEq, Repr

/-- The outcome of an instruction or a step. -/
abbrev Result := Host.Outcome State Fault Refusal

/-- The machine right after power-on (R58, R321): no program is loaded and no cycle has run. -/
def State.reset : State where
  v             := bootParams.initV
  i             := bootParams.initI
  pc            := 0x0200
  sp            := 0x0EA0
  dt            := 0
  st            := 0
  rpl           := bootParams.initRpl
  mem           := []
  cells         := Vector.replicate 64 0
  extended      := false
  keys          := Vector.replicate 16 false
  runState      := .ready
  waitReg       := 0
  stopRequested := false
  error         := none
  params        := bootParams
  draws         := 0
  ticks         := 0
  schedule      := []
  moves         := 0

end Sys2Proof.Machine
end

