-- ==== Sys2Proof/Machine/Ops.lean ====
section
/-! DEFINITION. The named operations over registers and memory: MemRead and MemWrite (R63, R64), transfers of several
bytes, the call stack (R72, R73), and the stops: the fatal stop that takes an error (R286), the normal stop (R290), and
the interpreter reset, the only way out of Stopped (R287, R322). -/

namespace Sys2Proof.Machine

/-! ### Memory as data -/

/-- What an address that the RAM list does not hold reads as: the fonts and the sentinel below 0x200, zero in the user
region, whose power-on value is all zero (R62, R63). -/
def unlistedByte (p : Params) (a : Nat) : Byte :=
  if h : a < 0x050 then p.fontSmall[a]
  else if h' : a < 0x0B4 then p.fontBig[a - 0x050]
  else if a < 0x200 then p.sentinel
  else 0x00

/-- The byte that the RAM list holds at an address. -/
def memFind : Memory → Nat → Option Byte
  | [], _ => none
  | (k, b) :: rest, a => if k = a then some b else memFind rest a

/-- The RAM with `ram[a] <- b` (R64). Writing what an unlisted address reads as removes the entry. -/
def memStore : Memory → Nat → Byte → Memory
  | [], a, b => if b = 0x00 then [] else [(a, b)]
  | (k, c) :: rest, a, b =>
    if k < a then (k, c) :: memStore rest a b
    else if k = a then (if b = 0x00 then rest else (a, b) :: rest)
    else (if b = 0x00 then (k, c) :: rest else (a, b) :: (k, c) :: rest)

/-- Whether an address lies in the user region, "the only writable region" (R62). -/
def inUserRegion (a : Nat) : Bool := decide (0x200 ≤ a) && decide (a < 0x1000)

/-- The canonical form above a lower bound: addresses strictly rising from `lo` up, inside the user region, and no byte
equal to what an unlisted address reads as. -/
def memWfFrom : Nat → Memory → Bool
  | _, [] => true
  | lo, (k, b) :: rest => decide (lo ≤ k) && decide (k < 0x1000) && (b != 0x00) && memWfFrom (k + 1) rest

/-- The canonical form of the RAM list. -/
def memWf (m : Memory) : Bool := memWfFrom 0x200 m

/-! ### MemRead and MemWrite -/

/-- The byte at an address of the space, as R63 reads it: ROM and sentinel below 0x200, RAM from there on. -/
def byteAt (s : State) (a : Nat) : Byte :=
  if a < 0x200 then unlistedByte s.params a
  else (memFind s.mem a).getD (unlistedByte s.params a)

/-- `MemRead(a, 1)` (R63): none is AddressOutOfRange at `a`. -/
def memRead (s : State) (a : Nat) : Option Byte :=
  if a < 0x1000 then some (byteAt s a) else none

/-- `MemWrite(a, 1, b)` (R64): none is AddressOutOfRange at `a`. -/
def memWrite (s : State) (a : Nat) (b : Byte) : Option State :=
  if inUserRegion a then some { s with mem := memStore s.mem a b } else none

/-- The end of a read of several bytes. -/
inductive ReadResult where
  | bytes (bs : List Byte)
  /-- AddressOutOfRange at `addr`, the first failing byte. -/
  | outOfRange (addr : Nat)
deriving DecidableEq, Repr

/-- The end of a transfer that changes the state byte by byte. -/
inductive Transfer where
  | done (s : State)
  /-- AddressOutOfRange at `addr`; `s` keeps what the accesses before it did (R12, R283). -/
  | outOfRange (s : State) (addr : Nat)
deriving DecidableEq, Repr

/-- `n` one-byte reads at a, a + 1, … in ascending order (R69); it stops at the first that fails (R11). -/
def readBytes (s : State) (a : Nat) : Nat → ReadResult
  | 0 => .bytes []
  | n + 1 =>
    match memRead s a with
    | none => .outOfRange a
    | some b =>
      match readBytes s (a + 1) n with
      | .bytes bs => .bytes (b :: bs)
      | .outOfRange addr => .outOfRange addr

/-- One-byte writes at a, a + 1, … in ascending order (R69); it stops at the first that fails, and the writes before it
stay done (R11, R12). -/
def writeBytes : List Byte → Nat → State → Transfer
  | [], _, s => .done s
  | b :: bs, a, s =>
    match memWrite s a b with
    | none => .outOfRange s a
    | some s' => writeBytes bs (a + 1) s'

/-- The end of a read of a word. -/
inductive WordResult where
  | word (w : Word)
  /-- AddressOutOfRange at `addr`, the first failing byte. -/
  | outOfRange (addr : Nat)
deriving DecidableEq, Repr

/-- `MemRead(a, 2)`: the big-endian word at a and a + 1 (R11, R67). -/
def readWord (s : State) (a : Nat) : WordResult :=
  match memRead s a with
  | none => .outOfRange a
  | some hi =>
    match memRead s (a + 1) with
    | none => .outOfRange (a + 1)
    | some lo => .word (joinBytes hi lo)

/-- `MemWrite(a, 2, w)`: the high byte at a, then the low byte at a + 1 (R11, R67). -/
def writeWord (a : Nat) (w : Word) (s : State) : Transfer := writeBytes [highByte w, lowByte w] a s

/-! ### Registers -/

/-- The register VF (R22). -/
def vf : Reg := 15

/-- `V[x] <- b` (R10). -/
def setV (x : Reg) (b : Byte) (s : State) : State := { s with v := s.v.set x b }

/-- `I <- w`. -/
def setI (w : Word) (s : State) : State := { s with i := w }

/-- `PC <- w`. -/
def setPc (w : Word) (s : State) : State := { s with pc := w }

/-- The address of the executing instruction: PC was set to pc0 + 2 by the fetch (R26, R100). -/
def pc0 (s : State) : Word := s.pc - 2

/-- A skip: `PC <- u16(PC + 2)` (R146). -/
def skip (s : State) : State := setPc (s.pc + 2) s

/-! ### Stops -/

/-- The fatal stop (R286): the error record is written and the run stops. This is how the machine takes every error of
an instruction or a fetch; there is no handler and no saved state (R285). -/
def fatalStop (r : ErrorRecord) (s : State) : State := { s with error := some r, runState := .stopped }

/-- `raise E(info)` inside the instruction `i` (R12, R102): the record holds the kind, the instruction's address, its
word and the failing address. -/
def raise (kind : ErrorKind) (addr : Option Nat) (i : Instr) (s : State) : Result :=
  .next (fatalStop { kind := kind, pc0 := pc0 s, opcode := some (encode i), addr := addr } s)

/-- The normal stop (R290): the run stops and `error` is left as it is, which is none in every machine that runs. -/
def stopNormal (s : State) : State := { s with runState := .stopped }

/-- The interpreter reset (R322, R323): the registers, the timers, the stack pointer and the run control; memory, cells,
`extended`, keys and RPL are kept. There is no return from an error but this (R287). -/
def interpreterReset (s : State) : State :=
  { s with
    v             := s.params.initV
    i             := s.params.initI
    pc            := 0x0200
    sp            := 0x0EA0
    dt            := 0
    st            := 0
    waitReg       := 0
    stopRequested := false
    error         := none
    runState      := .ready }

/-! ### The call stack in memory -/

/-- The empty stack (R29). -/
def spBase : Word := 0x0EA0

/-- The full stack (R29). -/
def spTop : Word := 0x1000

/-- The end of a push. -/
inductive PushResult where
  | pushed (s : State)
  | failed (kind : ErrorKind) (addr : Option Nat) (s : State)
deriving DecidableEq, Repr

/-- The end of a pop. -/
inductive PopResult where
  | popped (value : Word) (s : State)
  | failed (kind : ErrorKind) (addr : Option Nat) (s : State)
deriving DecidableEq, Repr

/-- `Push(w)` (R72): write at SP, then SP + 2. The write cannot fail while SP is a stack pointer (R29); for any other SP
it fails as every write does. -/
def push (w : Word) (s : State) : PushResult :=
  if s.sp = spTop then .failed .stackOverflow none s
  else
    match writeWord s.sp.toNat w s with
    | .outOfRange s' addr => .failed .addressOutOfRange (some addr) s'
    | .done s' => .pushed { s' with sp := s'.sp + 2 }

/-- `Pop()` (R73): the underflow check, SP − 2, the read, the value check, in this order. -/
def pop (s : State) : PopResult :=
  if s.sp = spBase then .failed .stackUnderflow none s
  else
    let s' := { s with sp := s.sp - 2 }
    match readWord s' s'.sp.toNat with
    | .outOfRange addr => .failed .addressOutOfRange (some addr) s'
    | .word w => if 0x0FFF < w.toNat then .failed .invalidStackAddress none s' else .popped w s'

end Sys2Proof.Machine
end

