-- ==== Sys2Proof/Machine/Operands.lean ====
section
/-! DEFINITION. Every operand form the instructions use (R93, R94): registers, immediates as they stand, the register
that a quirk selects, font pointers, BCD digits, and the lists of registers of the bulk transfers. -/

namespace Sys2Proof.Machine

/-- `zext_16(nnn)` (R94). -/
def zextAddr (nnn : Addr) : Word := nnn.setWidth 16

/-- The operand of 8xy6 and 8xyE: V[x], or V[y] under `Q_SHIFT_SRC` = VY (R181, R183). -/
def shiftSource (x y : Reg) (s : State) : Byte :=
  match s.params.qShiftSrc with
  | .vx => s.v[x]
  | .vy => s.v[y]

/-- The top nibble of nnn as a register index (R93, R198). -/
def addrReg (nnn : Addr) : Reg := (nnn.extractLsb' 8 4).toFin

/-- The base register of Bnnn: V0, or V[nnn[11:8]] under `Q_JUMP` = VX (R198). -/
def jumpBase (nnn : Addr) (s : State) : Byte :=
  match s.params.qJump with
  | .v0 => s.v[(0 : Reg)]
  | .vx => s.v[addrReg nnn]

/-- The target of Bnnn, not wrapped: at most 0x10FE (R198). -/
def jumpTarget (nnn : Addr) (s : State) : Word := BitVec.ofNat 16 ((jumpBase nnn s).toNat + nnn.toNat)

/-- `V[x]·5`, the small glyph's address (R199). -/
def smallGlyph (b : Byte) : Word := BitVec.ofNat 16 (b.toNat * 5)

/-- `V[x]·10 + 0x050`, the big glyph's address (R200). -/
def bigGlyph (b : Byte) : Word := BitVec.ofNat 16 (b.toNat * 10 + 0x050)

/-- `(I + k) mod 0x1000` (R197, R268). -/
def wrapAddr (i : Word) (k : Nat) : Word := BitVec.ofNat 16 ((i.toNat + k) % 0x1000)

/-- The hundreds, tens and ones of a byte (R266). -/
def bcdDigits (b : Byte) : List Byte :=
  [BitVec.ofNat 8 (b.toNat / 100), BitVec.ofNat 8 (b.toNat / 10 % 10), BitVec.ofNat 8 (b.toNat % 10)]

/-- V0..Vx, in order (R267). -/
def regsUpTo (x : Reg) (s : State) : List Byte := s.v.toList.take (x.val + 1)

/-- `V[k], V[k+1], … <- MemRead(a, 1), MemRead(a + 1, 1), …`, `n` of them in ascending order; it stops at the first read
that fails, and the registers loaded before keep their new values (R269, R283). -/
def loadRegs : Nat → Nat → Nat → State → Transfer
  | 0, _, _, s => .done s
  | n + 1, k, a, s =>
    match memRead s a with
    | none => .outOfRange s a
    | some b => loadRegs n (k + 1) (a + 1) { s with v := s.v.setIfInBounds k b }

/-- `for i in 0 .. x: RPL[i] <- V[i]` (R270). -/
def copyToRpl : Nat → State → State
  | 0, s => s
  | n + 1, s =>
    let s' := copyToRpl n s
    { s' with rpl := s'.rpl.setIfInBounds n (s.v[n]?.getD 0) }

/-- `for i in 0 .. x: V[i] <- RPL[i]` (R271). -/
def copyFromRpl : Nat → State → State
  | 0, s => s
  | n + 1, s =>
    let s' := copyFromRpl n s
    { s' with v := s'.v.setIfInBounds n (s.rpl[n]?.getD 0) }

/-- `LoadStoreI(x)` (R268): I + x + 1 modulo 0x1000 under `Q_LOADSTORE_I` = INCREMENT, else unchanged. -/
def loadStoreI (x : Reg) (s : State) : State :=
  match s.params.qLoadStoreI with
  | .unchanged => s
  | .increment => setI (wrapAddr s.i (x.val + 1)) s

/-- The unit of a scroll: 2 under `Q_LORES_SCROLL` = LOGICAL in normal mode, else 1 (R127). -/
def scrollUnit (s : State) : Nat :=
  if s.extended then 1
  else
    match s.params.qLoresScroll with
    | .physical => 1
    | .logical => 2

end Sys2Proof.Machine
end

