-- ==== Sys2Proof/Machine/ControlFlow.lean ====
section
/-! DEFINITION. The control flow family: 1nnn, 2nnn, 00EE, 3xkk, 4xkk, 5xy0, 9xy0 (R146–R155). -/

namespace Sys2Proof.Machine

/-- A detected self-loop: `PC <- target`, then the normal stop, and nothing else (R150). -/
def selfLoopStop (target : Word) (s : State) : State := stopNormal (setPc target s)

/-- A skip where the condition holds (R146). -/
def skipIf (c : Bool) (s : State) : State := if c then skip s else s

/-- `JP addr` (R148). -/
def execJp (nnn : Addr) (s : State) : Result :=
  if zextAddr nnn = pc0 s then .next (selfLoopStop (zextAddr nnn) s) else .next (setPc (zextAddr nnn) s)

/-- `CALL addr` (R149): the self-call check comes before the push (R284). -/
def execCall (nnn : Addr) (s : State) : Result :=
  if zextAddr nnn = pc0 s then .next (selfLoopStop (zextAddr nnn) s)
  else
    match push s.pc s with
    | .pushed s' => .next (setPc (zextAddr nnn) s')
    | .failed kind addr s' => raise kind addr (.call nnn) s'

/-- `RET` (R151). -/
def execRet (s : State) : Result :=
  match pop s with
  | .popped w s' => .next (setPc w s')
  | .failed kind addr s' => raise kind addr .ret s'

/-- `SE Vx, byte` (R152). -/
def execSeImm (x : Reg) (kk : Byte) (s : State) : Result := .next (skipIf (s.v[x] == kk) s)

/-- `SNE Vx, byte` (R153). -/
def execSneImm (x : Reg) (kk : Byte) (s : State) : Result := .next (skipIf (s.v[x] != kk) s)

/-- `SE Vx, Vy` (R154). -/
def execSeReg (x y : Reg) (s : State) : Result := .next (skipIf (s.v[x] == s.v[y]) s)

/-- `SNE Vx, Vy` (R155). -/
def execSneReg (x y : Reg) (s : State) : Result := .next (skipIf (s.v[x] != s.v[y]) s)

end Sys2Proof.Machine
end

