-- ==== Sys2Proof/Machine/Flags.lean ====
section
/-! DEFINITION. Every flag that an instruction writes to VF (R22), each computed from the operands as they were before
the instruction (R171), and the one way to write a result and then its flag. -/

namespace Sys2Proof.Machine

/-- `b2u(c)` as a byte (R9). -/
def flagByte (c : Bool) : Byte := if c then 1 else 0

/-- The carry of 8xy4: the sum of the two bytes exceeds 255 (R179). -/
def carry (a b : Byte) : Bool := decide (255 < a.toNat + b.toNat)

/-- The no-borrow flag of a − b in 8xy5 and 8xy7: true means no borrow (R180, R182, R184). -/
def noBorrow (a b : Byte) : Bool := decide (b.toNat ≤ a.toNat)

/-- The bit that 8xy6 shifts out, bit 0 (R181). -/
def shiftedOutLow (b : Byte) : Bool := b.getLsbD 0

/-- The bit that 8xyE shifts out, bit 7 (R183). -/
def shiftedOutHigh (b : Byte) : Bool := b.getLsbD 7

/-- The 12-bit overflow of Fx1E: I + V[x] exceeds 0xFFF (R197). -/
def overflow12 (i : Word) (b : Byte) : Bool := decide (0x0FFF < i.toNat + b.toNat)

/-- `VF <- b2u(c)`. -/
def setFlag (c : Bool) (s : State) : State := setV vf (flagByte c) s

/-- The result to V[x], then the flag to VF: with x = F the flag replaces the result (R171). -/
def setVThenFlag (x : Reg) (result : Byte) (c : Bool) (s : State) : State := setFlag c (setV x result s)

/-- VF after 8xy1, 8xy2 and 8xy3: 0 under `Q_LOGIC_VF_RESET`, else untouched (R178). -/
def logicFlag (s : State) : State := if s.params.qLogicVfReset then setV vf 0 s else s

end Sys2Proof.Machine
end

