-- ==== Sys2Proof/Machine/AddressRegister.lean ====
section
/-! DEFINITION. The address register family: Annn, Fx1E, Bnnn, Fx29, Fx30 (R196–R200). -/

namespace Sys2Proof.Machine

/-- `LD I, addr` (R196). -/
def execLdI (nnn : Addr) (s : State) : Result := .next (setI (zextAddr nnn) s)

/-- `ADD I, Vx` (R197): I wraps modulo 0x1000, VF is the 12-bit overflow. -/
def execAddI (x : Reg) (s : State) : Result :=
  .next (setFlag (overflow12 s.i s.v[x]) (setI (wrapAddr s.i (s.v[x]).toNat) s))

/-- `JP V0, addr` (R198): a jump to its own address stops the machine only under `Q_SELF_LOOP_BNNN`. -/
def execJpV0 (nnn : Addr) (s : State) : Result :=
  if s.params.qSelfLoopBnnn && (jumpTarget nnn s == pc0 s) then .next (selfLoopStop (jumpTarget nnn s) s)
  else .next (setPc (jumpTarget nnn s) s)

/-- `LD F, Vx` (R199). -/
def execLdF (x : Reg) (s : State) : Result := .next (setI (smallGlyph s.v[x]) s)

/-- `LD HF, Vx` (R200). -/
def execLdHf (x : Reg) (s : State) : Result := .next (setI (bigGlyph s.v[x]) s)

end Sys2Proof.Machine
end

