-- ==== Sys2Proof/Machine/Alu.lean ====
section
/-! DEFINITION. The register family: 6xkk, 7xkk and the nine 8xyf (R171–R184). Operands are read first, then the result
is written, then the flag (R171). -/

namespace Sys2Proof.Machine

/-- `LD Vx, byte` (R172). -/
def execLdImm (x : Reg) (kk : Byte) (s : State) : Result := .next (setV x kk s)

/-- `ADD Vx, byte` (R173): wraps modulo 256, no flag. -/
def execAddImm (x : Reg) (kk : Byte) (s : State) : Result := .next (setV x (s.v[x] + kk) s)

/-- `LD Vx, Vy` (R174). -/
def execLdReg (x y : Reg) (s : State) : Result := .next (setV x s.v[y] s)

/-- `OR Vx, Vy` (R175, R178). -/
def execOr (x y : Reg) (s : State) : Result := .next (logicFlag (setV x (s.v[x] ||| s.v[y]) s))

/-- `AND Vx, Vy` (R176, R178). -/
def execAnd (x y : Reg) (s : State) : Result := .next (logicFlag (setV x (s.v[x] &&& s.v[y]) s))

/-- `XOR Vx, Vy` (R177, R178). -/
def execXor (x y : Reg) (s : State) : Result := .next (logicFlag (setV x (s.v[x] ^^^ s.v[y]) s))

/-- `ADD Vx, Vy` (R179). -/
def execAddReg (x y : Reg) (s : State) : Result :=
  .next (setVThenFlag x (s.v[x] + s.v[y]) (carry s.v[x] s.v[y]) s)

/-- `SUB Vx, Vy` (R180): V[x] − V[y], VF = 1 for no borrow. -/
def execSub (x y : Reg) (s : State) : Result :=
  .next (setVThenFlag x (s.v[x] - s.v[y]) (noBorrow s.v[x] s.v[y]) s)

/-- `SHR Vx {, Vy}` (R181). -/
def execShr (x y : Reg) (s : State) : Result :=
  .next (setVThenFlag x (shiftSource x y s >>> 1) (shiftedOutLow (shiftSource x y s)) s)

/-- `SUBN Vx, Vy` (R182): V[y] − V[x], VF = 1 for no borrow. -/
def execSubn (x y : Reg) (s : State) : Result :=
  .next (setVThenFlag x (s.v[y] - s.v[x]) (noBorrow s.v[y] s.v[x]) s)

/-- `SHL Vx {, Vy}` (R183). -/
def execShl (x y : Reg) (s : State) : Result :=
  .next (setVThenFlag x (shiftSource x y s <<< 1) (shiftedOutHigh (shiftSource x y s)) s)

end Sys2Proof.Machine
end

