-- ==== Sys2Proof/Machine/Bulk.lean ====
section
/-! DEFINITION. The BCD store and the bulk transfers: Fx33, Fx55, Fx65, Fx75, Fx85 (R266–R271). When an access fails,
the accesses before it keep their effect and I is not updated (R268, R283). -/

namespace Sys2Proof.Machine

/-- `LD B, Vx` (R266): hundreds, tens and ones at I, I + 1, I + 2. -/
def execLdB (x : Reg) (s : State) : Result :=
  match writeBytes (bcdDigits s.v[x]) s.i.toNat s with
  | .done s' => .next s'
  | .outOfRange s' addr => raise .addressOutOfRange (some addr) (.ldB x) s'

/-- `LD [I], Vx` (R267): V0..Vx to I, I + 1, …. -/
def execLdMemVx (x : Reg) (s : State) : Result :=
  match writeBytes (regsUpTo x s) s.i.toNat s with
  | .done s' => .next (loadStoreI x s')
  | .outOfRange s' addr => raise .addressOutOfRange (some addr) (.ldMemVx x) s'

/-- `LD Vx, [I]` (R269): V0..Vx from I, I + 1, …. -/
def execLdVxMem (x : Reg) (s : State) : Result :=
  match loadRegs (x.val + 1) 0 s.i.toNat s with
  | .done s' => .next (loadStoreI x s')
  | .outOfRange s' addr => raise .addressOutOfRange (some addr) (.ldVxMem x) s'

/-- `LD R, Vx` (R270): the index check comes before any transfer. -/
def execLdRVx (x : Reg) (s : State) : Result :=
  if 7 < x.val then raise .rplIndexOutOfRange none (.ldRVx x) s else .next (copyToRpl (x.val + 1) s)

/-- `LD Vx, R` (R271): the index check comes before any transfer. -/
def execLdVxR (x : Reg) (s : State) : Result :=
  if 7 < x.val then raise .rplIndexOutOfRange none (.ldVxR x) s else .next (copyFromRpl (x.val + 1) s)

end Sys2Proof.Machine
end

