-- ==== Sys2Proof/Machine/Framebuffer.lean ====
section
/-! DEFINITION. The Framebuffer unit: the cells (R40), clear and the scrolls (R121–R124), set_extended (R125), and the
sprite draw with its edges and its collision (R216–R222). -/

namespace Sys2Proof.Machine

/-! ### Cells -/

/-- Row r of the grid; no row lies outside it. -/
def rowAt (g : Grid) (r : Nat) : BitVec 128 := g[r]?.getD 0

/-- `cell[r][c]` (R40): column c is bit c of row r. Outside the grid nothing is lit. -/
def cellAt (g : Grid) (r c : Nat) : Bool := (rowAt g r).getLsbD c

/-- `cell[r][c] <- not cell[r][c]`. -/
def flipCell (g : Grid) (r c : Nat) : Grid := g.setIfInBounds r (rowAt g r ^^^ (1#128 <<< c))

/-! ### Primitives -/

/-- `clear()` (R121). -/
def clearGrid : Grid := Vector.replicate 64 0

/-- `scroll_down(d)` (R122): the rows move down by d, the d top rows become unlit. -/
def scrollDown (d : Nat) (g : Grid) : Grid :=
  Vector.ofFn fun r : Fin 64 => if d ≤ r.val then rowAt g (r.val - d) else 0

/-- `scroll_right(d)` (R123): every row moves right by d columns, the d left columns become unlit. -/
def scrollRight (d : Nat) (g : Grid) : Grid := Vector.ofFn fun r : Fin 64 => rowAt g r.val <<< d

/-- `scroll_left(d)` (R124): every row moves left by d columns, the d right columns become unlit. -/
def scrollLeft (d : Nat) (g : Grid) : Grid := Vector.ofFn fun r : Fin 64 => rowAt g r.val >>> d

/-- `set_extended(b)` (R125): the cells are kept. -/
def setExtended (b : Bool) (s : State) : State := { s with extended := b }

/-! ### Geometry (R42) -/

/-- The logical width. -/
def logicalWidth (extended : Bool) : Nat := if extended then 128 else 64

/-- The logical height. -/
def logicalHeight (extended : Bool) : Nat := if extended then 64 else 32

/-- The side of a logical pixel in physical cells. -/
def pixelScale (extended : Bool) : Nat := if extended then 1 else 2

/-- The physical cells of logical pixel (lx, ly), as (row, column) pairs (R42). -/
def pixelCells (scale lx ly : Nat) : List (Nat × Nat) :=
  (List.range scale).flatMap fun dy => (List.range scale).map fun dx => (scale * ly + dy, scale * lx + dx)

/-! ### Edges (R220, R222) -/

/-- Whether a column past the right edge is clipped. -/
def colsClip : SpriteEdge → Bool
  | .clipColsWrapRows => true
  | .wrapAll => false
  | .clipAll => true

/-- Whether a row past the bottom edge is clipped. -/
def rowsClip : SpriteEdge → Bool
  | .clipColsWrapRows => false
  | .wrapAll => false
  | .clipAll => true

/-- A position p on an axis of length `len`: p itself, or none where it is clipped, or p − len where it wraps. -/
def placeOnAxis (clip : Bool) (len p : Nat) : Option Nat :=
  if p < len then some p else if clip then none else some (p - len)

/-! ### The draw -/

/-- A sprite as read from memory: its width and its rows, the leftmost column of a row at bit width − 1 (R218). -/
structure Sprite where
  width : Nat
  rows  : List Word
deriving DecidableEq, Repr

/-- The 16-bit rows of a 16 × 16 sprite from its bytes, the lower address on the left (R219). -/
def pairRows : List Byte → List Word
  | hi :: lo :: rest => joinBytes hi lo :: pairRows rest
  | [_] => []
  | [] => []

/-- The cells that one sprite pixel flips: none where it is clipped (R220, R221). -/
def spritePixel (extended : Bool) (edge : SpriteEdge) (px py : Nat) : List (Nat × Nat) :=
  match placeOnAxis (colsClip edge) (logicalWidth extended) px,
        placeOnAxis (rowsClip edge) (logicalHeight extended) py with
  | some lx, some ly => pixelCells (pixelScale extended) lx ly
  | some _, none => []
  | none, some _ => []
  | none, none => []

/-- The cells that row r of a sprite flips, column by column (R218, R222). -/
def spriteRow (extended : Bool) (edge : SpriteEdge) (x0 y width : Nat) (row : Word) : List (Nat × Nat) :=
  (List.range width).flatMap fun c =>
    if row.getLsbD (width - 1 - c) then spritePixel extended edge (x0 + c) y else []

/-- The cells that the rows of a sprite flip, from position y down (R222). -/
def spriteRows (extended : Bool) (edge : SpriteEdge) (x0 width : Nat) : Nat → List Word → List (Nat × Nat)
  | _, [] => []
  | y, row :: rest => spriteRow extended edge x0 y width row ++ spriteRows extended edge x0 width (y + 1) rest

/-- The cells that a draw flips, in the order of R222; the start coordinates wrap (R220). -/
def drawnCells (extended : Bool) (edge : SpriteEdge) (xv yv : Byte) (sp : Sprite) : List (Nat × Nat) :=
  spriteRows extended edge (xv.toNat % logicalWidth extended) sp.width (yv.toNat % logicalHeight extended) sp.rows

/-- Flip the cells one after the other; the Bool is `hit`, true once a flipped cell was lit (R221, R222). -/
def flipCells : List (Nat × Nat) → Grid → Bool → Grid × Bool
  | [], g, hit => (g, hit)
  | (r, c) :: rest, g, hit => flipCells rest (flipCell g r c) (hit || cellAt g r c)

/-- Whether `count` positions from `start` on, placed on an axis of `len` logical pixels of `scale` cells each, stay
below `bound` cells (R222). -/
def axisInRange (clip : Bool) (len scale bound start count : Nat) : Bool :=
  (List.range count).all fun k =>
    match placeOnAxis clip len (start + k) with
    | none => true
    | some p => decide (scale * (p + 1) ≤ bound)

/-- Whether the index arithmetic of a draw stays in the 64 × 128 grid, for every pixel position of the sprite, set or
not (R222). -/
def indicesInRange (extended : Bool) (edge : SpriteEdge) (xv yv : Byte) (sp : Sprite) : Bool :=
  axisInRange (colsClip edge) (logicalWidth extended) (pixelScale extended) 128
      (xv.toNat % logicalWidth extended) sp.width &&
    axisInRange (rowsClip edge) (logicalHeight extended) (pixelScale extended) 64
      (yv.toNat % logicalHeight extended) sp.rows.length

/-- The end of a read of a sprite. -/
inductive SpriteRead where
  | noop
  | sprite (sp : Sprite)
  /-- AddressOutOfRange at `addr`, the lowest failing address (R284). -/
  | outOfRange (addr : Nat)
deriving DecidableEq, Repr

/-- The sprite of Dxyn: n rows of 8 columns at I; for n = 0, 16 rows of 16 columns in extended mode and the no-op in
normal mode (R217, R219, R223). -/
def readSprite (n : Nibble) (s : State) : SpriteRead :=
  if n = 0 then
    if s.extended then
      match readBytes s s.i.toNat 32 with
      | .bytes bs => .sprite { width := 16, rows := pairRows bs }
      | .outOfRange addr => .outOfRange addr
    else .noop
  else
    match readBytes s s.i.toNat n.toNat with
    | .bytes bs => .sprite { width := 8, rows := bs.map fun b => joinBytes 0 b }
    | .outOfRange addr => .outOfRange addr

/-- The end of a draw. -/
inductive DrawResult where
  | noop
  | drawn (g : Grid) (hit : Bool)
  | outOfRange (addr : Nat)
  /-- FramebufferIndexOverflow, which the index arithmetic cannot reach (R222, R281). -/
  | indexOverflow
deriving DecidableEq, Repr

/-- `Draw(V[x], V[y], n)` (R222): every source byte is read before any cell is flipped (R216). -/
def draw (xv yv : Byte) (n : Nibble) (s : State) : DrawResult :=
  match readSprite n s with
  | .noop => .noop
  | .outOfRange addr => .outOfRange addr
  | .sprite sp =>
    let cs := drawnCells s.extended s.params.qSpriteEdge xv yv sp
    if indicesInRange s.extended s.params.qSpriteEdge xv yv sp then
      .drawn (flipCells cs s.cells false).1 (flipCells cs s.cells false).2
    else .indexOverflow

end Sys2Proof.Machine
end

