-- ==== Sys2Proof/Machine/Draw.lean ====
section
/-! DEFINITION. The sprite draw instruction Dxyn (R223–R225). -/

namespace Sys2Proof.Machine

/-- `DRW Vx, Vy, nibble` (R224): the coordinates are read before VF is written; the no-op of R223 keeps VF; a failing
read leaves the cells and VF as they were. -/
def execDrw (x y : Reg) (n : Nibble) (s : State) : Result :=
  match draw s.v[x] s.v[y] n s with
  | .noop => .next s
  | .drawn g hit => .next (setFlag hit { s with cells := g })
  | .outOfRange addr => raise .addressOutOfRange (some addr) (.drw x y n) s
  | .indexOverflow => .fault .framebufferIndexOverflow

end Sys2Proof.Machine
end

