-- ==== Sys2Proof/Machine/InputLatch.lean ====
section
/-! DEFINITION. The InputLatch unit (R236–R240): the 16 key flags and their atomic operations. -/

namespace Sys2Proof.Machine

/-- `key[k] <- b`, no effect for k > 0xF (R236). -/
def setKey (k : Nat) (b : Bool) (s : State) : State := { s with keys := s.keys.setIfInBounds k b }

/-- `press(k)` (R236). -/
def press (k : Nat) (s : State) : State := setKey k true s

/-- `release(k)` (R236). -/
def release (k : Nat) (s : State) : State := setKey k false s

/-- `is_pressed(k)`: false for k > 0xF (R237). -/
def isPressed (k : Nat) (s : State) : Bool := s.keys[k]?.getD false

/-- The state after `test_and_consume(k)`, whose answer is `isPressed k`: a pressed key is cleared in the same step
(R238). -/
def consume (k : Nat) (s : State) : State := if isPressed k s then setKey k false s else s

/-- The lowest pressed key at or above k among the next n keys. -/
def lowestPressedFrom : Nat → Nat → State → Option Nat
  | 0, _, _ => none
  | n + 1, k, s => if isPressed k s then some k else lowestPressedFrom n (k + 1) s

/-- The lowest pressed key of the sixteen (R240). -/
def lowestPressed (s : State) : Option Nat := lowestPressedFrom 16 0 s

end Sys2Proof.Machine
end

