-- ==== Sys2Proof/Machine/KeyQuery.lean ====
section
/-! DEFINITION. The key queries Ex9E and ExA1 (R241, R242). -/

namespace Sys2Proof.Machine

/-- `SKP Vx` (R241): skip if the key is pressed, and clear it in the same step. -/
def execSkp (x : Reg) (s : State) : Result :=
  .next (skipIf (isPressed (s.v[x]).toNat s) (consume (s.v[x]).toNat s))

/-- The key state that ExA1 leaves: cleared where the key was pressed, under `Q_EXA1_CONSUME` only (R242). -/
def sknpConsume (k : Nat) (s : State) : State := if s.params.qExa1Consume then consume k s else s

/-- `SKNP Vx` (R242): skip if the key is not pressed. -/
def execSknp (x : Reg) (s : State) : Result :=
  .next (skipIf (!isPressed (s.v[x]).toNat s) (sknpConsume (s.v[x]).toNat s))

end Sys2Proof.Machine
end

