-- ==== Sys2Proof/Machine/Random.lean ====
section
/-! DEFINITION. The random immediate Cxkk (R211, R212). -/

namespace Sys2Proof.Machine

/-- `draw_random()`: the next free byte (R211). -/
def randomByte (s : State) : Byte := Config.freeRandom s.draws

/-- Each Cxkk takes one fresh draw (R211). -/
def takeDraw (s : State) : State := { s with draws := s.draws + 1 }

/-- `RND Vx, byte` (R212). -/
def execRnd (x : Reg) (kk : Byte) (s : State) : Result := .next (takeDraw (setV x (randomByte s &&& kk) s))

end Sys2Proof.Machine
end

