-- ==== Sys2Proof/Machine/ScreenControl.lean ====
section
/-! DEFINITION. The screen control family: 00Cn, 00E0, 00FB, 00FC, 00FD, 00FE, 00FF (R130–R136). As for every meaning,
the state is the one after the fetch: PC = pc0 + 2 (R26, R100). -/

namespace Sys2Proof.Machine

/-- `SCD nibble` (R130). -/
def execScd (n : Nibble) (s : State) : Result :=
  .next { s with cells := scrollDown (n.toNat * scrollUnit s) s.cells }

/-- `CLS` (R131). -/
def execCls (s : State) : Result := .next { s with cells := clearGrid }

/-- `SCR` (R132). -/
def execScr (s : State) : Result := .next { s with cells := scrollRight (4 * scrollUnit s) s.cells }

/-- `SCL` (R133). -/
def execScl (s : State) : Result := .next { s with cells := scrollLeft (4 * scrollUnit s) s.cells }

/-- `EXIT` (R134): the normal stop. -/
def execExit (s : State) : Result := .next (stopNormal s)

/-- `LOW` (R135). -/
def execLow (s : State) : Result := .next (setExtended false s)

/-- `HIGH` (R136). -/
def execHigh (s : State) : Result := .next (setExtended true s)

end Sys2Proof.Machine
end

