-- ==== Sys2Proof/Machine/Timers.lean ====
section
/-! DEFINITION. The timers family Fx07, Fx0A, Fx15, Fx18 (R251–R255), the halted poll that carries out Fx0A's wait
(R253), and the timer tick (R297). -/

namespace Sys2Proof.Machine

/-- `LD Vx, DT` (R251). -/
def execLdVxDt (x : Reg) (s : State) : Result := .next (setV x s.dt s)

/-- `LD Vx, K` (R252): the machine becomes Halted; the destination is written by the halted poll. -/
def execLdVxK (x : Reg) (s : State) : Result := .next { s with waitReg := x, runState := .halted }

/-- `LD DT, Vx` (R254). -/
def execLdDtVx (x : Reg) (s : State) : Result := .next { s with dt := s.v[x] }

/-- `LD ST, Vx` (R255). -/
def execLdStVx (x : Reg) (s : State) : Result := .next { s with st := s.v[x] }

/-- `HaltedPoll()` (R253): the lowest pressed key is cleared and written to V[wait_reg], and the machine runs on; with no
key pressed nothing changes. -/
def haltedPoll (s : State) : State :=
  match lowestPressed s with
  | none => s
  | some k => { setV s.waitReg (BitVec.ofNat 8 k) (setKey k false s) with runState := .running }

/-- One count of a timer: toward 0, where it stays (R297). -/
def countDown (t : Byte) : Byte := if t = 0 then 0 else t - 1

/-- The third part of a cycle (R100, R297): unless the machine has stopped, the draw `tick` decides whether both timers
count down; the draw is used up. -/
def timerStep (tick : Bool) (s : State) : State :=
  match s.runState with
  | .stopped => s
  | .ready | .running | .halted =>
    { s with
      dt    := if tick then countDown s.dt else s.dt
      st    := if tick then countDown s.st else s.st
      ticks := s.ticks + 1 }

end Sys2Proof.Machine
end

