-- ==== Sys2Proof/Machine/Environment.lean ====
section
/-! DEFINITION. The environment's operations on the block (R305–R310), each one atomic step between cycles: key events,
the stop request, the snapshot, program load, start and reset. -/

namespace Sys2Proof.Machine

/-- `request_stop()` (R307): any run state. -/
def requestStop (s : State) : State := { s with stopRequested := true }

/-- What the presentation reads (R308). -/
structure Snapshot where
  cells    : Grid
  extended : Bool
deriving DecidableEq, Repr

/-- `snapshot()` (R308): a copy of the cells and the mode; nothing where the attempt finds the Framebuffer busy. The
block's state is not changed. -/
def snapshot (busy : Bool) (s : State) : Option Snapshot :=
  if busy then none else some { cells := s.cells, extended := s.extended }

/-- Whether the host may load or reset: only in Ready or Stopped (R77, R296). -/
def hostMayAct (s : State) : Bool :=
  match s.runState with
  | .ready => true
  | .running => false
  | .halted => false
  | .stopped => true

/-- `ram[a] <- b, ram[a + 1] <- b', …` (R76). -/
def storeImage : List Byte → Nat → Memory → Memory
  | [], _, m => m
  | b :: bs, a, m => storeImage bs (a + 1) (memStore m a b)

/-- What `load_program` answers to the host. -/
inductive LoadResult where
  | loaded (s : State)
  /-- EmptyProgram or ProgramTooLarge; no state is changed and `error` is not written (R76). -/
  | failed (kind : ErrorKind)
  /-- The run state does not allow a load; no effect (R77). -/
  | refused
deriving DecidableEq, Repr

/-- `load_program(bytes)` (R76, R77). -/
def loadProgram (image : List Byte) (s : State) : LoadResult :=
  if hostMayAct s then
    if image.length = 0 then .failed .emptyProgram
    else if 0xE00 < image.length then .failed .programTooLarge
    else .loaded { s with mem := storeImage image 0x200 s.mem }
  else .refused

/-- `start()` (R291): accepted in Ready only; none is a refusal. -/
def start (s : State) : Option State :=
  match s.runState with
  | .ready => some { s with runState := .running }
  | .running => none
  | .halted => none
  | .stopped => none

/-- `reset()` (R296): accepted in Ready or Stopped only; none is a refusal. -/
def hostReset (s : State) : Option State := if hostMayAct s then some (interpreterReset s) else none

/-- The state after one operation of the environment; a refused or failed operation changes nothing, and the schedule
entry `interpreter` is no operation of the environment. -/
def environmentMove (m : Move) (s : State) : State :=
  match m with
  | .interpreter => s
  | .press k => press k s
  | .release k => release k s
  | .requestStop => requestStop s
  | .snapshot => s
  | .loadProgram image =>
    match loadProgram image s with
    | .loaded s' => s'
    | .failed _ => s
    | .refused => s
  | .start => (start s).getD s
  | .reset => (hostReset s).getD s

end Sys2Proof.Machine
end

