-- ==== Sys2Proof/Machine/Cycle.lean ====
section
/-! DEFINITION. The execution cycle of R100 (stop check, fetch and execute or poll, timers), and the choice of the agent
that moves next. -/

namespace Sys2Proof.Machine

/-- The fetch: the big-endian word at PC and PC + 1, without wrapping (R28, R67, R100). -/
def fetch (s : State) : WordResult := readWord s s.pc.toNat

/-- `PC <- u16(pc0 + 2)` (R26, R100). -/
def advance (s : State) : State := setPc (s.pc + 2) s

/-- `Execute(decode(op), op, pc0)` on the state after the fetch (R102). -/
def execDecoded (d : Decoded) (s : State) : Result :=
  match d with
  | .instr i => exec i s
  | .unknown op => .next (fatalStop { kind := .unknownOpcode, pc0 := pc0 s, opcode := some op, addr := none } s)

/-- Fetch and execute (R100): a failed fetch is a fatal stop with no opcode, and PC stays (R101). -/
def runInstruction (s : State) : Result :=
  match fetch s with
  | .outOfRange addr =>
    .next (fatalStop { kind := .addressOutOfRange, pc0 := s.pc, opcode := none, addr := some addr } s)
  | .word op => execDecoded (decode op) (advance s)

/-- The timer step after a next state (R100); a fault ends the step. -/
def thenTimers (tick : Bool) (r : Result) : Result :=
  match r with
  | .next s => .next (timerStep tick s)
  | .fault f => .fault f
  | .refused f => .refused f

/-- `Cycle(tick)` (R100). No cycle runs in Ready or Stopped: the state is left as it is (R295). -/
def cycle (tick : Bool) (s : State) : Result :=
  match s.runState with
  | .ready => .next s
  | .stopped => .next s
  | .running =>
    if s.stopRequested then .next { s with runState := .stopped } else thenTimers tick (runInstruction s)
  | .halted =>
    if s.stopRequested then .next { s with runState := .stopped } else thenTimers tick (.next (haltedPoll s))

/-- The Interpreter's cycle with its free tick draw (R13, R297). -/
def interpreterMove (s : State) : Result := cycle (Config.freeTick s.ticks) s

/-- The move that comes next: the oldest of the schedule, or a free one where the schedule is empty (R305, R306, log
entry 6). -/
def pendingMove (s : State) : Move := s.schedule.head?.getD (Config.freeMove s.moves)

/-- The state once that move is taken from the schedule, or drawn. -/
def takeMove (s : State) : State :=
  { s with
    schedule := s.schedule.tail
    moves    := if s.schedule.isEmpty then s.moves + 1 else s.moves }

/-- One move of one agent: a cycle, or an operation of the environment (R17, R305). -/
def makeMove (m : Move) (s : State) : Result :=
  match m with
  | .interpreter => interpreterMove s
  | m => .next (environmentMove m s)

/-- The next move is taken and made. -/
def nextMove (s : State) : Result := makeMove (pendingMove s) (takeMove s)

/-! ### Placing an instruction -/

/-- The address a placed instruction takes: PC where both bytes lie in the user region, else 0x200. -/
def placeAddress (s : State) : Word :=
  if 0x200 ≤ s.pc.toNat ∧ s.pc.toNat + 1 < 0x1000 then s.pc else 0x0200

/-- The state in which the bytes stand at the fetch address and the very next step fetches them: the program is loaded
and started, no stop is requested, and the next move is the Interpreter's (log entry 8). -/
def placeInstruction (bs : List Byte) (s : State) : State :=
  { s with
    pc            := placeAddress s
    mem           := storeImage bs (placeAddress s).toNat s.mem
    runState      := .running
    stopRequested := false
    schedule      := .interpreter :: s.schedule }

end Sys2Proof.Machine
end

