-- ==== Sys2Proof/Machine/Step.lean ====
section
/-! DEFINITION. The step of the machine, and the placing of one opcode-table word where the step fetches it. -/

namespace Sys2Proof.Machine

/-- One step: one move of one agent (R17, R100, R305). -/
def step (s : State) : Host.Outcome State Fault Refusal := nextMove s

/-- The state in which the opcode-table word `w` of `nbits` bits is the next instruction that `step` fetches. -/
def State.withFetchWord (s : State) (nbits w : Nat) : State := placeInstruction (tableBytes nbits w) s

end Sys2Proof.Machine
end

