-- ==== Sys2Proof/Safety.lean ====
section
/-! DEFINITION. The terms in which claims about the machine are stated: what an instruction leaves unchanged, what holds of
every state of a running machine, which instruction a state fetches, and the picture that a sprite makes on the cells. -/

namespace Sys2Proof.Safety

open Sys2Proof.Machine

/-! ### Frames -/

/-- The parts of the state, V0–VF apart. -/
inductive Part where
  | i
  | pc
  | sp
  | dt
  | st
  | rpl
  | mem
  | cells
  | extended
  | keys
  | runState
  | waitReg
  | stopRequested
  | error
  | params
  | draws
  | ticks
  | schedule
  | moves
deriving DecidableEq, Repr

/-- A part is the same in both states. Memory is compared by reading every byte, the cells one by one. -/
def Same (p : Part) (s t : State) : Prop :=
  match p with
  | .i => t.i = s.i
  | .pc => t.pc = s.pc
  | .sp => t.sp = s.sp
  | .dt => t.dt = s.dt
  | .st => t.st = s.st
  | .rpl => t.rpl = s.rpl
  | .mem => ∀ a, byteAt t a = byteAt s a
  | .cells => ∀ r c, cellAt t.cells r c = cellAt s.cells r c
  | .extended => t.extended = s.extended
  | .keys => ∀ k, isPressed k t = isPressed k s
  | .runState => t.runState = s.runState
  | .waitReg => t.waitReg = s.waitReg
  | .stopRequested => t.stopRequested = s.stopRequested
  | .error => t.error = s.error
  | .params => t.params = s.params
  | .draws => t.draws = s.draws
  | .ticks => t.ticks = s.ticks
  | .schedule => t.schedule = s.schedule
  | .moves => t.moves = s.moves

/-- From s to t nothing changes but the listed parts and the V registers that `touched` names. -/
def Frame (parts : List Part) (touched : Reg → Prop) (s t : State) : Prop :=
  (∀ p, p ∉ parts → Same p s t) ∧ ∀ r : Reg, ¬ touched r → t.v[r] = s.v[r]

/-- No V register. -/
def noReg : Reg → Prop := fun _ => False

/-! ### What holds in every state of the machine -/

/-- SP is 0x0EA0 + 2k for some k in 0..176 (R29). -/
def SpLegal (w : Word) : Prop := ∃ k, k ≤ 176 ∧ w.toNat = 0x0EA0 + 2 * k

/-- What every state of a running machine meets: memory in canonical form, I at most 0xFFF (R25), PC at most 0x10FE
(R28), SP a stack pointer (R29), an error record only in Stopped (R286, R287), and INIT_I at most 0xFFF (R24). -/
structure Inv (s : State) : Prop where
  memCanonical : memWf s.mem = true
  iBound       : s.i.toNat ≤ 0xFFF
  pcBound      : s.pc.toNat ≤ 0x10FE
  spLegal      : SpLegal s.sp
  errorStops   : s.error ≠ none → s.runState = .stopped
  initIBound   : s.params.initI.toNat ≤ 0xFFF

/-! ### Which instruction runs -/

/-- The word at PC and PC + 1 decodes to the instruction (R95, R100). -/
def Fetches (s : State) (i : Instr) : Prop :=
  s.pc.toNat + 1 < 0x1000 ∧ decode (joinBytes (byteAt s s.pc.toNat) (byteAt s (s.pc.toNat + 1))) = .instr i

/-- The Interpreter moves next, whether by the schedule or by a free draw, and no stop is requested. -/
def MovesFreely (s : State) : Prop := pendingMove s = .interpreter ∧ s.stopRequested = false

/-- The move that comes after `j` others: from the schedule, or the free draw of its index (R306, log entry 6). -/
def upcomingMove (s : State) (j : Nat) : Move :=
  s.schedule[j]?.getD (Config.freeMove (s.moves + (j - s.schedule.length)))

/-- The state that a fatal stop leaves, relative to the state in which the error was raised: the record and Stopped
(R286). `pc0` is the instruction's own address. -/
def FatalStop (kind : ErrorKind) (pc0 : Word) (opcode : Option Word) (addr : Option Nat) (t : State) : Prop :=
  t.runState = .stopped ∧ t.error = some { kind := kind, pc0 := pc0, opcode := opcode, addr := addr }

/-- The weak fairness of the tick draws (R298): in every infinite run the tick is true in infinitely many cycles. -/
def FairTicks : Prop := ∀ n, ∃ m, n ≤ m ∧ Config.freeTick m = true

/-- No run ends in moves of the environment alone: the free draws give the Interpreter a cycle infinitely often. R298
speaks of runs with infinitely many cycles; the step does not build this in (log entry 6). -/
def FairMoves : Prop := ∀ n, ∃ m, n ≤ m ∧ Config.freeMove m = .interpreter

/-! ### The picture of a sprite (R217–R222) -/

/-- The bytes that a draw with height field n reads (R219). -/
def spriteBytes (n : Nibble) : Nat := if n = 0 then 32 else n.toNat

/-- The rows of the sprite (R217). -/
def spriteHeight (n : Nibble) : Nat := if n = 0 then 16 else n.toNat

/-- The columns of the sprite (R217). -/
def spriteWidth (n : Nibble) : Nat := if n = 0 then 16 else 8

/-- Whether the sprite at I has a set bit in row j, column k: the most significant bit of a row is its leftmost column,
and a row of 16 has its left half in the byte at the lower address (R218, R219). -/
def spriteBit (n : Nibble) (s : State) (j k : Nat) : Bool :=
  if n = 0 then
    if k < 8 then (byteAt s (s.i.toNat + 2 * j)).getLsbD (7 - k)
    else (byteAt s (s.i.toNat + 2 * j + 1)).getLsbD (15 - k)
  else (byteAt s (s.i.toNat + j)).getLsbD (7 - k)

/-- Position `start + k` on an axis of length `len` falls on `target`: there, or one length further where that edge wraps
(R220). -/
def Falls (wraps : Prop) (len start k target : Nat) : Prop :=
  target < len ∧ (start + k = target ∨ (wraps ∧ start + k = target + len))

/-- Dxyn with coordinates xv, yv covers the cell (r, c) with a set bit: columns wrap only under WRAP_ALL, rows wrap unless
CLIP_ALL, the start wraps always, and in normal mode a pixel is a 2 × 2 block (R42, R220, R221). -/
def Covers (n : Nibble) (xv yv : Byte) (s : State) (r c : Nat) : Prop :=
  ∃ j k, j < spriteHeight n ∧ k < spriteWidth n ∧ spriteBit n s j k = true ∧
    Falls (s.params.qSpriteEdge = .wrapAll) (if s.extended then 128 else 64)
      (xv.toNat % (if s.extended then 128 else 64)) k (if s.extended then c else c / 2) ∧
    Falls (s.params.qSpriteEdge ≠ .clipAll) (if s.extended then 64 else 32)
      (yv.toNat % (if s.extended then 64 else 32)) j (if s.extended then r else r / 2)

/-! ### Who may write what -/

/-- The instructions that may write VF in a state (R22): the flag writers, the logic operations under their quirk, and
those whose destination is VF. -/
def mayWriteVf (s : State) : Instr → Bool
  | .addReg _ _ | .subReg _ _ | .shr _ _ | .subn _ _ | .shl _ _ | .addI _ | .drw _ _ _ => true
  | .orReg x _ | .andReg x _ | .xorReg x _ => s.params.qLogicVfReset || x == vf
  | .ldImm x _ | .addImm x _ | .rnd x _ => x == vf
  | .ldReg x _ => x == vf
  | .ldVxDt x | .ldVxMem x => x == vf
  | .scd _ | .cls | .ret | .scr | .scl | .exit | .low | .high | .jp _ | .call _ | .seImm _ _ | .sneImm _ _
  | .seReg _ _ | .sneReg _ _ | .ldI _ | .jpV0 _ | .skp _ | .sknp _ | .ldVxK _ | .ldDtVx _ | .ldStVx _ | .ldF _
  | .ldHf _ | .ldB _ | .ldMemVx _ | .ldRVx _ | .ldVxR _ => false

/-- The instructions that reach the Framebuffer (R302). -/
def reachesFramebuffer : Instr → Bool
  | .scd _ | .cls | .scr | .scl | .low | .high | .drw _ _ _ => true
  | .ret | .exit | .jp _ | .call _ | .seImm _ _ | .sneImm _ _ | .seReg _ _ | .sneReg _ _ | .ldImm _ _ | .addImm _ _
  | .ldReg _ _ | .orReg _ _ | .andReg _ _ | .xorReg _ _ | .addReg _ _ | .subReg _ _ | .shr _ _ | .subn _ _ | .shl _ _
  | .ldI _ | .jpV0 _ | .rnd _ _ | .skp _ | .sknp _ | .ldVxDt _ | .ldVxK _ | .ldDtVx _ | .ldStVx _ | .addI _ | .ldF _
  | .ldHf _ | .ldB _ | .ldMemVx _ | .ldVxMem _ | .ldRVx _ | .ldVxR _ => false

/-- The instructions that store to memory (R69). -/
def storesToMemory : Instr → Bool
  | .call _ | .ldB _ | .ldMemVx _ => true
  | .scd _ | .cls | .scr | .scl | .low | .high | .drw _ _ _ | .ret | .exit | .jp _ | .seImm _ _ | .sneImm _ _
  | .seReg _ _ | .sneReg _ _ | .ldImm _ _ | .addImm _ _ | .ldReg _ _ | .orReg _ _ | .andReg _ _ | .xorReg _ _
  | .addReg _ _ | .subReg _ _ | .shr _ _ | .subn _ _ | .shl _ _ | .ldI _ | .jpV0 _ | .rnd _ _ | .skp _ | .sknp _
  | .ldVxDt _ | .ldVxK _ | .ldDtVx _ | .ldStVx _ | .addI _ | .ldF _ | .ldHf _ | .ldVxMem _ | .ldRVx _
  | .ldVxR _ => false

end Sys2Proof.Safety
end

