-- ==== Sys2Proof/Certificates/Slice0/Obligations.lean ====
section
/-! DEFINITION. The statements about the machine, for the provers. In every statement about `exec i s` the state s is the one
after the fetch (R26): s.pc is pc0 + 2, and s.pc − 2 is the instruction's own address pc0. A Frame lists what may change;
everything else is said to be unchanged, memory byte by byte. In a statement about a whole step, `takeMove s` is s with its
next move taken from the schedule or drawn, and nothing else (NextMoveIsScheduledOrFree). Where a clause rests on a decision
of spec/92 (the spec's own choice) or on an entry of the assumption log, the docstring names it; the canonical form of memory,
memWf, which some statements assume, is log entry 10. -/

open Sys2Proof Sys2Proof.Machine Sys2Proof.Safety

/-! ### Encoding -/

/-- Decode of encode is the instruction, with every operand at every value (30_encoding.md §1–§2; the strict decode is the
spec's decision D12). -/
def Obligations.DecodeOfEncodeIsTheInstruction : Prop :=
  ∀ i : Instr, i.wellFormed = true → decode (encode i) = .instr i

/-- A legal word is the word of exactly the instruction it decodes to, and that instruction is well-formed, so no two words
decode to one instruction (30_encoding.md §2–§3; it rests on the strict decode, the spec's decision D12, log entry 18). -/
def Obligations.EncodeOfDecodeIsTheWord : Prop :=
  ∀ (op : Word) (i : Instr), decode op = .instr i → encode i = op ∧ i.wellFormed = true

/-- The illegal words are those of the list in 30_encoding.md §3 (derived there from the strict decode, D12), and every
other word is an instruction. -/
def Obligations.IllegalWordsAreThoseOfTheList : Prop :=
  ∀ op : Word,
    let o := op.toNat / 0x1000
    let n := op.toNat % 0x10
    let kk := op.toNat % 0x100
    let illegal : Prop :=
      (o = 0x0 ∧ ¬ (0x00C1 ≤ op.toNat ∧ op.toNat ≤ 0x00CF) ∧ op.toNat ∉ [0x00E0, 0x00EE, 0x00FB, 0x00FC, 0x00FD, 0x00FE, 0x00FF]) ∨
      (o = 0x5 ∧ n ≠ 0) ∨ (o = 0x8 ∧ n ∈ [0x8, 0x9, 0xA, 0xB, 0xC, 0xD, 0xF]) ∨ (o = 0x9 ∧ n ≠ 0) ∨
      (o = 0xE ∧ kk ∉ [0x9E, 0xA1]) ∨
      (o = 0xF ∧ kk ∉ [0x07, 0x0A, 0x15, 0x18, 0x1E, 0x29, 0x30, 0x33, 0x55, 0x65, 0x75, 0x85])
    (illegal → decode op = .unknown op) ∧ (¬ illegal → ∃ i, decode op = .instr i)

/-- One word of each opcode family decodes to the instruction its pattern names (30_encoding.md §2, §5). -/
def Obligations.PatternWordsDecode : Prop :=
  decode 0x00C7 = .instr (.scd 7) ∧ decode 0x00EE = .instr .ret ∧ decode 0x1ABC = .instr (.jp 0xABC) ∧
  decode 0x3A5F = .instr (.seImm 10 0x5F) ∧ decode 0x5120 = .instr (.seReg 1 2) ∧
  decode 0x8F1E = .instr (.shl 15 1) ∧ decode 0xB310 = .instr (.jpV0 0x310) ∧
  decode 0xC30F = .instr (.rnd 3 0x0F) ∧ decode 0xD01F = .instr (.drw 0 1 15) ∧
  decode 0xE2A1 = .instr (.sknp 2) ∧ decode 0xF50A = .instr (.ldVxK 5) ∧ decode 0xF985 = .instr (.ldVxR 9)

/-! ### The cycle -/

/-- Which move a step makes (R305, R306; the schedule and the free move are log entry 6): an `interpreter` entry at the head
of the schedule is a cycle, any other entry an operation of the environment; with an empty schedule a free move is drawn, and
the step is the one that this move would have been as a schedule's only entry. -/
def Obligations.NextMoveIsScheduledOrFree : Prop :=
  ∀ s : State,
    (∀ rest, s.schedule = .interpreter :: rest →
      takeMove s = { s with schedule := rest } ∧
        step s = cycle (Config.freeTick s.ticks) { s with schedule := rest }) ∧
    (∀ m rest, s.schedule = m :: rest → m ≠ .interpreter →
      takeMove s = { s with schedule := rest } ∧ step s = .next (environmentMove m { s with schedule := rest })) ∧
    (s.schedule = [] →
      takeMove s = { s with moves := s.moves + 1 } ∧
        step s = step { s with schedule := [Config.freeMove s.moves], moves := s.moves + 1 })

/-- A step of the Interpreter in Running with no stop request is exec of the fetched instruction on the state with PC moved
past its word, followed by the timer step with the free tick (R100, R102; the order is the spec's D40, the free tick log entry
4, which move comes next log entry 6). -/
def Obligations.StepRunsTheDecodedInstruction : Prop :=
  ∀ (s : State) (i : Instr), s.runState = .running → MovesFreely s → Fetches s i →
    step s = thenTimers (Config.freeTick s.ticks) (exec i (advance (takeMove s)))

/-- Executing an illegal word is a fatal stop that records the word and its address; PC is past the word, nothing else
changes and no tick follows (R97, R102, R286; strict decode D12, no tick after a stop D40, the move log entry 6). -/
def Obligations.IllegalWordIsAFatalStop : Prop :=
  ∀ (s : State) (op : Word), s.runState = .running → MovesFreely s → s.pc.toNat + 1 < 0x1000 →
    op = joinBytes (byteAt s s.pc.toNat) (byteAt s (s.pc.toNat + 1)) → decode op = .unknown op →
    ∃ t, step s = .next t ∧ FatalStop .unknownOpcode s.pc (some op) none t ∧ t.pc = s.pc + 2 ∧
      Frame [.pc, .runState, .error] noReg (takeMove s) t

/-- A fetch whose byte address is 0x1000 or above is a fatal stop without an opcode, with the failing byte's address, and PC
stays (R101; the record and PC are the spec's D41, the move log entry 6). -/
def Obligations.FetchOutsideTheSpaceIsAFatalStop : Prop :=
  ∀ s : State, s.runState = .running → MovesFreely s → 0xFFF ≤ s.pc.toNat →
    ∃ t, step s = .next t ∧
      FatalStop .addressOutOfRange s.pc none (some (if s.pc.toNat = 0xFFF then 0x1000 else s.pc.toNat)) t ∧
      Frame [.runState, .error] noReg (takeMove s) t

/-- The stop check (R293; its place is the spec's D17, log entry 21): at the start of every cycle in Running or Halted, a
requested stop makes the machine Stopped, leaves `error` as none, and the cycle does nothing else; so does the step of a
machine whose Interpreter moves next (log entry 6). -/
def Obligations.StopCheckComesFirst : Prop :=
  ∀ (s : State) (tick : Bool), s.runState = .running ∨ s.runState = .halted → s.stopRequested = true →
    (∃ t, cycle tick s = .next t ∧ t.runState = .stopped ∧ (s.error = none → t.error = none) ∧
      Frame [.runState] noReg s t) ∧
    (pendingMove s = .interpreter →
      ∃ t, step s = .next t ∧ t.runState = .stopped ∧ (s.error = none → t.error = none) ∧
        Frame [.runState] noReg (takeMove s) t)

/-- The halted cycle (R253, R240, R256; one poll a cycle is D42, the timers in a wait D15, the free tick log entry 4, the move
log entry 6): the lowest pressed key is taken, cleared and written to V[wait_reg], and the machine runs on; with no key
pressed it waits. The timers count in both. -/
def Obligations.HaltedCycleTakesTheLowestKey : Prop :=
  ∀ s : State, s.runState = .halted → MovesFreely s →
    ∃ t, step s = .next t ∧
      t.dt.toNat = s.dt.toNat - (if Config.freeTick s.ticks then 1 else 0) ∧
      t.st.toNat = s.st.toNat - (if Config.freeTick s.ticks then 1 else 0) ∧
      (∀ k, isPressed k s = true → (∀ j, j < k → isPressed j s = false) →
        t.v[s.waitReg].toNat = k ∧ t.runState = .running ∧
        (∀ j, isPressed j t = if j = k then false else isPressed j s) ∧
        Frame [.keys, .runState, .dt, .st, .ticks] (· = s.waitReg) (takeMove s) t) ∧
      ((∀ k, isPressed k s = false) → Frame [.dt, .st, .ticks] noReg (takeMove s) t)

/-- The timer step (R297; one free decrement a cycle and no wrap are D16, no tick after a stop D40): a tick lowers each timer
by one unless it is 0, no tick leaves them, and a stopped machine does not tick. -/
def Obligations.TimersCountDownAtATick : Prop :=
  ∀ s : State,
    (s.runState ≠ .stopped →
      (timerStep true s).dt.toNat = s.dt.toNat - 1 ∧ (timerStep true s).st.toNat = s.st.toNat - 1 ∧
      Frame [.dt, .st, .ticks] noReg s (timerStep true s) ∧ Frame [.ticks] noReg s (timerStep false s)) ∧
    (s.runState = .stopped → ∀ tick, timerStep tick s = s)

/-- A machine that waits for a key with none pressed keeps waiting as long as the moves are the Interpreter's, scheduled or
free, and after n such cycles each timer has gone down by the number of ticks among them, stopping at 0 (R256, R297, R311; D15,
D16, log entries 4 and 6). So it reaches 0 once enough ticks have come, which fairness (R298) promises. -/
def Obligations.WaitingTimersCountTheTicks : Prop :=
  ∀ (n : Nat) (s : State), s.runState = .halted → s.stopRequested = false →
    (∀ j, j < n → upcomingMove s j = .interpreter) → (∀ k, isPressed k s = false) →
    ∃ t, Host.Core.run Sys2Proof.core n s = .next t ∧
      t.dt.toNat = s.dt.toNat - ((List.range n).filter fun j => Config.freeTick (s.ticks + j)).length ∧
      t.st.toNat = s.st.toNat - ((List.range n).filter fun j => Config.freeTick (s.ticks + j)).length ∧
      Frame [.dt, .st, .ticks, .schedule, .moves] noReg s t

/-! ### The environment -/

/-- press(k) sets key k and release(k) clears it, each only for k ≤ 0xF, and nothing else changes, in any run state and
whether the move is scheduled or free (R236, R306; which move comes next is log entry 6, D36). -/
def Obligations.PressAndReleaseSetOneKey : Prop :=
  ∀ (s : State) (k : Nat),
    (pendingMove s = .press k →
      ∃ t, step s = .next t ∧ (∀ j, isPressed j t = if j = k ∧ k ≤ 0xF then true else isPressed j s) ∧
        Frame [.keys] noReg (takeMove s) t) ∧
    (pendingMove s = .release k →
      ∃ t, step s = .next t ∧ (∀ j, isPressed j t = if j = k ∧ k ≤ 0xF then false else isPressed j s) ∧
        Frame [.keys] noReg (takeMove s) t)

/-- request_stop sets the flag in any run state (R307, D44); start makes a Ready machine Running and is refused in any other
state (R291, D39); snapshot reads the cells and the mode, or nothing when busy, and changes nothing (R308). Which move comes
next is log entry 6. -/
def Obligations.HostControlMoves : Prop :=
  ∀ s : State,
    (pendingMove s = .requestStop → step s = .next { takeMove s with stopRequested := true }) ∧
    (pendingMove s = .start →
      step s = .next { takeMove s with runState := if s.runState = .ready then .running else s.runState }) ∧
    (pendingMove s = .snapshot → step s = .next (takeMove s)) ∧
    snapshot false s = some { cells := s.cells, extended := s.extended } ∧ snapshot true s = none

/-- load_program (R76, R77; the allowed run states are D35): in Ready or Stopped an image of 1 to 0xE00 bytes is copied to
0x200 onward and every other byte stays; an empty image, a larger one, and a load in Running or Halted change nothing, and
are answered EmptyProgram, ProgramTooLarge and a refusal. That a load in Running or Halted is refused whatever the image, an
empty or oversized one included, is the model's order of the checks (log entry 21); the canonical form is log entry 10, and
which move comes next log entry 6. -/
def Obligations.LoadProgramCopiesTheImage : Prop :=
  ∀ (s : State) (image : List Byte), memWf s.mem = true → pendingMove s = .loadProgram image →
    ∃ t, step s = .next t ∧ Frame [.mem] noReg (takeMove s) t ∧
      (s.runState = .ready ∨ s.runState = .stopped →
        (0 < image.length → image.length ≤ 0xE00 →
          (∀ k, k < image.length → byteAt t (0x200 + k) = image.getD k 0) ∧
          (∀ a, a < 0x200 ∨ 0x200 + image.length ≤ a → byteAt t a = byteAt s a)) ∧
        (image.length = 0 → loadProgram image s = .failed .emptyProgram ∧ t.mem = s.mem) ∧
        (0xE00 < image.length → loadProgram image s = .failed .programTooLarge ∧ t.mem = s.mem)) ∧
      (s.runState = .running ∨ s.runState = .halted → loadProgram image s = .refused ∧ t.mem = s.mem)

/-- reset (R296, R322, R323; what is kept and DT = ST = 0 are D18 and D20, the cleared stop flag D17, the refusal D39; log
entry 21): in Ready or Stopped the interpreter's registers, timers, stack pointer and run control take their reset values and
everything else is kept; in Running and Halted it is refused. Which move comes next is log entry 6. -/
def Obligations.ResetRestoresTheInterpreter : Prop :=
  ∀ s : State, pendingMove s = .reset →
    ∃ t, step s = .next t ∧
      (s.runState = .ready ∨ s.runState = .stopped →
        (∀ r : Reg, t.v[r] = s.params.initV[r]) ∧ t.i = s.params.initI ∧ t.pc = 0x200 ∧ t.sp = 0x0EA0 ∧ t.dt = 0 ∧
        t.st = 0 ∧ t.waitReg = 0 ∧ t.stopRequested = false ∧ t.error = none ∧ t.runState = .ready ∧
        Frame [.i, .pc, .sp, .dt, .st, .waitReg, .stopRequested, .error, .runState] (fun _ => True) (takeMove s) t) ∧
      (s.runState = .running ∨ s.runState = .halted → Frame [] noReg (takeMove s) t)

/-! ### Memory -/

/-- MemRead (R63): the two fonts, the sentinel or the stored byte, by region; at or above 0x1000 it is AddressOutOfRange at
that address. -/
def Obligations.ReadFollowsTheRegions : Prop :=
  ∀ (s : State) (a : Nat),
    (0x1000 ≤ a → memRead s a = none ∧ readBytes s a 1 = .outOfRange a) ∧
    (a < 0x050 → memRead s a = s.params.fontSmall[a]?) ∧
    (0x050 ≤ a → a < 0x0B4 → memRead s a = s.params.fontBig[a - 0x050]?) ∧
    (0x0B4 ≤ a → a < 0x200 → memRead s a = some s.params.sentinel) ∧
    (0x200 ≤ a → a < 0x1000 → memRead s a = some ((memFind s.mem a).getD 0x00))

/-- MemWrite (R64): in the user region the byte is stored, whatever it is, and read back, and no other byte changes; outside
it the write is AddressOutOfRange at that address and changes nothing. The canonical form of the list, assumed and kept, is
log entry 10. -/
def Obligations.WriteStoresOneByteOfTheUserRegion : Prop :=
  ∀ (s : State) (a : Nat) (b : Byte), memWf s.mem = true →
    (a < 0x200 ∨ 0x1000 ≤ a → memWrite s a b = none ∧ writeBytes [b] a s = .outOfRange s a) ∧
    (0x200 ≤ a → a < 0x1000 →
      ∃ t, memWrite s a b = some t ∧ writeBytes [b] a s = .done t ∧ memRead t a = some b ∧
        (∀ a', a' ≠ a → memRead t a' = memRead s a') ∧ memWf t.mem = true ∧ Frame [.mem] noReg s t)

/-- Whole-machine rule: no step changes a byte of ROM or of the reserved region (20_memory.md §1), nor a parameter (00_scope.md
§3; that the parameters are fields which no step writes is log entry 3). -/
def Obligations.RomIsNeverChanged : Prop :=
  ∀ s t : State, step s = .next t → t.params = s.params ∧ ∀ a, a < 0x200 → byteAt t a = byteAt s a

/-! ### Invariant and reset -/

/-- The state after power-on meets the invariant (INIT_I = 0 there is the model's choice, log entry 1). -/
def Obligations.ResetMeetsTheInvariant : Prop := Inv State.reset

/-- Every step keeps the invariant: memory canonical, I ≤ 0xFFF, PC ≤ 0x10FE, SP a stack pointer, an error record only in
Stopped, INIT_I ≤ 0xFFF (10_state.md §2–§4, derived there; 60_exceptions.md §1; log entries 10 and 14). -/
def Obligations.EveryStepKeepsTheInvariant : Prop :=
  ∀ s t : State, Inv s → step s = .next t → Inv t

/-- What power-on leaves (R58, R321). PC, SP, the RAM, run_state, wait_reg and error are the spec's; that no stop is requested
is its decision D17, and DT = ST = 0, the unlit screen, normal mode and the released keys are D18 and D19 (log entry 21).
V0–VF, I and RPL are the parameters INIT_V, INIT_I and INIT_RPL, whose values at State.reset are the model's choice and not
said here (log entry 1). -/
def Obligations.ResetLeavesTheSpecValues : Prop :=
  State.reset.v = State.reset.params.initV ∧ State.reset.i = State.reset.params.initI ∧
  State.reset.rpl = State.reset.params.initRpl ∧
  State.reset.pc = 0x200 ∧ State.reset.sp = 0x0EA0 ∧ State.reset.runState = .ready ∧
  State.reset.stopRequested = false ∧ State.reset.error = none ∧ State.reset.waitReg = 0 ∧
  (∀ a, 0x200 ≤ a → a < 0x1000 → memRead State.reset a = some 0x00) ∧
  State.reset.dt = 0 ∧ State.reset.st = 0 ∧ State.reset.extended = false ∧
  (∀ r c, cellAt State.reset.cells r c = false) ∧ (∀ k, isPressed k State.reset = false)

/-! ### Screen control -/

/-- CLS (00E0) unlights every cell and changes nothing else, `extended` included (R121, R131). -/
def Obligations.ClearUnlightsEveryCell : Prop :=
  ∀ s : State, ∃ t, exec .cls s = .next t ∧ (∀ r c, r < 64 → c < 128 → cellAt t.cells r c = false) ∧
    Frame [.cells] noReg s t ∧ encode .cls = 0x00E0

/-- SCD, SCR and SCL move the cells by their distance and unlight the vacated ones (R122–R124, R130, R132, R133; the unit of
a scroll in normal mode is the quirk of D22). -/
def Obligations.ScrollsMoveTheCells : Prop :=
  ∀ (s : State) (n : Nibble),
    let u := if s.extended = true ∨ s.params.qLoresScroll = .physical then 1 else 2
    (∃ t, exec (.scd n) s = .next t ∧ Frame [.cells] noReg s t ∧
      ∀ r c, r < 64 → c < 128 →
        cellAt t.cells r c = if n.toNat * u ≤ r then cellAt s.cells (r - n.toNat * u) c else false) ∧
    (∃ t, exec .scr s = .next t ∧ Frame [.cells] noReg s t ∧
      ∀ r c, r < 64 → c < 128 → cellAt t.cells r c = if 4 * u ≤ c then cellAt s.cells r (c - 4 * u) else false) ∧
    (∃ t, exec .scl s = .next t ∧ Frame [.cells] noReg s t ∧
      ∀ r c, r < 64 → c < 128 → cellAt t.cells r c = if c + 4 * u ≤ 127 then cellAt s.cells r (c + 4 * u) else false)

/-- LOW (00FE) and HIGH (00FF) set `extended` and keep every cell (R125, R135, R136). -/
def Obligations.ModeSwitchKeepsTheCells : Prop :=
  ∀ s : State,
    (∃ t, exec .low s = .next t ∧ t.extended = false ∧ Frame [.extended] noReg s t) ∧
    (∃ t, exec .high s = .next t ∧ t.extended = true ∧ Frame [.extended] noReg s t) ∧
    encode .low = 0x00FE ∧ encode .high = 0x00FF

/-- EXIT (00FD) is the normal stop: PC stays past the word, and the error record is left as it is (40_screen_control.md §2,
60_exceptions.md §2; that exit stops normally is D45, the record log entry 14). -/
def Obligations.ExitStopsNormally : Prop :=
  ∀ s : State, ∃ t, exec .exit s = .next t ∧ t.runState = .stopped ∧ Frame [.runState] noReg s t

/-! ### Control flow -/

/-- JP (1nnn) goes to its target; a jump to its own address also stops the machine normally (41_control_flow.md §2; what a
self-loop leaves is D11). -/
def Obligations.JumpGoesToItsTarget : Prop :=
  ∀ (s : State) (nnn : Addr), ∃ t, exec (.jp nnn) s = .next t ∧ t.pc.toNat = nnn.toNat ∧
    t.runState = (if nnn.toNat = (s.pc - 2).toNat then .stopped else s.runState) ∧
    Frame [.pc, .runState] noReg s t

/-- CALL (2nnn) to another address, with room on the stack, stores the return address big-endian at SP, adds 2 to SP and goes
to its target (41_control_flow.md §2, 20_memory.md §3; the stack's order is D8). -/
def Obligations.CallPushesTheReturnAddress : Prop :=
  ∀ (s : State) (nnn : Addr), memWf s.mem = true → SpLegal s.sp → s.sp.toNat ≠ 0x1000 →
    nnn.toNat ≠ (s.pc - 2).toNat →
    ∃ t, exec (.call nnn) s = .next t ∧ t.pc.toNat = nnn.toNat ∧ t.sp.toNat = s.sp.toNat + 2 ∧
      (byteAt t s.sp.toNat).toNat = s.pc.toNat / 256 ∧ (byteAt t (s.sp.toNat + 1)).toNat = s.pc.toNat % 256 ∧
      (∀ a, a ≠ s.sp.toNat → a ≠ s.sp.toNat + 1 → byteAt t a = byteAt s a) ∧
      Frame [.pc, .sp, .mem] noReg s t

/-- A CALL to its own address stops the machine normally and pushes nothing, even on a full stack; any other CALL on a full
stack is the fatal stop StackOverflow, with SP and memory as they were (41_control_flow.md §2, 60_exceptions.md §1; D11, D31).
-/
def Obligations.CallOfItselfOrOnAFullStackStops : Prop :=
  ∀ (s : State) (nnn : Addr),
    (nnn.toNat = (s.pc - 2).toNat →
      ∃ t, exec (.call nnn) s = .next t ∧ t.pc.toNat = nnn.toNat ∧ t.runState = .stopped ∧
        Frame [.pc, .runState] noReg s t) ∧
    (nnn.toNat ≠ (s.pc - 2).toNat → s.sp = 0x1000 →
      ∃ t, exec (.call nnn) s = .next t ∧
        FatalStop .stackOverflow (s.pc - 2) (some (encode (.call nnn))) none t ∧ Frame [.runState, .error] noReg s t)

/-- RET (00EE) on a stack that is not empty goes to the popped big-endian entry if it is at most 0xFFF, and takes 2 from SP;
the entry stays in memory (41_control_flow.md §2, 20_memory.md §3; the order is D8 and D37). -/
def Obligations.ReturnPopsTheAddress : Prop :=
  ∀ (s : State) (w : Word), SpLegal s.sp → s.sp.toNat ≠ 0x0EA0 →
    w = joinBytes (byteAt s (s.sp.toNat - 2)) (byteAt s (s.sp.toNat - 1)) → w.toNat ≤ 0xFFF →
    ∃ t, exec .ret s = .next t ∧ t.pc = w ∧ t.sp.toNat = s.sp.toNat - 2 ∧ Frame [.pc, .sp] noReg s t

/-- RET on an empty stack is the fatal stop StackUnderflow with SP kept; on an entry above 0xFFF it is InvalidStackAddress
with SP already lowered (41_control_flow.md §2, 20_memory.md §3; the order is D37). -/
def Obligations.ReturnFailures : Prop :=
  ∀ s : State,
    (s.sp = 0x0EA0 →
      ∃ t, exec .ret s = .next t ∧ FatalStop .stackUnderflow (s.pc - 2) (some 0x00EE) none t ∧
        Frame [.runState, .error] noReg s t) ∧
    (SpLegal s.sp → s.sp.toNat ≠ 0x0EA0 →
      0xFFF < (joinBytes (byteAt s (s.sp.toNat - 2)) (byteAt s (s.sp.toNat - 1))).toNat →
      ∃ t, exec .ret s = .next t ∧ FatalStop .invalidStackAddress (s.pc - 2) (some 0x00EE) none t ∧
        t.sp.toNat = s.sp.toNat - 2 ∧ Frame [.sp, .runState, .error] noReg s t)

/-- A RET in any later state whose memory and SP are those the CALL left returns to the word after the CALL and restores SP
(20_memory.md §3, 41_control_flow.md §1–§2; D8). -/
def Obligations.ReturnUndoesTheCall : Prop :=
  ∀ (s : State) (nnn : Addr), memWf s.mem = true → SpLegal s.sp → s.sp.toNat ≠ 0x1000 →
    nnn.toNat ≠ (s.pc - 2).toNat → s.pc.toNat ≤ 0xFFF →
    ∃ t, exec (.call nnn) s = .next t ∧
      ∀ u : State, (∀ a, byteAt u a = byteAt t a) → u.sp = t.sp →
        ∃ w, exec .ret u = .next w ∧ w.pc = s.pc ∧ w.sp = s.sp

/-- The four compare-and-skip instructions (R146, R152–R155): PC moves 2 further where the condition holds, and nothing else
changes. -/
def Obligations.SkipsCompareAndSkip : Prop :=
  ∀ (s : State) (x y : Reg) (kk : Byte),
    (∃ t, exec (.seImm x kk) s = .next t ∧ t.pc = (if s.v[x] = kk then s.pc + 2 else s.pc) ∧ Frame [.pc] noReg s t) ∧
    (∃ t, exec (.sneImm x kk) s = .next t ∧ t.pc = (if s.v[x] ≠ kk then s.pc + 2 else s.pc) ∧ Frame [.pc] noReg s t) ∧
    (∃ t, exec (.seReg x y) s = .next t ∧ t.pc = (if s.v[x] = s.v[y] then s.pc + 2 else s.pc) ∧ Frame [.pc] noReg s t) ∧
    (∃ t, exec (.sneReg x y) s = .next t ∧ t.pc = (if s.v[x] ≠ s.v[y] then s.pc + 2 else s.pc) ∧ Frame [.pc] noReg s t) ∧
    encode (.seImm x kk) &&& 0xF000 = 0x3000 ∧ encode (.sneImm x kk) &&& 0xF000 = 0x4000 ∧
    encode (.seReg x y) &&& 0xF00F = 0x5000 ∧ encode (.sneReg x y) &&& 0xF00F = 0x9000

/-! ### Registers and ALU -/

/-- LD Vx, byte (6xkk), ADD Vx, byte (7xkk) and LD Vx, Vy (8xy0) write V[x] alone; the sum wraps modulo 256 and VF is no flag
(R172–R174). -/
def Obligations.LoadAndAddWriteTheirRegister : Prop :=
  ∀ (s : State) (x y : Reg) (kk : Byte),
    (∃ t, exec (.ldImm x kk) s = .next t ∧ t.v[x] = kk ∧ Frame [] (· = x) s t) ∧
    (∃ t, exec (.addImm x kk) s = .next t ∧ t.v[x].toNat = (s.v[x].toNat + kk.toNat) % 256 ∧ Frame [] (· = x) s t) ∧
    (∃ t, exec (.ldReg x y) s = .next t ∧ t.v[x] = s.v[y] ∧ Frame [] (· = x) s t) ∧
    encode (.ldImm x kk) &&& 0xF000 = 0x6000 ∧ encode (.addImm x kk) &&& 0xF000 = 0x7000 ∧
    encode (.ldReg x y) &&& 0xF00F = 0x8000

/-- OR, AND and XOR (8xy1, 8xy2, 8xy3) write V[x]; VF becomes 0 under Q_LOGIC_VF_RESET and is no flag otherwise
(42_register_alu.md §3; the quirk is D2, the order D5). -/
def Obligations.LogicOperationsWriteTheirRegister : Prop :=
  ∀ (s : State) (x y : Reg) (i : Instr) (result : Byte),
    (i = .orReg x y ∧ result = s.v[x] ||| s.v[y]) ∨ (i = .andReg x y ∧ result = s.v[x] &&& s.v[y]) ∨
      (i = .xorReg x y ∧ result = s.v[x] ^^^ s.v[y]) →
    ∃ t, exec i s = .next t ∧ Frame [] (fun r => r = x ∨ (s.params.qLogicVfReset = true ∧ r = vf)) s t ∧
      (s.params.qLogicVfReset = false ∨ x ≠ vf → t.v[x] = result) ∧
      (s.params.qLogicVfReset = true → t.v[vf] = 0)

/-- ADD Vx, Vy (8xy4): the sum modulo 256 in V[x], the carry in VF, which is written last (42_register_alu.md §1, §3; the
order is D5). -/
def Obligations.AddSetsTheCarry : Prop :=
  ∀ (s : State) (x y : Reg), ∃ t, exec (.addReg x y) s = .next t ∧
    (x ≠ vf → t.v[x].toNat = (s.v[x].toNat + s.v[y].toNat) % 256) ∧
    t.v[vf] = (if 255 < s.v[x].toNat + s.v[y].toNat then 1 else 0) ∧ Frame [] (fun r => r = x ∨ r = vf) s t

/-- SUB (8xy5) and SUBN (8xy7): the difference modulo 256 in V[x], and VF = 1 for no borrow, 0 for a borrow, written last
(42_register_alu.md §1, §3; the order is D5). -/
def Obligations.SubtractSetsNoBorrow : Prop :=
  ∀ (s : State) (x y : Reg),
    (∃ t, exec (.subReg x y) s = .next t ∧
      (x ≠ vf → t.v[x].toNat = (s.v[x].toNat + 256 - s.v[y].toNat) % 256) ∧
      t.v[vf] = (if s.v[x].toNat < s.v[y].toNat then 0 else 1) ∧ Frame [] (fun r => r = x ∨ r = vf) s t) ∧
    (∃ t, exec (.subn x y) s = .next t ∧
      (x ≠ vf → t.v[x].toNat = (s.v[y].toNat + 256 - s.v[x].toNat) % 256) ∧
      t.v[vf] = (if s.v[y].toNat < s.v[x].toNat then 0 else 1) ∧ Frame [] (fun r => r = x ∨ r = vf) s t)

/-- SHR (8xy6) and SHL (8xyE) shift one bit and put the bit shifted out in VF, written last; the source is V[x], or V[y]
under Q_SHIFT_SRC (42_register_alu.md §3; the quirk is D4, the order D5). -/
def Obligations.ShiftsKeepTheBitShiftedOut : Prop :=
  ∀ (s : State) (x y : Reg) (src : Byte),
    src = (match s.params.qShiftSrc with | .vx => s.v[x] | .vy => s.v[y]) →
    (∃ t, exec (.shr x y) s = .next t ∧ (x ≠ vf → t.v[x].toNat = src.toNat / 2) ∧
      t.v[vf].toNat = src.toNat % 2 ∧ Frame [] (fun r => r = x ∨ r = vf) s t) ∧
    (∃ t, exec (.shl x y) s = .next t ∧ (x ≠ vf → t.v[x].toNat = src.toNat * 2 % 256) ∧
      t.v[vf].toNat = src.toNat / 128 ∧ Frame [] (fun r => r = x ∨ r = vf) s t)

/-! ### Address register -/

/-- LD I, addr (Annn) writes nnn to I alone (R196). -/
def Obligations.LoadIWritesTheImmediate : Prop :=
  ∀ (s : State) (nnn : Addr), ∃ t, exec (.ldI nnn) s = .next t ∧ t.i.toNat = nnn.toNat ∧ Frame [.i] noReg s t ∧
    encode (.ldI nnn) &&& 0xF000 = 0xA000

/-- LD F, Vx (Fx29) and LD HF, Vx (Fx30) point I at the glyph of V[x], unmasked (43_address_register.md; no mask is D30). -/
def Obligations.GlyphPointersScaleTheRegister : Prop :=
  ∀ (s : State) (x : Reg),
    (∃ t, exec (.ldF x) s = .next t ∧ t.i.toNat = s.v[x].toNat * 5 ∧ Frame [.i] noReg s t) ∧
    (∃ t, exec (.ldHf x) s = .next t ∧ t.i.toNat = s.v[x].toNat * 10 + 0x50 ∧ Frame [.i] noReg s t)

/-- ADD I, Vx (Fx1E): I wraps modulo 0x1000 and VF is the 12-bit overflow (43_address_register.md; that VF is cleared
otherwise is D6). -/
def Obligations.AddToIWrapsAndFlags : Prop :=
  ∀ (s : State) (x : Reg), ∃ t, exec (.addI x) s = .next t ∧
    t.i.toNat = (s.i.toNat + s.v[x].toNat) % 0x1000 ∧
    t.v[vf] = (if 0xFFF < s.i.toNat + s.v[x].toNat then 1 else 0) ∧ Frame [.i] (· = vf) s t

/-- JP V0, addr (Bnnn) goes to V0 + nnn, or V[x] + nnn with x the top nibble of nnn under Q_JUMP, without wrapping; to its own
address it stops the machine only under Q_SELF_LOOP_BNNN (43_address_register.md; D1, D10, D11). -/
def Obligations.IndexedJumpAddsTheRegister : Prop :=
  ∀ (s : State) (nnn : Addr) (r : Reg),
    r.val = (match s.params.qJump with | .v0 => 0 | .vx => nnn.toNat / 256) →
    ∃ t, exec (.jpV0 nnn) s = .next t ∧ t.pc.toNat = s.v[r].toNat + nnn.toNat ∧
      t.runState = (if s.params.qSelfLoopBnnn = true ∧ s.v[r].toNat + nnn.toNat = (s.pc - 2).toNat then .stopped
        else s.runState) ∧
      Frame [.pc, .runState] noReg s t

/-! ### Random -/

/-- RND Vx, byte (Cxkk): V[x] is a fresh byte masked by kk (44_random.md; the byte is free, D34, log entry 5). -/
def Obligations.RandomByteIsMasked : Prop :=
  ∀ (s : State) (x : Reg) (kk : Byte), ∃ t, exec (.rnd x kk) s = .next t ∧
    t.v[x] = Config.freeRandom s.draws &&& kk ∧ t.draws = s.draws + 1 ∧ Frame [.draws] (· = x) s t

/-! ### Draw -/

/-- DRW (Dxyn) with its source bytes in the space, drawing an 8×n or (extended, n = 0) a 16×16 sprite: exactly the covered
cells are inverted, and VF is 1 if a covered cell was lit, else 0 (45_draw.md §1–§2; edges D23, bit order and layout D24,
coordinates D27). -/
def Obligations.DrawInvertsTheCoveredCells : Prop :=
  ∀ (s : State) (x y : Reg) (n : Nibble), n ≠ 0 ∨ s.extended = true → s.i.toNat + spriteBytes n ≤ 0x1000 →
    ∃ t, exec (.drw x y n) s = .next t ∧
      (∀ r c, r < 64 → c < 128 →
        (Covers n s.v[x] s.v[y] s r c → cellAt t.cells r c = !cellAt s.cells r c) ∧
        (¬ Covers n s.v[x] s.v[y] s r c → cellAt t.cells r c = cellAt s.cells r c)) ∧
      ((∃ r c, r < 64 ∧ c < 128 ∧ Covers n s.v[x] s.v[y] s r c ∧ cellAt s.cells r c = true) → t.v[vf] = 1) ∧
      ((∀ r c, r < 64 → c < 128 → Covers n s.v[x] s.v[y] s r c → cellAt s.cells r c = false) → t.v[vf] = 0) ∧
      Frame [.cells] (· = vf) s t

/-- Two identical draws (the same bytes, coordinates, height and mode) with no other change to the cells between them restore
every cell, and the second reports a collision exactly when the first lit a cell (45_draw.md §2, derived there). -/
def Obligations.DrawingTwiceRestoresTheScreen : Prop :=
  ∀ (s t u : State) (x y : Reg) (n : Nibble), n ≠ 0 ∨ s.extended = true → s.i.toNat + spriteBytes n ≤ 0x1000 →
    exec (.drw x y n) s = .next t →
    u.cells = t.cells → u.extended = s.extended → u.params = s.params → u.i = s.i →
    (∀ a, byteAt u a = byteAt s a) → u.v[x] = s.v[x] → u.v[y] = s.v[y] →
    ∃ w, exec (.drw x y n) u = .next w ∧ (∀ r c, cellAt w.cells r c = cellAt s.cells r c) ∧
      (w.v[vf] = 1 ↔ ∃ r c, cellAt s.cells r c = false ∧ cellAt t.cells r c = true)

/-- A DRW whose source bytes leave the space is the fatal stop AddressOutOfRange at the first such address, with the cells and
VF as they were; Dxy0 in normal mode reads nothing and changes nothing (45_draw.md §1–§2; the no-op is D3, the order D31). -/
def Obligations.DrawFaultOrNoOpKeepsTheScreen : Prop :=
  ∀ (s : State) (x y : Reg) (n : Nibble),
    (n ≠ 0 ∨ s.extended = true → 0x1000 < s.i.toNat + spriteBytes n →
      ∃ t, exec (.drw x y n) s = .next t ∧
        FatalStop .addressOutOfRange (s.pc - 2) (some (encode (.drw x y n))) (some (max s.i.toNat 0x1000)) t ∧
        Frame [.runState, .error] noReg s t) ∧
    (n = 0 → s.extended = false → ∃ t, exec (.drw x y n) s = .next t ∧ Frame [] noReg s t)

/-! ### Keys -/

/-- SKP (Ex9E) skips if key V[x] is pressed and clears it; SKNP (ExA1) skips if it is not pressed, and clears it only under
Q_EXA1_CONSUME; an index above 0xF is never pressed (46_key_query.md; D13, D14). -/
def Obligations.KeyQueriesSkipAndConsume : Prop :=
  ∀ (s : State) (x : Reg),
    (∃ t, exec (.skp x) s = .next t ∧
      t.pc = (if isPressed s.v[x].toNat s = true then s.pc + 2 else s.pc) ∧ (0xF < s.v[x].toNat → t.pc = s.pc) ∧
      (∀ k, isPressed k t = if k = s.v[x].toNat then false else isPressed k s) ∧ Frame [.pc, .keys] noReg s t) ∧
    (∃ t, exec (.sknp x) s = .next t ∧
      t.pc = (if isPressed s.v[x].toNat s = true then s.pc else s.pc + 2) ∧ (0xF < s.v[x].toNat → t.pc = s.pc + 2) ∧
      (∀ k, isPressed k t = if s.params.qExa1Consume = true ∧ k = s.v[x].toNat then false else isPressed k s) ∧
      Frame [.pc, .keys] noReg s t)

/-! ### Timers and wait -/

/-- LD Vx, DT (Fx07), LD DT, Vx (Fx15) and LD ST, Vx (Fx18) copy one byte; LD Vx, K (Fx0A) makes the machine wait for a key for
V[x] (R251, R252, R254, R255). -/
def Obligations.TimerInstructionsCopyAndWait : Prop :=
  ∀ (s : State) (x : Reg),
    (∃ t, exec (.ldVxDt x) s = .next t ∧ t.v[x] = s.dt ∧ Frame [] (· = x) s t) ∧
    (∃ t, exec (.ldVxK x) s = .next t ∧ t.waitReg = x ∧ t.runState = .halted ∧ Frame [.waitReg, .runState] noReg s t) ∧
    (∃ t, exec (.ldDtVx x) s = .next t ∧ t.dt = s.v[x] ∧ Frame [.dt] noReg s t) ∧
    (∃ t, exec (.ldStVx x) s = .next t ∧ t.st = s.v[x] ∧ Frame [.st] noReg s t) ∧
    encode (.ldVxDt x) &&& 0xF0FF = 0xF007 ∧ encode (.ldVxK x) &&& 0xF0FF = 0xF00A ∧
    encode (.ldDtVx x) &&& 0xF0FF = 0xF015 ∧ encode (.ldStVx x) &&& 0xF0FF = 0xF018

/-! ### BCD and bulk transfers -/

/-- LD B, Vx (Fx33) with I .. I + 2 in the user region stores the hundreds, the tens and the ones there, and changes nothing
else (48_bcd_and_bulk.md). -/
def Obligations.BcdStoresThreeDigits : Prop :=
  ∀ (s : State) (x : Reg), memWf s.mem = true → 0x200 ≤ s.i.toNat → s.i.toNat + 3 ≤ 0x1000 →
    ∃ t, exec (.ldB x) s = .next t ∧
      (byteAt t s.i.toNat).toNat = s.v[x].toNat / 100 ∧
      (byteAt t (s.i.toNat + 1)).toNat = s.v[x].toNat / 10 % 10 ∧
      (byteAt t (s.i.toNat + 2)).toNat = s.v[x].toNat % 10 ∧
      (∀ a, a < s.i.toNat ∨ s.i.toNat + 3 ≤ a → byteAt t a = byteAt s a) ∧ Frame [.mem] noReg s t

/-- LD [I], Vx (Fx55) with I .. I + x in the user region stores V0..Vx there; I changes only under Q_LOADSTORE_I
(48_bcd_and_bulk.md; the quirk is D7). -/
def Obligations.StoreRegistersToMemory : Prop :=
  ∀ (s : State) (x : Reg), memWf s.mem = true → 0x200 ≤ s.i.toNat → s.i.toNat + x.val + 1 ≤ 0x1000 →
    ∃ t, exec (.ldMemVx x) s = .next t ∧
      (∀ r : Reg, r ≤ x → byteAt t (s.i.toNat + r.val) = s.v[r]) ∧
      (∀ a, a < s.i.toNat ∨ s.i.toNat + x.val < a → byteAt t a = byteAt s a) ∧
      t.i.toNat = (match s.params.qLoadStoreI with
        | .unchanged => s.i.toNat
        | .increment => (s.i.toNat + x.val + 1) % 0x1000) ∧
      Frame [.mem, .i] noReg s t

/-- LD Vx, [I] (Fx65) with I .. I + x in the space loads V0..Vx from there; I changes only under Q_LOADSTORE_I
(48_bcd_and_bulk.md; the quirk is D7). -/
def Obligations.LoadRegistersFromMemory : Prop :=
  ∀ (s : State) (x : Reg), s.i.toNat + x.val + 1 ≤ 0x1000 →
    ∃ t, exec (.ldVxMem x) s = .next t ∧
      (∀ r : Reg, r ≤ x → t.v[r] = byteAt s (s.i.toNat + r.val)) ∧
      t.i.toNat = (match s.params.qLoadStoreI with
        | .unchanged => s.i.toNat
        | .increment => (s.i.toNat + x.val + 1) % 0x1000) ∧
      Frame [.i] (· ≤ x) s t

/-- LD R, Vx (Fx75) copies V0..Vx to the RPL flags and LD Vx, R (Fx85) copies them back, for x ≤ 7; for x > 7 both are the
fatal stop RplIndexOutOfRange before any transfer (48_bcd_and_bulk.md; the check's place in Fx85 is D29). -/
def Obligations.RplTransfersWithinEightFlags : Prop :=
  ∀ (s : State) (x : Reg),
    (x.val ≤ 7 →
      (∃ t, exec (.ldRVx x) s = .next t ∧
        (∀ (j : Fin 8) (r : Reg), r.val = j.val → t.rpl[j] = if r ≤ x then s.v[r] else s.rpl[j]) ∧
        Frame [.rpl] noReg s t) ∧
      (∃ t, exec (.ldVxR x) s = .next t ∧
        (∀ (j : Fin 8) (r : Reg), r.val = j.val → r ≤ x → t.v[r] = s.rpl[j]) ∧ Frame [] (· ≤ x) s t)) ∧
    (7 < x.val →
      (∃ t, exec (.ldRVx x) s = .next t ∧
        FatalStop .rplIndexOutOfRange (s.pc - 2) (some (encode (.ldRVx x))) none t ∧
        Frame [.runState, .error] noReg s t) ∧
      (∃ t, exec (.ldVxR x) s = .next t ∧
        FatalStop .rplIndexOutOfRange (s.pc - 2) (some (encode (.ldVxR x))) none t ∧
        Frame [.runState, .error] noReg s t))

/-- Fx33, Fx55 and Fx65 whose addresses leave the region they may access are the fatal stop AddressOutOfRange at the first
failing address; the bytes stored and the registers loaded before it stay, and I is not updated (48_bcd_and_bulk.md,
60_exceptions.md §1; the partial effects are D29). -/
def Obligations.BulkFaultsKeepTheEarlierAccesses : Prop :=
  ∀ (s : State) (x : Reg), memWf s.mem = true →
    (∀ (i : Instr) (bs : List Byte),
      (i = .ldB x ∧ bs = bcdDigits s.v[x]) ∨ (i = .ldMemVx x ∧ bs = regsUpTo x s) →
      ¬ (0x200 ≤ s.i.toNat ∧ s.i.toNat + bs.length ≤ 0x1000) →
      ∃ t done, done = (if s.i.toNat < 0x200 then 0 else 0x1000 - s.i.toNat) ∧ exec i s = .next t ∧
        FatalStop .addressOutOfRange (s.pc - 2) (some (encode i)) (some (s.i.toNat + done)) t ∧
        (∀ k, k < done → byteAt t (s.i.toNat + k) = bs.getD k 0) ∧
        (∀ a, a < s.i.toNat ∨ s.i.toNat + done ≤ a → byteAt t a = byteAt s a) ∧
        Frame [.mem, .runState, .error] noReg s t) ∧
    (0x1000 < s.i.toNat + x.val + 1 →
      ∃ t, exec (.ldVxMem x) s = .next t ∧
        FatalStop .addressOutOfRange (s.pc - 2) (some (encode (.ldVxMem x))) (some (max s.i.toNat 0x1000)) t ∧
        (∀ r : Reg, s.i.toNat + r.val < 0x1000 → t.v[r] = byteAt s (s.i.toNat + r.val)) ∧
        Frame [.runState, .error] (fun r => s.i.toNat + r.val < 0x1000) s t)

/-! ### Whole-machine rules -/

/-- No step faults or is refused: FramebufferIndexOverflow, the model's one fault (log entry 13), is unreachable
(60_exceptions.md §1, 45_draw.md §1; D43). That an error of an instruction is a next state is log entry 14, and that Ready and
Stopped, where no cycle runs, step at all is log entry 7: both are the model's reading. -/
def Obligations.EveryStepHasANextState : Prop := ∀ s : State, ∃ t, step s = .next t

/-- A running or waiting machine becomes Stopped by exactly four routes: the stop check, exit, a detected self-loop, and a
fatal stop, whose record holds the instruction's address (60_exceptions.md §2; exit is
D45, the self-loop of Bnnn D11, the stop check D17; a normal stop leaves the record as it is, log entry 14). -/
def Obligations.FourRoutesToStopped : Prop :=
  ∀ s t : State, s.runState = .running ∨ s.runState = .halted → step s = .next t → t.runState = .stopped →
    (s.stopRequested = true ∧ t.error = s.error) ∨
    (Fetches s .exit ∧ t.error = s.error) ∨
    ((∃ nnn : Addr, nnn.toNat = s.pc.toNat ∧ (Fetches s (.jp nnn) ∨ Fetches s (.call nnn))) ∧ t.error = s.error) ∨
    ((∃ nnn : Addr, Fetches s (.jpV0 nnn) ∧ s.params.qSelfLoopBnnn = true ∧
      (jumpBase nnn s).toNat + nnn.toNat = s.pc.toNat) ∧ t.error = s.error) ∨
    (s.runState = .running ∧ ∃ r, t.error = some r ∧ r.pc0 = s.pc)

/-- In Ready and Stopped no cycle runs: a step without an environment move, the Interpreter's turn by the schedule or by a free
draw, leaves all but the turn as it is (that it is a step at all is log entry 7, whose turn it is log entry 6); only the host's
reset leaves Stopped (60_exceptions.md §1–§2). -/
def Obligations.IdleStatesRunNoCycle : Prop :=
  (∀ s : State, s.runState = .ready ∨ s.runState = .stopped →
    (pendingMove s = .interpreter → step s = .next (takeMove s)) ∧
    (∀ rest, s.schedule = .interpreter :: rest → step s = .next { s with schedule := rest }) ∧
    ∀ tick, cycle tick s = .next s) ∧
  (∀ s t : State, s.runState = .stopped → step s = .next t → t.runState ≠ .stopped → pendingMove s = .reset)

/-- Which instructions reach a unit (60_exceptions.md §4, 10_state.md §4 and §6, 20_memory.md §2): the framebuffer, the key
latch, the RPL flags, SP, memory; every other instruction leaves it as it is. -/
def Obligations.UnitsAreReachedOnlyByTheirInstructions : Prop :=
  ∀ (i : Instr) (s t : State), exec i s = .next t →
    (reachesFramebuffer i = false → t.cells = s.cells ∧ t.extended = s.extended) ∧
    ((∀ x, i ≠ .skp x ∧ i ≠ .sknp x) → t.keys = s.keys) ∧
    ((∀ x, i ≠ .ldRVx x) → t.rpl = s.rpl) ∧
    ((i ≠ .ret ∧ ∀ nnn, i ≠ .call nnn) → t.sp = s.sp) ∧
    (storesToMemory i = false → t.mem = s.mem)

/-- Which instructions write VF: the flag writers, the logic operations under their quirk (D2, log entry 3), and those whose
destination is VF (10_state.md §1). Two instructions that R22 lists with x = F are left out here: Fx85, since x = F is the
stop RplIndexOutOfRange before any transfer (48_bcd_and_bulk.md, D29), and Fx0A, since exec of it only starts the wait and the
halted poll writes the key (47_timers_and_wait.md). -/
def Obligations.OnlyTheListedInstructionsWriteVf : Prop :=
  ∀ (i : Instr) (s t : State), exec i s = .next t → mayWriteVf s i = false → t.v[vf] = s.v[vf]

/-- No step reads ST: two states that differ in ST alone step to states that differ in ST alone (10_state.md §5,
60_exceptions.md §3). -/
def Obligations.SoundTimerIsNeverRead : Prop :=
  ∀ (s t : State) (b : Byte), step s = .next t →
    ∃ t', step { s with st := b } = .next t' ∧ Frame [.st] noReg t t'
end

