-- ==== Sys2Proof/Laws/State.lean ====
section
/-! SUPPORT. The state records: one lemma per field per primitive update, and for every other update the equation that
gives it as a primitive update. A proof uses these and unfolds no update. -/

namespace Sys2Proof.Machine

/-! ### setV -/

@[simp] theorem setV_v (x : Reg) (b : Byte) (s : State) : (setV x b s).v = s.v.set x b := rfl
@[simp] theorem setV_i (x : Reg) (b : Byte) (s : State) : (setV x b s).i = s.i := rfl
@[simp] theorem setV_pc (x : Reg) (b : Byte) (s : State) : (setV x b s).pc = s.pc := rfl
@[simp] theorem setV_sp (x : Reg) (b : Byte) (s : State) : (setV x b s).sp = s.sp := rfl
@[simp] theorem setV_dt (x : Reg) (b : Byte) (s : State) : (setV x b s).dt = s.dt := rfl
@[simp] theorem setV_st (x : Reg) (b : Byte) (s : State) : (setV x b s).st = s.st := rfl
@[simp] theorem setV_rpl (x : Reg) (b : Byte) (s : State) : (setV x b s).rpl = s.rpl := rfl
@[simp] theorem setV_mem (x : Reg) (b : Byte) (s : State) : (setV x b s).mem = s.mem := rfl
@[simp] theorem setV_cells (x : Reg) (b : Byte) (s : State) : (setV x b s).cells = s.cells := rfl
@[simp] theorem setV_extended (x : Reg) (b : Byte) (s : State) : (setV x b s).extended = s.extended := rfl
@[simp] theorem setV_keys (x : Reg) (b : Byte) (s : State) : (setV x b s).keys = s.keys := rfl
@[simp] theorem setV_runState (x : Reg) (b : Byte) (s : State) : (setV x b s).runState = s.runState := rfl
@[simp] theorem setV_waitReg (x : Reg) (b : Byte) (s : State) : (setV x b s).waitReg = s.waitReg := rfl
@[simp] theorem setV_stopRequested (x : Reg) (b : Byte) (s : State) : (setV x b s).stopRequested = s.stopRequested := rfl
@[simp] theorem setV_error (x : Reg) (b : Byte) (s : State) : (setV x b s).error = s.error := rfl
@[simp] theorem setV_params (x : Reg) (b : Byte) (s : State) : (setV x b s).params = s.params := rfl
@[simp] theorem setV_draws (x : Reg) (b : Byte) (s : State) : (setV x b s).draws = s.draws := rfl
@[simp] theorem setV_ticks (x : Reg) (b : Byte) (s : State) : (setV x b s).ticks = s.ticks := rfl
@[simp] theorem setV_schedule (x : Reg) (b : Byte) (s : State) : (setV x b s).schedule = s.schedule := rfl
@[simp] theorem setV_moves (x : Reg) (b : Byte) (s : State) : (setV x b s).moves = s.moves := rfl

/-! ### setI -/

@[simp] theorem setI_v (w : Word) (s : State) : (setI w s).v = s.v := rfl
@[simp] theorem setI_i (w : Word) (s : State) : (setI w s).i = w := rfl
@[simp] theorem setI_pc (w : Word) (s : State) : (setI w s).pc = s.pc := rfl
@[simp] theorem setI_sp (w : Word) (s : State) : (setI w s).sp = s.sp := rfl
@[simp] theorem setI_dt (w : Word) (s : State) : (setI w s).dt = s.dt := rfl
@[simp] theorem setI_st (w : Word) (s : State) : (setI w s).st = s.st := rfl
@[simp] theorem setI_rpl (w : Word) (s : State) : (setI w s).rpl = s.rpl := rfl
@[simp] theorem setI_mem (w : Word) (s : State) : (setI w s).mem = s.mem := rfl
@[simp] theorem setI_cells (w : Word) (s : State) : (setI w s).cells = s.cells := rfl
@[simp] theorem setI_extended (w : Word) (s : State) : (setI w s).extended = s.extended := rfl
@[simp] theorem setI_keys (w : Word) (s : State) : (setI w s).keys = s.keys := rfl
@[simp] theorem setI_runState (w : Word) (s : State) : (setI w s).runState = s.runState := rfl
@[simp] theorem setI_waitReg (w : Word) (s : State) : (setI w s).waitReg = s.waitReg := rfl
@[simp] theorem setI_stopRequested (w : Word) (s : State) : (setI w s).stopRequested = s.stopRequested := rfl
@[simp] theorem setI_error (w : Word) (s : State) : (setI w s).error = s.error := rfl
@[simp] theorem setI_params (w : Word) (s : State) : (setI w s).params = s.params := rfl
@[simp] theorem setI_draws (w : Word) (s : State) : (setI w s).draws = s.draws := rfl
@[simp] theorem setI_ticks (w : Word) (s : State) : (setI w s).ticks = s.ticks := rfl
@[simp] theorem setI_schedule (w : Word) (s : State) : (setI w s).schedule = s.schedule := rfl
@[simp] theorem setI_moves (w : Word) (s : State) : (setI w s).moves = s.moves := rfl

/-! ### setPc -/

@[simp] theorem setPc_v (w : Word) (s : State) : (setPc w s).v = s.v := rfl
@[simp] theorem setPc_i (w : Word) (s : State) : (setPc w s).i = s.i := rfl
@[simp] theorem setPc_pc (w : Word) (s : State) : (setPc w s).pc = w := rfl
@[simp] theorem setPc_sp (w : Word) (s : State) : (setPc w s).sp = s.sp := rfl
@[simp] theorem setPc_dt (w : Word) (s : State) : (setPc w s).dt = s.dt := rfl
@[simp] theorem setPc_st (w : Word) (s : State) : (setPc w s).st = s.st := rfl
@[simp] theorem setPc_rpl (w : Word) (s : State) : (setPc w s).rpl = s.rpl := rfl
@[simp] theorem setPc_mem (w : Word) (s : State) : (setPc w s).mem = s.mem := rfl
@[simp] theorem setPc_cells (w : Word) (s : State) : (setPc w s).cells = s.cells := rfl
@[simp] theorem setPc_extended (w : Word) (s : State) : (setPc w s).extended = s.extended := rfl
@[simp] theorem setPc_keys (w : Word) (s : State) : (setPc w s).keys = s.keys := rfl
@[simp] theorem setPc_runState (w : Word) (s : State) : (setPc w s).runState = s.runState := rfl
@[simp] theorem setPc_waitReg (w : Word) (s : State) : (setPc w s).waitReg = s.waitReg := rfl
@[simp] theorem setPc_stopRequested (w : Word) (s : State) : (setPc w s).stopRequested = s.stopRequested := rfl
@[simp] theorem setPc_error (w : Word) (s : State) : (setPc w s).error = s.error := rfl
@[simp] theorem setPc_params (w : Word) (s : State) : (setPc w s).params = s.params := rfl
@[simp] theorem setPc_draws (w : Word) (s : State) : (setPc w s).draws = s.draws := rfl
@[simp] theorem setPc_ticks (w : Word) (s : State) : (setPc w s).ticks = s.ticks := rfl
@[simp] theorem setPc_schedule (w : Word) (s : State) : (setPc w s).schedule = s.schedule := rfl
@[simp] theorem setPc_moves (w : Word) (s : State) : (setPc w s).moves = s.moves := rfl

/-! ### fatalStop -/

@[simp] theorem fatalStop_v (r : ErrorRecord) (s : State) : (fatalStop r s).v = s.v := rfl
@[simp] theorem fatalStop_i (r : ErrorRecord) (s : State) : (fatalStop r s).i = s.i := rfl
@[simp] theorem fatalStop_pc (r : ErrorRecord) (s : State) : (fatalStop r s).pc = s.pc := rfl
@[simp] theorem fatalStop_sp (r : ErrorRecord) (s : State) : (fatalStop r s).sp = s.sp := rfl
@[simp] theorem fatalStop_dt (r : ErrorRecord) (s : State) : (fatalStop r s).dt = s.dt := rfl
@[simp] theorem fatalStop_st (r : ErrorRecord) (s : State) : (fatalStop r s).st = s.st := rfl
@[simp] theorem fatalStop_rpl (r : ErrorRecord) (s : State) : (fatalStop r s).rpl = s.rpl := rfl
@[simp] theorem fatalStop_mem (r : ErrorRecord) (s : State) : (fatalStop r s).mem = s.mem := rfl
@[simp] theorem fatalStop_cells (r : ErrorRecord) (s : State) : (fatalStop r s).cells = s.cells := rfl
@[simp] theorem fatalStop_extended (r : ErrorRecord) (s : State) : (fatalStop r s).extended = s.extended := rfl
@[simp] theorem fatalStop_keys (r : ErrorRecord) (s : State) : (fatalStop r s).keys = s.keys := rfl
@[simp] theorem fatalStop_runState (r : ErrorRecord) (s : State) : (fatalStop r s).runState = .stopped := rfl
@[simp] theorem fatalStop_waitReg (r : ErrorRecord) (s : State) : (fatalStop r s).waitReg = s.waitReg := rfl
@[simp] theorem fatalStop_stopRequested (r : ErrorRecord) (s : State) : (fatalStop r s).stopRequested = s.stopRequested := rfl
@[simp] theorem fatalStop_error (r : ErrorRecord) (s : State) : (fatalStop r s).error = some r := rfl
@[simp] theorem fatalStop_params (r : ErrorRecord) (s : State) : (fatalStop r s).params = s.params := rfl
@[simp] theorem fatalStop_draws (r : ErrorRecord) (s : State) : (fatalStop r s).draws = s.draws := rfl
@[simp] theorem fatalStop_ticks (r : ErrorRecord) (s : State) : (fatalStop r s).ticks = s.ticks := rfl
@[simp] theorem fatalStop_schedule (r : ErrorRecord) (s : State) : (fatalStop r s).schedule = s.schedule := rfl
@[simp] theorem fatalStop_moves (r : ErrorRecord) (s : State) : (fatalStop r s).moves = s.moves := rfl

/-! ### stopNormal -/

@[simp] theorem stopNormal_v (s : State) : (stopNormal s).v = s.v := rfl
@[simp] theorem stopNormal_i (s : State) : (stopNormal s).i = s.i := rfl
@[simp] theorem stopNormal_pc (s : State) : (stopNormal s).pc = s.pc := rfl
@[simp] theorem stopNormal_sp (s : State) : (stopNormal s).sp = s.sp := rfl
@[simp] theorem stopNormal_dt (s : State) : (stopNormal s).dt = s.dt := rfl
@[simp] theorem stopNormal_st (s : State) : (stopNormal s).st = s.st := rfl
@[simp] theorem stopNormal_rpl (s : State) : (stopNormal s).rpl = s.rpl := rfl
@[simp] theorem stopNormal_mem (s : State) : (stopNormal s).mem = s.mem := rfl
@[simp] theorem stopNormal_cells (s : State) : (stopNormal s).cells = s.cells := rfl
@[simp] theorem stopNormal_extended (s : State) : (stopNormal s).extended = s.extended := rfl
@[simp] theorem stopNormal_keys (s : State) : (stopNormal s).keys = s.keys := rfl
@[simp] theorem stopNormal_runState (s : State) : (stopNormal s).runState = .stopped := rfl
@[simp] theorem stopNormal_waitReg (s : State) : (stopNormal s).waitReg = s.waitReg := rfl
@[simp] theorem stopNormal_stopRequested (s : State) : (stopNormal s).stopRequested = s.stopRequested := rfl
@[simp] theorem stopNormal_error (s : State) : (stopNormal s).error = s.error := rfl
@[simp] theorem stopNormal_params (s : State) : (stopNormal s).params = s.params := rfl
@[simp] theorem stopNormal_draws (s : State) : (stopNormal s).draws = s.draws := rfl
@[simp] theorem stopNormal_ticks (s : State) : (stopNormal s).ticks = s.ticks := rfl
@[simp] theorem stopNormal_schedule (s : State) : (stopNormal s).schedule = s.schedule := rfl
@[simp] theorem stopNormal_moves (s : State) : (stopNormal s).moves = s.moves := rfl

/-! ### setExtended -/

@[simp] theorem setExtended_v (b : Bool) (s : State) : (setExtended b s).v = s.v := rfl
@[simp] theorem setExtended_i (b : Bool) (s : State) : (setExtended b s).i = s.i := rfl
@[simp] theorem setExtended_pc (b : Bool) (s : State) : (setExtended b s).pc = s.pc := rfl
@[simp] theorem setExtended_sp (b : Bool) (s : State) : (setExtended b s).sp = s.sp := rfl
@[simp] theorem setExtended_dt (b : Bool) (s : State) : (setExtended b s).dt = s.dt := rfl
@[simp] theorem setExtended_st (b : Bool) (s : State) : (setExtended b s).st = s.st := rfl
@[simp] theorem setExtended_rpl (b : Bool) (s : State) : (setExtended b s).rpl = s.rpl := rfl
@[simp] theorem setExtended_mem (b : Bool) (s : State) : (setExtended b s).mem = s.mem := rfl
@[simp] theorem setExtended_cells (b : Bool) (s : State) : (setExtended b s).cells = s.cells := rfl
@[simp] theorem setExtended_extended (b : Bool) (s : State) : (setExtended b s).extended = b := rfl
@[simp] theorem setExtended_keys (b : Bool) (s : State) : (setExtended b s).keys = s.keys := rfl
@[simp] theorem setExtended_runState (b : Bool) (s : State) : (setExtended b s).runState = s.runState := rfl
@[simp] theorem setExtended_waitReg (b : Bool) (s : State) : (setExtended b s).waitReg = s.waitReg := rfl
@[simp] theorem setExtended_stopRequested (b : Bool) (s : State) : (setExtended b s).stopRequested = s.stopRequested := rfl
@[simp] theorem setExtended_error (b : Bool) (s : State) : (setExtended b s).error = s.error := rfl
@[simp] theorem setExtended_params (b : Bool) (s : State) : (setExtended b s).params = s.params := rfl
@[simp] theorem setExtended_draws (b : Bool) (s : State) : (setExtended b s).draws = s.draws := rfl
@[simp] theorem setExtended_ticks (b : Bool) (s : State) : (setExtended b s).ticks = s.ticks := rfl
@[simp] theorem setExtended_schedule (b : Bool) (s : State) : (setExtended b s).schedule = s.schedule := rfl
@[simp] theorem setExtended_moves (b : Bool) (s : State) : (setExtended b s).moves = s.moves := rfl

/-! ### setKey -/

@[simp] theorem setKey_v (k : Nat) (b : Bool) (s : State) : (setKey k b s).v = s.v := rfl
@[simp] theorem setKey_i (k : Nat) (b : Bool) (s : State) : (setKey k b s).i = s.i := rfl
@[simp] theorem setKey_pc (k : Nat) (b : Bool) (s : State) : (setKey k b s).pc = s.pc := rfl
@[simp] theorem setKey_sp (k : Nat) (b : Bool) (s : State) : (setKey k b s).sp = s.sp := rfl
@[simp] theorem setKey_dt (k : Nat) (b : Bool) (s : State) : (setKey k b s).dt = s.dt := rfl
@[simp] theorem setKey_st (k : Nat) (b : Bool) (s : State) : (setKey k b s).st = s.st := rfl
@[simp] theorem setKey_rpl (k : Nat) (b : Bool) (s : State) : (setKey k b s).rpl = s.rpl := rfl
@[simp] theorem setKey_mem (k : Nat) (b : Bool) (s : State) : (setKey k b s).mem = s.mem := rfl
@[simp] theorem setKey_cells (k : Nat) (b : Bool) (s : State) : (setKey k b s).cells = s.cells := rfl
@[simp] theorem setKey_extended (k : Nat) (b : Bool) (s : State) : (setKey k b s).extended = s.extended := rfl
@[simp] theorem setKey_keys (k : Nat) (b : Bool) (s : State) : (setKey k b s).keys = s.keys.setIfInBounds k b := rfl
@[simp] theorem setKey_runState (k : Nat) (b : Bool) (s : State) : (setKey k b s).runState = s.runState := rfl
@[simp] theorem setKey_waitReg (k : Nat) (b : Bool) (s : State) : (setKey k b s).waitReg = s.waitReg := rfl
@[simp] theorem setKey_stopRequested (k : Nat) (b : Bool) (s : State) : (setKey k b s).stopRequested = s.stopRequested := rfl
@[simp] theorem setKey_error (k : Nat) (b : Bool) (s : State) : (setKey k b s).error = s.error := rfl
@[simp] theorem setKey_params (k : Nat) (b : Bool) (s : State) : (setKey k b s).params = s.params := rfl
@[simp] theorem setKey_draws (k : Nat) (b : Bool) (s : State) : (setKey k b s).draws = s.draws := rfl
@[simp] theorem setKey_ticks (k : Nat) (b : Bool) (s : State) : (setKey k b s).ticks = s.ticks := rfl
@[simp] theorem setKey_schedule (k : Nat) (b : Bool) (s : State) : (setKey k b s).schedule = s.schedule := rfl
@[simp] theorem setKey_moves (k : Nat) (b : Bool) (s : State) : (setKey k b s).moves = s.moves := rfl

/-! ### takeDraw -/

@[simp] theorem takeDraw_v (s : State) : (takeDraw s).v = s.v := rfl
@[simp] theorem takeDraw_i (s : State) : (takeDraw s).i = s.i := rfl
@[simp] theorem takeDraw_pc (s : State) : (takeDraw s).pc = s.pc := rfl
@[simp] theorem takeDraw_sp (s : State) : (takeDraw s).sp = s.sp := rfl
@[simp] theorem takeDraw_dt (s : State) : (takeDraw s).dt = s.dt := rfl
@[simp] theorem takeDraw_st (s : State) : (takeDraw s).st = s.st := rfl
@[simp] theorem takeDraw_rpl (s : State) : (takeDraw s).rpl = s.rpl := rfl
@[simp] theorem takeDraw_mem (s : State) : (takeDraw s).mem = s.mem := rfl
@[simp] theorem takeDraw_cells (s : State) : (takeDraw s).cells = s.cells := rfl
@[simp] theorem takeDraw_extended (s : State) : (takeDraw s).extended = s.extended := rfl
@[simp] theorem takeDraw_keys (s : State) : (takeDraw s).keys = s.keys := rfl
@[simp] theorem takeDraw_runState (s : State) : (takeDraw s).runState = s.runState := rfl
@[simp] theorem takeDraw_waitReg (s : State) : (takeDraw s).waitReg = s.waitReg := rfl
@[simp] theorem takeDraw_stopRequested (s : State) : (takeDraw s).stopRequested = s.stopRequested := rfl
@[simp] theorem takeDraw_error (s : State) : (takeDraw s).error = s.error := rfl
@[simp] theorem takeDraw_params (s : State) : (takeDraw s).params = s.params := rfl
@[simp] theorem takeDraw_draws (s : State) : (takeDraw s).draws = s.draws + 1 := rfl
@[simp] theorem takeDraw_ticks (s : State) : (takeDraw s).ticks = s.ticks := rfl
@[simp] theorem takeDraw_schedule (s : State) : (takeDraw s).schedule = s.schedule := rfl
@[simp] theorem takeDraw_moves (s : State) : (takeDraw s).moves = s.moves := rfl

/-! ### requestStop -/

@[simp] theorem requestStop_v (s : State) : (requestStop s).v = s.v := rfl
@[simp] theorem requestStop_i (s : State) : (requestStop s).i = s.i := rfl
@[simp] theorem requestStop_pc (s : State) : (requestStop s).pc = s.pc := rfl
@[simp] theorem requestStop_sp (s : State) : (requestStop s).sp = s.sp := rfl
@[simp] theorem requestStop_dt (s : State) : (requestStop s).dt = s.dt := rfl
@[simp] theorem requestStop_st (s : State) : (requestStop s).st = s.st := rfl
@[simp] theorem requestStop_rpl (s : State) : (requestStop s).rpl = s.rpl := rfl
@[simp] theorem requestStop_mem (s : State) : (requestStop s).mem = s.mem := rfl
@[simp] theorem requestStop_cells (s : State) : (requestStop s).cells = s.cells := rfl
@[simp] theorem requestStop_extended (s : State) : (requestStop s).extended = s.extended := rfl
@[simp] theorem requestStop_keys (s : State) : (requestStop s).keys = s.keys := rfl
@[simp] theorem requestStop_runState (s : State) : (requestStop s).runState = s.runState := rfl
@[simp] theorem requestStop_waitReg (s : State) : (requestStop s).waitReg = s.waitReg := rfl
@[simp] theorem requestStop_stopRequested (s : State) : (requestStop s).stopRequested = true := rfl
@[simp] theorem requestStop_error (s : State) : (requestStop s).error = s.error := rfl
@[simp] theorem requestStop_params (s : State) : (requestStop s).params = s.params := rfl
@[simp] theorem requestStop_draws (s : State) : (requestStop s).draws = s.draws := rfl
@[simp] theorem requestStop_ticks (s : State) : (requestStop s).ticks = s.ticks := rfl
@[simp] theorem requestStop_schedule (s : State) : (requestStop s).schedule = s.schedule := rfl
@[simp] theorem requestStop_moves (s : State) : (requestStop s).moves = s.moves := rfl

/-! ### takeMove -/

@[simp] theorem takeMove_v (s : State) : (takeMove s).v = s.v := rfl
@[simp] theorem takeMove_i (s : State) : (takeMove s).i = s.i := rfl
@[simp] theorem takeMove_pc (s : State) : (takeMove s).pc = s.pc := rfl
@[simp] theorem takeMove_sp (s : State) : (takeMove s).sp = s.sp := rfl
@[simp] theorem takeMove_dt (s : State) : (takeMove s).dt = s.dt := rfl
@[simp] theorem takeMove_st (s : State) : (takeMove s).st = s.st := rfl
@[simp] theorem takeMove_rpl (s : State) : (takeMove s).rpl = s.rpl := rfl
@[simp] theorem takeMove_mem (s : State) : (takeMove s).mem = s.mem := rfl
@[simp] theorem takeMove_cells (s : State) : (takeMove s).cells = s.cells := rfl
@[simp] theorem takeMove_extended (s : State) : (takeMove s).extended = s.extended := rfl
@[simp] theorem takeMove_keys (s : State) : (takeMove s).keys = s.keys := rfl
@[simp] theorem takeMove_runState (s : State) : (takeMove s).runState = s.runState := rfl
@[simp] theorem takeMove_waitReg (s : State) : (takeMove s).waitReg = s.waitReg := rfl
@[simp] theorem takeMove_stopRequested (s : State) : (takeMove s).stopRequested = s.stopRequested := rfl
@[simp] theorem takeMove_error (s : State) : (takeMove s).error = s.error := rfl
@[simp] theorem takeMove_params (s : State) : (takeMove s).params = s.params := rfl
@[simp] theorem takeMove_draws (s : State) : (takeMove s).draws = s.draws := rfl
@[simp] theorem takeMove_ticks (s : State) : (takeMove s).ticks = s.ticks := rfl
@[simp] theorem takeMove_schedule (s : State) : (takeMove s).schedule = s.schedule.tail := rfl
@[simp] theorem takeMove_moves (s : State) :
    (takeMove s).moves = if s.schedule.isEmpty then s.moves + 1 else s.moves := rfl

/-! ### interpreterReset -/

@[simp] theorem interpreterReset_v (s : State) : (interpreterReset s).v = s.params.initV := rfl
@[simp] theorem interpreterReset_i (s : State) : (interpreterReset s).i = s.params.initI := rfl
@[simp] theorem interpreterReset_pc (s : State) : (interpreterReset s).pc = 0x0200 := rfl
@[simp] theorem interpreterReset_sp (s : State) : (interpreterReset s).sp = 0x0EA0 := rfl
@[simp] theorem interpreterReset_dt (s : State) : (interpreterReset s).dt = 0 := rfl
@[simp] theorem interpreterReset_st (s : State) : (interpreterReset s).st = 0 := rfl
@[simp] theorem interpreterReset_rpl (s : State) : (interpreterReset s).rpl = s.rpl := rfl
@[simp] theorem interpreterReset_mem (s : State) : (interpreterReset s).mem = s.mem := rfl
@[simp] theorem interpreterReset_cells (s : State) : (interpreterReset s).cells = s.cells := rfl
@[simp] theorem interpreterReset_extended (s : State) : (interpreterReset s).extended = s.extended := rfl
@[simp] theorem interpreterReset_keys (s : State) : (interpreterReset s).keys = s.keys := rfl
@[simp] theorem interpreterReset_runState (s : State) : (interpreterReset s).runState = .ready := rfl
@[simp] theorem interpreterReset_waitReg (s : State) : (interpreterReset s).waitReg = 0 := rfl
@[simp] theorem interpreterReset_stopRequested (s : State) : (interpreterReset s).stopRequested = false := rfl
@[simp] theorem interpreterReset_error (s : State) : (interpreterReset s).error = none := rfl
@[simp] theorem interpreterReset_params (s : State) : (interpreterReset s).params = s.params := rfl
@[simp] theorem interpreterReset_draws (s : State) : (interpreterReset s).draws = s.draws := rfl
@[simp] theorem interpreterReset_ticks (s : State) : (interpreterReset s).ticks = s.ticks := rfl
@[simp] theorem interpreterReset_schedule (s : State) : (interpreterReset s).schedule = s.schedule := rfl
@[simp] theorem interpreterReset_moves (s : State) : (interpreterReset s).moves = s.moves := rfl

/-! ### Updates made of the primitive ones -/

@[simp] theorem skip_eq_setPc (s : State) : skip s = setPc (s.pc + 2) s := rfl

@[simp] theorem advance_eq_setPc (s : State) : advance s = setPc (s.pc + 2) s := rfl

@[simp] theorem setFlag_eq_setV (c : Bool) (s : State) : setFlag c s = setV vf (flagByte c) s := rfl

@[simp] theorem setVThenFlag_eq_setV (x : Reg) (b : Byte) (c : Bool) (s : State) :
    setVThenFlag x b c s = setV vf (flagByte c) (setV x b s) := rfl

@[simp] theorem press_eq_setKey (k : Nat) (s : State) : press k s = setKey k true s := rfl

@[simp] theorem release_eq_setKey (k : Nat) (s : State) : release k s = setKey k false s := rfl

@[simp] theorem selfLoopStop_eq_stopNormal (w : Word) (s : State) : selfLoopStop w s = stopNormal (setPc w s) := rfl

/-- A conditional skip changes PC alone. -/
theorem skipIf_eq_setPc (c : Bool) (s : State) : skipIf c s = setPc (if c then s.pc + 2 else s.pc) s := by
  cases c <;> rfl

/-- The flag of the logic operations changes VF alone. -/
theorem logicFlag_eq_setV (s : State) :
    logicFlag s = setV vf (if s.params.qLogicVfReset then 0 else s.v[vf]) s := by
  unfold logicFlag
  split
  · rfl
  · simp [setV]

/-- Setting a key that already has the value changes nothing. -/
theorem setKey_of_not_isPressed (k : Nat) (s : State) (h : isPressed k s = false) : setKey k false s = s := by
  have hk : s.keys.setIfInBounds k false = s.keys := by
    apply Vector.ext
    intro j hj
    rw [Vector.getElem_setIfInBounds]
    split
    · next hkj => subst hkj; simpa [isPressed, hj] using h.symm
    · rfl
  simp [setKey, hk]

/-- Consuming a key releases it, pressed or not. -/
theorem consume_eq_setKey (k : Nat) (s : State) : consume k s = setKey k false s := by
  unfold consume
  split
  · rfl
  · next h => exact (setKey_of_not_isPressed k s (by simpa using h)).symm

/-- The key that ExA1 consumes is released under its quirk, pressed or not. -/
theorem sknpConsume_eq_setKey (k : Nat) (s : State) :
    sknpConsume k s = if s.params.qExa1Consume then setKey k false s else s := by
  unfold sknpConsume; rw [consume_eq_setKey]

/-- The update of I after a bulk transfer changes I alone. -/
theorem loadStoreI_eq_setI (x : Reg) (s : State) :
    loadStoreI x s = setI (if s.params.qLoadStoreI = .increment then wrapAddr s.i (x.val + 1) else s.i) s := by
  unfold loadStoreI
  cases h : s.params.qLoadStoreI <;> simp [setI]

/-- The copy to the RPL flags changes them alone, flag by flag. -/
theorem copyToRpl_eq (n : Nat) (s : State) : copyToRpl n s = { s with rpl := (copyToRpl n s).rpl } := by
  induction n with
  | zero => rfl
  | succ n ih => rw [copyToRpl, ih]

/-- The copy from the RPL flags changes V alone, register by register. -/
theorem copyFromRpl_eq (n : Nat) (s : State) : copyFromRpl n s = { s with v := (copyFromRpl n s).v } := by
  induction n with
  | zero => rfl
  | succ n ih => rw [copyFromRpl, ih]

/-! ### Reading a register, a key, the instruction's own address -/

/-- VF is register 15 (R22). -/
@[simp] theorem vf_val : vf.val = 15 := rfl

/-- Reading a register after a write. -/
theorem setV_get (x y : Reg) (b : Byte) (s : State) : (setV x b s).v[y] = if x = y then b else s.v[y] := by
  by_cases h : x = y
  · subst h; simp [setV]
  · have : x.val ≠ y.val := fun e => h (Fin.ext e)
    simp [setV, h, this]

/-- Reading a key after a write (R236). -/
theorem isPressed_setKey (k j : Nat) (b : Bool) (s : State) :
    isPressed j (setKey k b s) = if k = j ∧ j < 16 then b else isPressed j s := by
  unfold isPressed setKey
  by_cases h : j < 16
  · by_cases e : k = j
    · subst e; simp [h]
    · simp [h, e]
  · simp [h]

/-- After the fetch, PC − 2 is the address of the instruction (R26). -/
@[simp] theorem pc0_advance (s : State) : pc0 (setPc (s.pc + 2#16) s) = s.pc := by
  simp [pc0]

end Sys2Proof.Machine
end

