-- ==== Sys2Proof/Laws/Memory.lean ====
section
/-! SUPPORT. Memory: what a store leaves to be read, that the canonical form is kept, and one lemma per memory operation
that says everything it can do. -/

namespace Sys2Proof.Machine

/-! ### The list -/

/-- Every address that a canonical list holds is at or above the bound, and in the space. -/
theorem memFind_below (m : Memory) (lo a : Nat) (h : memWfFrom lo m = true) (ha : a < lo) : memFind m a = none := by
  induction m generalizing lo with
  | nil => rfl
  | cons c rest ih =>
    obtain ⟨k, b⟩ := c
    simp only [memWfFrom, Bool.and_eq_true, decide_eq_true_eq] at h
    rw [memFind, if_neg (by omega)]
    exact ih (k + 1) h.2 (by omega)

/-- A lower bound of a canonical list may be lowered. -/
theorem memWfFrom_mono (m : Memory) (lo lo' : Nat) (h : memWfFrom lo m = true) (hl : lo' ≤ lo) :
    memWfFrom lo' m = true := by
  cases m with
  | nil => rfl
  | cons c rest =>
    obtain ⟨k, b⟩ := c
    simp only [memWfFrom, Bool.and_eq_true, decide_eq_true_eq] at h ⊢
    exact ⟨⟨⟨by omega, h.1.1.2⟩, h.1.2⟩, h.2⟩

/-- A store keeps the canonical form. -/
theorem memStore_wf (m : Memory) (lo a : Nat) (b : Byte) (h : memWfFrom lo m = true) (hl : lo ≤ a) (hh : a < 0x1000) :
    memWfFrom lo (memStore m a b) = true := by
  induction m generalizing lo with
  | nil =>
    unfold memStore
    split
    · rfl
    · next hb => simpa [memWfFrom, hl, hh] using hb
  | cons c rest ih =>
    obtain ⟨k, c⟩ := c
    simp only [memWfFrom, Bool.and_eq_true, decide_eq_true_eq, bne_iff_ne, ne_eq] at h
    obtain ⟨⟨⟨h1, h2⟩, h3⟩, h4⟩ := h
    have h3 : c ≠ 0#8 := h3
    unfold memStore
    split
    · next hk => simp [memWfFrom, h1, h2, h3, ih (k + 1) h4 (by omega)]
    · split
      · next hk =>
        subst hk
        split
        · exact memWfFrom_mono rest (k + 1) lo h4 (by omega)
        · next hb => simpa [memWfFrom, h1, h2, h4] using hb
      · split
        · simp [memWfFrom, h1, h2, h3, h4]
        · next hka hb =>
          have : a + 1 ≤ k := by omega
          simpa [memWfFrom, hl, hh, h2, h3, h4, this] using hb

/-- A store changes no other address. -/
theorem memFind_memStore_ne (m : Memory) (a a' : Nat) (b : Byte) (h : a ≠ a') :
    memFind (memStore m a b) a' = memFind m a' := by
  induction m with
  | nil => unfold memStore; split <;> simp [memFind, h]
  | cons c rest ih =>
    obtain ⟨k, c⟩ := c
    unfold memStore
    split
    · simp [memFind, ih]
    · split
      · next hk => subst hk; split <;> simp [memFind, h]
      · split <;> simp [memFind, h]

/-- A store to a canonical list is read back: an unlisted address of the user region reads as zero. -/
theorem memFind_memStore_eq (m : Memory) (lo a : Nat) (b : Byte) (h : memWfFrom lo m = true) :
    (memFind (memStore m a b) a).getD 0x00 = b := by
  induction m generalizing lo with
  | nil => unfold memStore; split <;> simp_all [memFind]
  | cons c rest ih =>
    obtain ⟨k, c⟩ := c
    simp only [memWfFrom, Bool.and_eq_true, decide_eq_true_eq] at h
    unfold memStore
    split
    · next hk =>
      rw [memFind, if_neg (by omega)]
      exact ih (k + 1) h.2
    · split
      · next hk =>
        subst hk
        split
        · next hb => rw [memFind_below rest (k + 1) k h.2 (by omega), hb]; rfl
        · simp [memFind]
      · split
        · next hka hb =>
          rw [memFind, if_neg (by omega), memFind_below rest (k + 1) a h.2 (by omega), hb]
          rfl
        · simp [memFind]

/-! ### Bytes of the space -/

/-- In the user region an unlisted address reads as zero (R62). -/
theorem unlistedByte_user (p : Params) (a : Nat) (h : 0x200 ≤ a) : unlistedByte p a = 0x00 := by
  unfold unlistedByte
  rw [dif_neg (by omega), dif_neg (by omega), if_neg (by omega)]

/-- A byte of the space depends on the parameters and the RAM alone. -/
theorem byteAt_congr (s t : State) (a : Nat) (hp : t.params = s.params) (hm : t.mem = s.mem) : byteAt t a = byteAt s a := by
  unfold byteAt; rw [hp, hm]

/-- Below 0x200 a byte depends on the parameters alone: a program cannot change it (R65). -/
theorem byteAt_rom (s t : State) (a : Nat) (hp : t.params = s.params) (ha : a < 0x200) : byteAt t a = byteAt s a := by
  unfold byteAt; rw [if_pos ha, if_pos ha, hp]

/-- A store into the user region is read back, and every other byte reads as before (R64). -/
theorem byteAt_memStore (s : State) (a a' : Nat) (b : Byte) (hw : memWf s.mem = true) (ha : 0x200 ≤ a) :
    byteAt { s with mem := memStore s.mem a b } a' = if a' = a then b else byteAt s a' := by
  unfold byteAt
  by_cases h' : a' < 0x200
  · rw [if_pos h', if_neg (by omega), if_pos h']
  · rw [if_neg h', if_neg h', unlistedByte_user _ _ (by omega)]
    split
    · next e => subst e; exact memFind_memStore_eq s.mem 0x200 a' b hw
    · next e => rw [memFind_memStore_ne _ _ _ _ (Ne.symm e)]

/-- A store changes no other byte, canonical form or not. -/
theorem byteAt_memStore_ne (s : State) (a a' : Nat) (b : Byte) (h : a' ≠ a) :
    byteAt { s with mem := memStore s.mem a b } a' = byteAt s a' := by
  unfold byteAt
  simp only [memFind_memStore_ne s.mem a a' b (Ne.symm h)]

/-! ### MemRead and MemWrite -/

/-- Everything a one-byte read can do (R63). -/
theorem memRead_eq (s : State) (a : Nat) : memRead s a = if a < 0x1000 then some (byteAt s a) else none := rfl

/-- Everything a one-byte write can do (R64). -/
theorem memWrite_eq (s : State) (a : Nat) (b : Byte) :
    memWrite s a b = if 0x200 ≤ a ∧ a < 0x1000 then some { s with mem := memStore s.mem a b } else none := by
  simp [memWrite, inUserRegion]

/-- Everything a read of a word can do (R11). -/
theorem readWord_eq (s : State) (a : Nat) :
    readWord s a =
      if a + 1 < 0x1000 then .word (joinBytes (byteAt s a) (byteAt s (a + 1)))
      else .outOfRange (if a < 0x1000 then a + 1 else a) := by
  unfold readWord memRead
  by_cases h1 : a + 1 < 0x1000
  · have h2 : a < 0x1000 := by omega
    simp [h1, h2]
  · by_cases h2 : a < 0x1000 <;> simp [h1, h2]

/-- The bytes that n reads from a return. -/
def bytesFrom (s : State) (a : Nat) : Nat → List Byte
  | 0 => []
  | n + 1 => byteAt s a :: bytesFrom s (a + 1) n

@[simp] theorem bytesFrom_length (s : State) (a n : Nat) : (bytesFrom s a n).length = n := by
  induction n generalizing a with
  | zero => rfl
  | succ n ih => simp [bytesFrom, ih]

theorem bytesFrom_get (s : State) (a n k : Nat) (h : k < n) : (bytesFrom s a n)[k]? = some (byteAt s (a + k)) := by
  induction n generalizing a k with
  | zero => omega
  | succ n ih =>
    cases k with
    | zero => simp [bytesFrom]
    | succ k =>
      simp only [bytesFrom, List.getElem?_cons_succ]
      rw [ih (a + 1) k (by omega)]
      congr 2; omega

/-- Everything a read of n bytes can do (R11, R69): the bytes, or the first address outside the space. -/
theorem readBytes_eq (s : State) (a n : Nat) :
    readBytes s a n = if a + n ≤ 0x1000 ∨ n = 0 then .bytes (bytesFrom s a n) else .outOfRange (max a 0x1000) := by
  induction n generalizing a with
  | zero => simp [readBytes, bytesFrom]
  | succ n ih =>
    unfold readBytes memRead
    by_cases ha : a < 0x1000
    · rw [if_pos ha]
      simp only [ih]
      by_cases h : a + (n + 1) ≤ 0x1000
      · rw [if_pos (by omega), if_pos (by omega)]; rfl
      · rw [if_neg (by omega), if_neg (by omega)]
        simp only [ReadResult.outOfRange.injEq]
        omega
    · rw [if_neg ha, if_neg (by omega)]
      simp only [ReadResult.outOfRange.injEq]
      omega

/-! ### Transfers -/

/-- The RAM after the bytes of a list are stored one after the other. -/
theorem storeImage_wf (bs : List Byte) (a : Nat) (m : Memory) (h : memWf m = true) (ha : 0x200 ≤ a)
    (hb : a + bs.length ≤ 0x1000) : memWf (storeImage bs a m) = true := by
  induction bs generalizing a m with
  | nil => exact h
  | cons b bs ih =>
    simp only [List.length_cons] at hb
    exact ih (a + 1) (memStore m a b) (memStore_wf m 0x200 a b h ha (by omega)) (by omega) (by omega)

/-- After an image is stored, its addresses read as its bytes and every other address reads as before (R76). -/
theorem byteAt_storeImage (bs : List Byte) (a a' : Nat) (s : State) (h : memWf s.mem = true) (ha : 0x200 ≤ a)
    (hb : a + bs.length ≤ 0x1000) :
    byteAt { s with mem := storeImage bs a s.mem } a' =
      if a ≤ a' ∧ a' < a + bs.length then bs.getD (a' - a) 0x00 else byteAt s a' := by
  induction bs generalizing a s with
  | nil => rw [if_neg (by simp)]; rfl
  | cons b bs ih =>
    simp only [List.length_cons] at hb ⊢
    have hw : memWf (memStore s.mem a b) = true := memStore_wf s.mem 0x200 a b h ha (by omega)
    have := ih (a + 1) { s with mem := memStore s.mem a b } hw (by omega) (by omega)
    simp only [storeImage]
    simp only at this
    rw [this]
    by_cases h1 : a + 1 ≤ a' ∧ a' < a + 1 + bs.length
    · rw [if_pos h1, if_pos (by omega)]
      have : a' - a = a' - (a + 1) + 1 := by omega
      rw [this, List.getD_cons_succ]
    · rw [if_neg h1, byteAt_memStore s a a' b h ha]
      by_cases h2 : a' = a
      · rw [if_pos h2, if_pos (by omega), h2]; simp
      · rw [if_neg h2, if_neg (by omega)]

/-- Everything a write of several bytes can do (R11, R69): all bytes are stored, or those before the first address
outside the user region are. -/
theorem writeBytes_eq (bs : List Byte) (a : Nat) (s : State) :
    writeBytes bs a s =
      if bs = [] ∨ (0x200 ≤ a ∧ a + bs.length ≤ 0x1000) then .done { s with mem := storeImage bs a s.mem }
      else if a < 0x200 then .outOfRange s a
      else .outOfRange { s with mem := storeImage (bs.take (0x1000 - a)) a s.mem } (max a 0x1000) := by
  induction bs generalizing a s with
  | nil => simp [writeBytes, storeImage]
  | cons b bs ih =>
    simp only [writeBytes, memWrite_eq, List.length_cons]
    by_cases hu : 0x200 ≤ a ∧ a < 0x1000
    · rw [if_pos hu]
      simp only [ih]
      by_cases h : bs = [] ∨ (0x200 ≤ a + 1 ∧ a + 1 + bs.length ≤ 0x1000)
      · rw [if_pos h, if_pos]
        · rfl
        · rcases h with h | h
          · subst h; simp; omega
          · right; omega
      · have hn : ¬ (b :: bs = [] ∨ (0x200 ≤ a ∧ a + (bs.length + 1) ≤ 0x1000)) := by
          simp only [not_or] at h ⊢; simp; omega
        rw [if_neg h, if_neg hn, if_neg (by omega), if_neg (by omega)]
        have e : 0x1000 - a = (0x1000 - (a + 1)) + 1 := by omega
        have m : max (a + 1) 0x1000 = max a 0x1000 := by omega
        rw [e, List.take_succ_cons, m]
        rfl
    · have hn : ¬ (b :: bs = [] ∨ (0x200 ≤ a ∧ a + (bs.length + 1) ≤ 0x1000)) := by simp; omega
      rw [if_neg hu, if_neg hn]
      show Transfer.outOfRange s a = _
      split
      · rfl
      · have e : 0x1000 - a = 0 := by omega
        have m : max a 0x1000 = a := by omega
        rw [e, m]; rfl

/-- A write of several bytes changes the RAM alone and keeps its canonical form, whether it ends or fails. -/
theorem writeBytes_cases (bs : List Byte) (a : Nat) (s : State) :
    ∃ m, (memWf s.mem = true → memWf m = true) ∧
      (writeBytes bs a s = .done { s with mem := m } ∨ ∃ addr, writeBytes bs a s = .outOfRange { s with mem := m } addr) := by
  rw [writeBytes_eq]
  split
  · next h =>
    refine ⟨_, fun hw => ?_, Or.inl rfl⟩
    rcases h with rfl | h
    · exact hw
    · exact storeImage_wf _ _ _ hw h.1 h.2
  · split
    · exact ⟨s.mem, id, Or.inr ⟨_, rfl⟩⟩
    · refine ⟨_, fun hw => ?_, Or.inr ⟨_, rfl⟩⟩
      by_cases h : 0x1000 ≤ a
      · rw [show 0x1000 - a = 0 by omega]; exact hw
      · exact storeImage_wf _ _ _ hw (by omega) (by rw [List.length_take]; omega)

/-- Everything the load of n registers can do (R269): V[k .. k + n − 1] from a, or those before the first address
outside the space. -/
theorem loadRegs_eq (n k a : Nat) (s : State) :
    ∃ v : Vector Byte 16,
      (∀ r : Reg, v[r] = if k ≤ r.val ∧ r.val < k + min n (0x1000 - a) then byteAt s (a + (r.val - k)) else s.v[r]) ∧
      loadRegs n k a s =
        if a + n ≤ 0x1000 ∨ n = 0 then .done { s with v := v } else .outOfRange { s with v := v } (max a 0x1000) := by
  induction n generalizing k a s with
  | zero => exact ⟨s.v, fun r => by rw [if_neg (by omega)], by simp [loadRegs]⟩
  | succ n ih =>
    unfold loadRegs memRead
    by_cases ha : a < 0x1000
    · rw [if_pos ha]
      obtain ⟨v, hv, he⟩ := ih (k + 1) (a + 1) { s with v := s.v.setIfInBounds k (byteAt s a) }
      refine ⟨v, fun r => ?_, ?_⟩
      · rw [hv r]
        have hb : ∀ x, byteAt { s with v := s.v.setIfInBounds k (byteAt s a) } x = byteAt s x := fun x => rfl
        simp only [hb]
        have hr := r.isLt
        by_cases h1 : k + 1 ≤ r.val ∧ r.val < k + 1 + min n (0x1000 - (a + 1))
        · rw [if_pos h1, if_pos (by omega)]; congr 1; omega
        · rw [if_neg h1]
          simp only [Fin.getElem_fin, Vector.getElem_setIfInBounds]
          by_cases h2 : k = r.val
          · rw [if_pos h2, if_pos (by omega)]; congr 1; omega
          · rw [if_neg h2, if_neg (by omega)]
      · simp only [he]
        by_cases h : a + (n + 1) ≤ 0x1000
        · rw [if_pos (by omega), if_pos (by omega)]
        · have m : max (a + 1) 0x1000 = max a 0x1000 := by omega
          rw [if_neg (by omega), if_neg (by omega), m]
    · refine ⟨s.v, fun r => by rw [if_neg (by omega)], ?_⟩
      rw [if_neg ha, if_neg (by omega)]
      have m : max a 0x1000 = a := by omega
      rw [m]

/-! ### The RPL flags -/

/-- The flags after a copy of V0.. to them (R270). -/
theorem copyToRpl_get (n : Nat) (s : State) (j : Fin 8) (hn : n ≤ 8) :
    (copyToRpl n s).rpl[j] = if j.val < n then s.v[j.val] else s.rpl[j] := by
  induction n with
  | zero => simp [copyToRpl]
  | succ n ih =>
    have := ih (by omega)
    simp only [Fin.getElem_fin] at this
    simp only [copyToRpl, Fin.getElem_fin, Vector.getElem_setIfInBounds, this]
    by_cases h : n = j.val
    · subst h
      have : j.val < 16 := by omega
      simp [this]
    · rw [if_neg h]
      by_cases h' : j.val < n
      · rw [if_pos h', if_pos (by omega)]
      · rw [if_neg h', if_neg (by omega)]

/-- The registers after a copy of the flags to V0.. (R271). -/
theorem copyFromRpl_get (n : Nat) (s : State) (r : Reg) (hn : n ≤ 8) :
    (copyFromRpl n s).v[r] = if h : r.val < n then s.rpl[r.val] else s.v[r] := by
  induction n with
  | zero => simp [copyFromRpl]
  | succ n ih =>
    have := ih (by omega)
    simp only [Fin.getElem_fin] at this
    simp only [copyFromRpl, Fin.getElem_fin, Vector.getElem_setIfInBounds, this]
    by_cases h : n = r.val
    · subst h
      have : r.val < 8 := by omega
      simp [this]
    · rw [if_neg h]
      by_cases h' : r.val < n
      · rw [dif_pos h', dif_pos (by omega)]
      · rw [dif_neg h', dif_neg (by omega)]

/-! ### The stack -/

/-- Everything a push can do at a stack pointer of the machine that is not full (R72). -/
theorem push_eq (w : Word) (s : State) (h : s.sp ≠ spTop) (hl : 0x200 ≤ s.sp.toNat) (hh : s.sp.toNat + 2 ≤ 0x1000) :
    push w s =
      .pushed { s with mem := storeImage [highByte w, lowByte w] s.sp.toNat s.mem, sp := s.sp + 2 } := by
  simp only [push, if_neg h, writeWord, writeBytes_eq]
  rw [if_pos (Or.inr ⟨hl, by simpa using hh⟩)]

/-- A push on a full stack (R72). -/
theorem push_full (w : Word) (s : State) (h : s.sp = spTop) : push w s = .failed .stackOverflow none s := by
  simp [push, h]

/-- Everything a push can do, at any SP: it fails on a full stack, or it changes the RAM alone, and SP where it ends. -/
theorem push_cases (w : Word) (s : State) :
    (s.sp = spTop ∧ push w s = .failed .stackOverflow none s) ∨
      ∃ m, (memWf s.mem = true → memWf m = true) ∧
        ((s.sp ≠ spTop ∧ push w s = .pushed { s with mem := m, sp := s.sp + 2 }) ∨
          ∃ addr, push w s = .failed .addressOutOfRange addr { s with mem := m }) := by
  by_cases h : s.sp = spTop
  · exact Or.inl ⟨h, push_full w s h⟩
  · right
    obtain ⟨m, hm, e | ⟨addr, e⟩⟩ := writeBytes_cases [highByte w, lowByte w] s.sp.toNat s
    · exact ⟨m, hm, Or.inl ⟨h, by simp only [push, if_neg h, writeWord, e]⟩⟩
    · exact ⟨m, hm, Or.inr ⟨some addr, by simp only [push, if_neg h, writeWord, e]⟩⟩

/-- Everything a pop can do at a stack pointer of the machine that is not empty (R73). -/
theorem pop_eq (s : State) (h : s.sp ≠ spBase) (hh : (s.sp - 2).toNat + 1 < 0x1000) :
    pop s =
      if 0x0FFF < (joinBytes (byteAt s (s.sp - 2).toNat) (byteAt s ((s.sp - 2).toNat + 1))).toNat then
        .failed .invalidStackAddress none { s with sp := s.sp - 2 }
      else .popped (joinBytes (byteAt s (s.sp - 2).toNat) (byteAt s ((s.sp - 2).toNat + 1))) { s with sp := s.sp - 2 } := by
  simp only [pop, if_neg h, readWord_eq, if_pos hh]
  rfl

/-- A pop of an empty stack (R73). -/
theorem pop_empty (s : State) (h : s.sp = spBase) : pop s = .failed .stackUnderflow none s := by
  simp [pop, h]

/-- Everything a pop can do, at any SP: it fails on an empty stack, or it takes 2 from SP and changes nothing else; the
value it returns is at most 0xFFF. -/
theorem pop_cases (s : State) :
    (s.sp = spBase ∧ pop s = .failed .stackUnderflow none s) ∨
      (s.sp ≠ spBase ∧ ((∃ kind addr, pop s = .failed kind addr { s with sp := s.sp - 2 }) ∨
        ∃ w, w.toNat ≤ 0x0FFF ∧ pop s = .popped w { s with sp := s.sp - 2 })) := by
  by_cases h : s.sp = spBase
  · exact Or.inl ⟨h, pop_empty s h⟩
  · refine Or.inr ⟨h, ?_⟩
    simp only [pop, if_neg h]
    cases readWord { s with sp := s.sp - 2 } (s.sp - 2).toNat with
    | outOfRange addr => exact Or.inl ⟨_, _, rfl⟩
    | word w =>
      by_cases hw : 0x0FFF < w.toNat
      · exact Or.inl ⟨_, _, if_pos hw⟩
      · exact Or.inr ⟨w, by omega, if_neg hw⟩

/-- The two bytes of a word, joined, are the word (R67). -/
@[simp] theorem joinBytes_highByte_lowByte (w : Word) : joinBytes (highByte w) (lowByte w) = w := by
  unfold joinBytes highByte lowByte
  apply BitVec.eq_of_getLsbD_eq
  intro i hi
  simp only [BitVec.getLsbD_append, BitVec.getLsbD_extractLsb']
  by_cases h : i < 8
  · simp [h]
  · have : i - 8 < 8 := by omega
    have e : 8 + (i - 8) = i := by omega
    simp [h, this, e]

end Sys2Proof.Machine
end

