-- ==== Sys2Proof/Laws/Cycle.lean ====
section
/-! SUPPORT. What a step can do, said once: the agent that moves, the parts of a cycle, the ends of a fetch; and the lowest
pressed key. Every invariant is derived from these. -/

namespace Sys2Proof.Machine

/-! ### Keys -/

theorem isPressed_ge (k : Nat) (s : State) (h : 16 ≤ k) : isPressed k s = false := by
  have : ¬ k < 16 := by omega
  simp [isPressed, this]

theorem lowestPressedFrom_eq_some (n b k : Nat) (s : State) :
    lowestPressedFrom n b s = some k ↔
      b ≤ k ∧ k < b + n ∧ isPressed k s = true ∧ ∀ j, b ≤ j → j < k → isPressed j s = false := by
  induction n generalizing b with
  | zero => simp only [lowestPressedFrom, reduceCtorEq, false_iff]; omega
  | succ n ih =>
    unfold lowestPressedFrom
    by_cases hb : isPressed b s = true
    · rw [if_pos hb]
      constructor
      · intro h; cases h; exact ⟨Nat.le_refl _, by omega, hb, fun j h1 h2 => by omega⟩
      · rintro ⟨h1, -, -, h4⟩
        by_cases e : b = k
        · rw [e]
        · have := h4 b (Nat.le_refl _) (by omega); rw [this] at hb; cases hb
    · rw [if_neg hb, ih]
      simp only [Bool.not_eq_true] at hb
      constructor
      · rintro ⟨h1, h2, h3, h4⟩
        refine ⟨by omega, by omega, h3, fun j hj hk => ?_⟩
        by_cases e : j = b
        · rw [e]; exact hb
        · exact h4 j (by omega) hk
      · rintro ⟨h1, h2, h3, h4⟩
        have : b ≠ k := fun e => by subst e; rw [hb] at h3; cases h3
        exact ⟨by omega, by omega, h3, fun j hj hk => h4 j (by omega) hk⟩

/-- The poll takes the lowest pressed key (R240). -/
theorem lowestPressed_eq_some (k : Nat) (s : State) :
    lowestPressed s = some k ↔ k < 16 ∧ isPressed k s = true ∧ ∀ j, j < k → isPressed j s = false := by
  unfold lowestPressed
  rw [lowestPressedFrom_eq_some]
  constructor
  · rintro ⟨-, h2, h3, h4⟩; exact ⟨by omega, h3, fun j hj => h4 j (by omega) hj⟩
  · rintro ⟨h2, h3, h4⟩; exact ⟨by omega, by omega, h3, fun j _ hj => h4 j hj⟩

/-- The poll takes no key where none is pressed (R240). -/
theorem lowestPressed_eq_none (s : State) : lowestPressed s = none ↔ ∀ k, isPressed k s = false := by
  have H : ∀ n b, lowestPressedFrom n b s = none ↔ ∀ k, b ≤ k → k < b + n → isPressed k s = false := by
    intro n
    induction n with
    | zero => intro b; simp only [lowestPressedFrom, true_iff]; intro k h1 h2; omega
    | succ n ih =>
      intro b
      unfold lowestPressedFrom
      by_cases hb : isPressed b s = true
      · rw [if_pos hb]
        simp only [reduceCtorEq, false_iff]
        intro h
        rw [h b (Nat.le_refl _) (by omega)] at hb; cases hb
      · rw [if_neg hb, ih]
        simp only [Bool.not_eq_true] at hb
        constructor
        · intro h k h1 h2
          by_cases e : k = b
          · rw [e]; exact hb
          · exact h k (by omega) (by omega)
        · intro h k h1 h2; exact h k (by omega) (by omega)
  unfold lowestPressed
  rw [H]
  constructor
  · intro h k
    by_cases hk : k < 16
    · exact h k (by omega) (by omega)
    · exact isPressed_ge k s (by omega)
  · intro h k _ _; exact h k

/-! ### The timers -/

/-- The timer step changes DT, ST and the draw index alone. -/
theorem timerStep_eq (tick : Bool) (s : State) :
    timerStep tick s =
      if s.runState = .stopped then s
      else { s with
        dt := if tick then countDown s.dt else s.dt
        st := if tick then countDown s.st else s.st
        ticks := s.ticks + 1 } := by
  unfold timerStep
  cases s.runState <;> rfl

/-- A timer counts down to 0 and stays there (R297). -/
theorem countDown_toNat (t : Byte) : (countDown t).toNat = t.toNat - 1 := by
  unfold countDown
  split
  · next h => subst h; rfl
  · next h =>
    have : t.toNat ≠ 0 := fun e => h (BitVec.eq_of_toNat_eq (by simpa using e))
    rw [BitVec.toNat_sub]
    have := t.isLt
    simp; omega

/-! ### A step -/

/-- A scheduled move comes next, and it is taken off the schedule. -/
theorem pendingMove_cons {s : State} {m : Move} {rest : List Move} (h : s.schedule = m :: rest) :
    pendingMove s = m ∧ takeMove s = { s with schedule := rest } := by
  simp [pendingMove, takeMove, h]

/-- With no scheduled move a free one comes next, and its draw is used up (R306). -/
theorem pendingMove_nil {s : State} (h : s.schedule = []) :
    pendingMove s = Config.freeMove s.moves ∧ takeMove s = { s with moves := s.moves + 1 } := by
  refine ⟨by simp [pendingMove, h], ?_⟩
  simp only [takeMove, h, List.tail_nil, List.isEmpty_nil, if_true]

/-- The next move is the first of those to come. -/
theorem upcomingMove_zero (s : State) : Safety.upcomingMove s 0 = pendingMove s := by
  unfold Safety.upcomingMove pendingMove
  cases s.schedule <;> simp

/-- Once a move is taken, the moves to come are those after it. -/
theorem upcomingMove_takeMove (s : State) (j : Nat) :
    Safety.upcomingMove (takeMove s) j = Safety.upcomingMove s (j + 1) := by
  unfold Safety.upcomingMove
  cases h : s.schedule with
  | nil => simp [h]; congr 1; omega
  | cons m rest => simp [h]

/-- When the Interpreter moves next, the step is its cycle. -/
theorem step_of_interpreter {s : State} (h : pendingMove s = .interpreter) :
    step s = cycle (Config.freeTick s.ticks) (takeMove s) := by
  unfold step nextMove; rw [h]; rfl

/-- When the environment moves next, the step is its operation. -/
theorem step_of_environment {s : State} (h : pendingMove s ≠ .interpreter) :
    step s = .next (environmentMove (pendingMove s) (takeMove s)) := by
  unfold step nextMove makeMove
  split
  · contradiction
  · rfl

/-- Everything a step can do: an operation of the environment, or a cycle (R305). -/
theorem step_next {s t : State} (h : step s = .next t) :
    (pendingMove s ≠ .interpreter ∧ t = environmentMove (pendingMove s) (takeMove s)) ∨
      (pendingMove s = .interpreter ∧ cycle (Config.freeTick s.ticks) (takeMove s) = .next t) := by
  by_cases hm : pendingMove s = .interpreter
  · exact Or.inr ⟨hm, step_of_interpreter hm ▸ h⟩
  · rw [step_of_environment hm] at h
    injection h with h; exact Or.inl ⟨hm, h.symm⟩

/-- Everything a cycle can do (R100, R293, R295). -/
theorem cycle_next {tick : Bool} {s t : State} (h : cycle tick s = .next t) :
    ((s.runState = .ready ∨ s.runState = .stopped) ∧ t = s) ∨
      ((s.runState = .running ∨ s.runState = .halted) ∧ s.stopRequested = true ∧ t = { s with runState := .stopped }) ∨
      (s.runState = .running ∧ s.stopRequested = false ∧ ∃ u, runInstruction s = .next u ∧ t = timerStep tick u) ∨
      (s.runState = .halted ∧ s.stopRequested = false ∧ t = timerStep tick (haltedPoll s)) := by
  unfold cycle at h
  split at h
  · next e => injection h with h; exact Or.inl ⟨Or.inl e, h.symm⟩
  · next e => injection h with h; exact Or.inl ⟨Or.inr e, h.symm⟩
  · next e =>
    split at h
    · next hs => injection h with h; exact Or.inr (Or.inl ⟨Or.inl e, hs, h.symm⟩)
    · next hs =>
      unfold thenTimers at h
      split at h
      · next u hu =>
        injection h with h
        exact Or.inr (Or.inr (Or.inl ⟨e, by simpa using hs, u, hu, h.symm⟩))
      · cases h
      · cases h
  · next e =>
    split at h
    · next hs => injection h with h; exact Or.inr (Or.inl ⟨Or.inr e, hs, h.symm⟩)
    · next hs => injection h with h; exact Or.inr (Or.inr (Or.inr ⟨e, by simpa using hs, h.symm⟩))

/-- Everything a fetch can do (R100, R101). -/
theorem fetch_eq (s : State) :
    fetch s =
      if s.pc.toNat + 1 < 0x1000 then .word (joinBytes (byteAt s s.pc.toNat) (byteAt s (s.pc.toNat + 1)))
      else .outOfRange (if s.pc.toNat < 0x1000 then s.pc.toNat + 1 else s.pc.toNat) :=
  readWord_eq s s.pc.toNat

/-- A successful fetch runs what the word decodes to, on the state with PC advanced (R100, R102). -/
theorem runInstruction_of_fetch {s : State} {op : Word} (h : fetch s = .word op) :
    runInstruction s = execDecoded (decode op) (advance s) := by
  unfold runInstruction; rw [h]

/-- A failed fetch is a fatal stop (R101). -/
theorem runInstruction_of_fault {s : State} {addr : Nat} (h : fetch s = .outOfRange addr) :
    runInstruction s =
      .next (fatalStop { kind := .addressOutOfRange, pc0 := s.pc, opcode := none, addr := some addr } s) := by
  unfold runInstruction; rw [h]

/-- Everything the halted poll can do (R253). -/
theorem haltedPoll_eq (s : State) :
    haltedPoll s =
      match lowestPressed s with
      | none => s
      | some k => { setV s.waitReg (BitVec.ofNat 8 k) (setKey k false s) with runState := .running } := rfl

/-- A run of n + 1 steps is a step and a run of n. -/
theorem core_run_succ (n : Nat) {s t : State} (h : step s = .next t) :
    Host.Core.run Sys2Proof.core (n + 1) s = Host.Core.run Sys2Proof.core n t := by
  have h : Sys2Proof.core.step s = .next t := h
  simp only [Host.Core.run, h]

end Sys2Proof.Machine
end

