-- ==== Sys2Proof/Laws/Decode.lean ====
section
/-! SUPPORT. The bits and the fields of an encoded word, one lemma per format and field (R92, R93), and the word that the
fields of a word make up. -/

namespace Sys2Proof

/-! ### Bits of the three layouts (R93) -/

theorem wordXkk_bit (o : Nibble) (x : Reg) (kk : Byte) (i : Nat) :
    (wordXkk o x kk).getLsbD i =
      if i < 8 then kk.getLsbD i
      else if i - 8 < 4 then (BitVec.ofFin x : Nibble).getLsbD (i - 8) else o.getLsbD (i - 8 - 4) := by
  refine (BitVec.getLsbD_append (x := o ++ (BitVec.ofFin x : Nibble)) (y := kk)).trans ?_
  rw [BitVec.getLsbD_append]

theorem wordXyn_bit (o : Nibble) (x y : Reg) (n : Nibble) (i : Nat) :
    (wordXyn o x y n).getLsbD i =
      if i < 4 then n.getLsbD i
      else if i - 4 < 4 then (BitVec.ofFin y : Nibble).getLsbD (i - 4)
      else if i - 4 - 4 < 4 then (BitVec.ofFin x : Nibble).getLsbD (i - 4 - 4) else o.getLsbD (i - 4 - 4 - 4) := by
  refine (BitVec.getLsbD_append (x := o ++ (BitVec.ofFin x : Nibble) ++ (BitVec.ofFin y : Nibble)) (y := n)).trans ?_
  rw [BitVec.getLsbD_append, BitVec.getLsbD_append]

theorem wordNnn_bit (o : Nibble) (nnn : Addr) (i : Nat) :
    (wordNnn o nnn).getLsbD i = if i < 12 then nnn.getLsbD i else o.getLsbD (i - 12) :=
  BitVec.getLsbD_append (x := o) (y := nnn)

/-! ### Fields of an encoded word -/

theorem wordXkk_o (o : Nibble) (x : Reg) (kk : Byte) : fieldO (wordXkk o x kk) = o := by
  apply BitVec.eq_of_getLsbD_eq
  intro i hi
  rw [fieldO, BitVec.getLsbD_extractLsb', wordXkk_bit, if_neg (by omega), if_neg (by omega)]
  simp only [hi, decide_true, Bool.true_and]
  congr 1; omega

theorem wordXkk_x (o : Nibble) (x : Reg) (kk : Byte) : fieldX (wordXkk o x kk) = x := by
  have h : (wordXkk o x kk).extractLsb' 8 4 = BitVec.ofFin x := by
    apply BitVec.eq_of_getLsbD_eq
    intro i hi
    rw [BitVec.getLsbD_extractLsb', wordXkk_bit, if_neg (by omega), if_pos (by omega)]
    simp only [hi, decide_true, Bool.true_and]
    congr 1; omega
  rw [fieldX, h]

theorem wordXkk_kk (o : Nibble) (x : Reg) (kk : Byte) : fieldKk (wordXkk o x kk) = kk := by
  apply BitVec.eq_of_getLsbD_eq
  intro i hi
  rw [fieldKk, BitVec.getLsbD_extractLsb', wordXkk_bit, if_pos (by omega)]
  simp only [hi, decide_true, Bool.true_and]
  congr 1; omega

theorem wordXyn_o (o : Nibble) (x y : Reg) (n : Nibble) : fieldO (wordXyn o x y n) = o := by
  apply BitVec.eq_of_getLsbD_eq
  intro i hi
  rw [fieldO, BitVec.getLsbD_extractLsb', wordXyn_bit, if_neg (by omega), if_neg (by omega), if_neg (by omega)]
  simp only [hi, decide_true, Bool.true_and]
  congr 1; omega

theorem wordXyn_x (o : Nibble) (x y : Reg) (n : Nibble) : fieldX (wordXyn o x y n) = x := by
  have h : (wordXyn o x y n).extractLsb' 8 4 = BitVec.ofFin x := by
    apply BitVec.eq_of_getLsbD_eq
    intro i hi
    rw [BitVec.getLsbD_extractLsb', wordXyn_bit, if_neg (by omega), if_neg (by omega), if_pos (by omega)]
    simp only [hi, decide_true, Bool.true_and]
    congr 1; omega
  rw [fieldX, h]

theorem wordXyn_y (o : Nibble) (x y : Reg) (n : Nibble) : fieldY (wordXyn o x y n) = y := by
  have h : (wordXyn o x y n).extractLsb' 4 4 = BitVec.ofFin y := by
    apply BitVec.eq_of_getLsbD_eq
    intro i hi
    rw [BitVec.getLsbD_extractLsb', wordXyn_bit, if_neg (by omega), if_pos (by omega)]
    simp only [hi, decide_true, Bool.true_and]
    congr 1; omega
  rw [fieldY, h]

theorem wordXyn_n (o : Nibble) (x y : Reg) (n : Nibble) : fieldN (wordXyn o x y n) = n := by
  apply BitVec.eq_of_getLsbD_eq
  intro i hi
  rw [fieldN, BitVec.getLsbD_extractLsb', wordXyn_bit, if_pos (by omega)]
  simp only [hi, decide_true, Bool.true_and]
  congr 1; omega

theorem wordNnn_o (o : Nibble) (nnn : Addr) : fieldO (wordNnn o nnn) = o := by
  apply BitVec.eq_of_getLsbD_eq
  intro i hi
  rw [fieldO, BitVec.getLsbD_extractLsb', wordNnn_bit, if_neg (by omega)]
  simp only [hi, decide_true, Bool.true_and]
  congr 1; omega

theorem wordNnn_nnn (o : Nibble) (nnn : Addr) : fieldNnn (wordNnn o nnn) = nnn := by
  apply BitVec.eq_of_getLsbD_eq
  intro i hi
  rw [fieldNnn, BitVec.getLsbD_extractLsb', wordNnn_bit, if_pos (by omega)]
  simp only [hi, decide_true, Bool.true_and]
  congr 1; omega

/-! ### A word is its fields -/

theorem wordXkk_fields (op : Word) : wordXkk (fieldO op) (fieldX op) (fieldKk op) = op := by
  apply BitVec.eq_of_getLsbD_eq
  intro i hi
  rw [wordXkk_bit]
  simp only [fieldO, fieldX, fieldKk, BitVec.ofFin_toFin, BitVec.getLsbD_extractLsb']
  split
  · next h => simp [h]
  · split
    · next h => rw [show 8 + (i - 8) = i by omega]; simp [h]
    · rw [show 12 + (i - 8 - 4) = i by omega]; simp; omega

theorem wordXyn_fields (op : Word) : wordXyn (fieldO op) (fieldX op) (fieldY op) (fieldN op) = op := by
  apply BitVec.eq_of_getLsbD_eq
  intro i hi
  rw [wordXyn_bit]
  simp only [fieldO, fieldX, fieldY, fieldN, BitVec.ofFin_toFin, BitVec.getLsbD_extractLsb']
  split
  · next h => simp [h]
  · split
    · next h => rw [show 4 + (i - 4) = i by omega]; simp [h]
    · split
      · next h => rw [show 8 + (i - 4 - 4) = i by omega]; simp [h]
      · rw [show 12 + (i - 4 - 4 - 4) = i by omega]; simp; omega

theorem wordNnn_fields (op : Word) : wordNnn (fieldO op) (fieldNnn op) = op := by
  apply BitVec.eq_of_getLsbD_eq
  intro i hi
  rw [wordNnn_bit]
  simp only [fieldO, fieldNnn, BitVec.getLsbD_extractLsb']
  split
  · next h => simp [h]
  · rw [show 12 + (i - 12) = i by omega]; simp; omega

/-- The byte kk is the nibbles y and n (R92). -/
theorem fieldKk_eq (op : Word) : fieldKk op = (BitVec.ofFin (fieldY op) : Nibble) ++ fieldN op := by
  apply BitVec.eq_of_getLsbD_eq
  intro i hi
  refine Eq.trans ?_ (BitVec.getLsbD_append (x := (BitVec.ofFin (fieldY op) : Nibble)) (y := fieldN op)).symm
  simp only [fieldKk, fieldY, fieldN, BitVec.ofFin_toFin, BitVec.getLsbD_extractLsb']
  split
  · next h => simp [h, hi]
  · rw [show 4 + (i - 4) = i by omega]; simp [hi]; omega

end Sys2Proof
end

