-- ==== Sys2Proof/Laws/Framebuffer.lean ====
section
/-! SUPPORT. The framebuffer, cell by cell: one lemma per primitive that says what each cell holds after it, and the cells
that a sprite draw flips: all in the grid, none twice, and which they are. -/

namespace Sys2Proof.Machine

/-! ### Cells of a grid -/

theorem rowAt_ofFn (f : Fin 64 → BitVec 128) (r : Nat) :
    rowAt (Vector.ofFn f) r = if h : r < 64 then f ⟨r, h⟩ else 0 := by
  unfold rowAt
  by_cases h : r < 64 <;> simp [h]

theorem rowAt_outside (g : Grid) (r : Nat) (h : ¬ r < 64) : rowAt g r = 0 := by
  unfold rowAt
  simp [h]

theorem cellAt_outside (g : Grid) (r c : Nat) (h : ¬ (r < 64 ∧ c < 128)) : cellAt g r c = false := by
  unfold cellAt
  by_cases hr : r < 64
  · exact BitVec.getLsbD_of_ge _ _ (by omega)
  · rw [rowAt_outside g r hr]; simp

/-- After clear no cell is lit (R121). -/
theorem cellAt_clearGrid (r c : Nat) : cellAt clearGrid r c = false := by
  unfold cellAt rowAt clearGrid
  by_cases h : r < 64 <;> simp [h]

/-- The cells after a scroll down by d rows (R122). -/
theorem cellAt_scrollDown (d : Nat) (g : Grid) (r c : Nat) (hr : r < 64) :
    cellAt (scrollDown d g) r c = if d ≤ r then cellAt g (r - d) c else false := by
  unfold cellAt scrollDown
  rw [rowAt_ofFn, dif_pos hr]
  split <;> simp

/-- The cells after a scroll right by d columns (R123). -/
theorem cellAt_scrollRight (d : Nat) (g : Grid) (r c : Nat) (hr : r < 64) (hc : c < 128) :
    cellAt (scrollRight d g) r c = if d ≤ c then cellAt g r (c - d) else false := by
  unfold cellAt scrollRight
  rw [rowAt_ofFn, dif_pos hr, BitVec.getLsbD_shiftLeft]
  by_cases h : d ≤ c
  · have : ¬ c < d := by omega
    simp [hc, h, this]
  · have : c < d := by omega
    simp [h, this]

/-- The cells after a scroll left by d columns (R124). -/
theorem cellAt_scrollLeft (d : Nat) (g : Grid) (r c : Nat) (hr : r < 64) :
    cellAt (scrollLeft d g) r c = if c + d ≤ 127 then cellAt g r (c + d) else false := by
  unfold cellAt scrollLeft
  rw [rowAt_ofFn, dif_pos hr, BitVec.getLsbD_ushiftRight, Nat.add_comm d c]
  split
  · rfl
  · exact BitVec.getLsbD_of_ge _ _ (by omega)

/-- Two grids with the same cells are the same grid. -/
theorem grid_ext (g h : Grid) (e : ∀ r c, r < 64 → c < 128 → cellAt g r c = cellAt h r c) : g = h := by
  apply Vector.ext
  intro r hr
  apply BitVec.eq_of_getLsbD_eq
  intro c hc
  have := e r c hr hc
  simpa [cellAt, rowAt, hr] using this

/-! ### Flips -/

/-- A flip of a cell of the grid changes that cell alone. -/
theorem cellAt_flipCell (g : Grid) (r c r' c' : Nat) (hr : r < 64) (hc : c < 128) :
    cellAt (flipCell g r c) r' c' = if (r, c) = (r', c') then !cellAt g r' c' else cellAt g r' c' := by
  unfold cellAt flipCell
  by_cases e : r = r'
  · subst e
    have : rowAt (g.setIfInBounds r (rowAt g r ^^^ (1#128 <<< c))) r = rowAt g r ^^^ (1#128 <<< c) := by
      unfold rowAt; simp [hr]
    rw [this, BitVec.getLsbD_xor, BitVec.getLsbD_shiftLeft]
    by_cases e' : c = c'
    · subst e'; simp [hc]
    · have h1 : ¬ (r, c) = (r, c') := fun h => e' (by simpa using h)
      rw [if_neg h1]
      by_cases hlt : c' < c
      · simp [hlt]
      · have : (1#128).getLsbD (c' - c) = false := by
          rw [BitVec.getLsbD_one]; simp; omega
        simp [this]
  · have h1 : ¬ (r, c) = (r', c') := fun h => e (by simpa using (Prod.mk.inj h).1)
    have : rowAt (g.setIfInBounds r (rowAt g r ^^^ (1#128 <<< c))) r' = rowAt g r' := by
      unfold rowAt
      by_cases hr' : r' < 64
      · simp [hr', e]
      · simp [hr']
    rw [this, if_neg h1]

/-- Everything that flipping a list of distinct cells of the grid does: each of them is inverted, no other cell changes,
and the collision is whether one of them was lit (R221, R222). -/
theorem flipCells_spec (l : List (Nat × Nat)) (g : Grid) (hit : Bool) (hr : ∀ p ∈ l, p.1 < 64 ∧ p.2 < 128) (hn : l.Nodup) :
    (∀ r c, cellAt (flipCells l g hit).1 r c = if (r, c) ∈ l then !cellAt g r c else cellAt g r c) ∧
      (flipCells l g hit).2 = (hit || l.any fun p => cellAt g p.1 p.2) := by
  induction l generalizing g hit with
  | nil => simp [flipCells]
  | cons p l ih =>
    obtain ⟨pr, pc⟩ := p
    obtain ⟨hp, hl⟩ := List.forall_mem_cons.1 hr
    obtain ⟨hnp, hnl⟩ := List.nodup_cons.1 hn
    obtain ⟨ih1, ih2⟩ := ih (flipCell g pr pc) (hit || cellAt g pr pc) hl hnl
    have hf := cellAt_flipCell g pr pc
    constructor
    · intro r c
      rw [flipCells, ih1, hf r c hp.1 hp.2]
      by_cases e : (pr, pc) = (r, c)
      · have : (r, c) ∉ l := e ▸ hnp
        simp [e, this]
      · have e' : ¬ (r, c) = (pr, pc) := fun h => e h.symm
        simp [e, List.mem_cons, e']
    · rw [flipCells, ih2, List.any_cons, Bool.or_assoc]
      congr 2
      rw [Bool.eq_iff_iff, List.any_eq_true, List.any_eq_true]
      refine exists_congr fun q => and_congr_right fun hq => ?_
      rw [hf q.1 q.2 hp.1 hp.2, if_neg]
      intro e
      exact hnp (by rw [e]; exact hq)

/-! ### The cells a draw flips -/

/-- The cells of a logical pixel (R42). -/
theorem mem_pixelCells (ext : Bool) (lx ly r c : Nat) :
    (r, c) ∈ pixelCells (pixelScale ext) lx ly ↔ r / pixelScale ext = ly ∧ c / pixelScale ext = lx := by
  unfold pixelCells
  simp only [List.mem_flatMap, List.mem_map, List.mem_range, Prod.mk.injEq]
  cases ext
  · simp only [pixelScale, Bool.false_eq_true, if_false]
    constructor
    · rintro ⟨dy, hy, dx, hx, h1, h2⟩; omega
    · rintro ⟨h1, h2⟩; exact ⟨r % 2, by omega, c % 2, by omega, by omega, by omega⟩
  · simp only [pixelScale, if_true]
    constructor
    · rintro ⟨dy, hy, dx, hx, h1, h2⟩; simp; omega
    · rintro ⟨h1, h2⟩; exact ⟨0, by omega, 0, by omega, by simp at h1; omega, by simp at h2; omega⟩

/-- A logical pixel lists each of its cells once. -/
theorem pixelCells_nodup (ext : Bool) (lx ly : Nat) : (pixelCells (pixelScale ext) lx ly).Nodup := by
  cases ext
  · simp [pixelCells, pixelScale, List.range_succ]
  · simp [pixelCells, pixelScale]

/-- Where a position falls on an axis: at itself, or one length lower where it wraps (R220). -/
theorem placeOnAxis_eq_some (clip : Bool) (len p q : Nat) (hp : p < len + len) :
    placeOnAxis clip len p = some q ↔ q < len ∧ (p = q ∨ (clip = false ∧ p = q + len)) := by
  unfold placeOnAxis
  by_cases h : p < len
  · rw [if_pos h]; simp only [Option.some.injEq]
    constructor
    · intro e; exact ⟨by omega, Or.inl e⟩
    · rintro ⟨h1, h2 | ⟨_, h2⟩⟩ <;> omega
  · rw [if_neg h]
    cases clip
    · simp only [Bool.false_eq_true, if_false, Option.some.injEq, true_and]; omega
    · simp only [if_true, reduceCtorEq, false_iff, Bool.true_eq_false, false_and, or_false]; omega

/-- The cells of one sprite pixel (R220, R221). -/
theorem mem_spritePixel (ext : Bool) (edge : SpriteEdge) (px py r c : Nat) :
    (r, c) ∈ spritePixel ext edge px py ↔
      placeOnAxis (colsClip edge) (logicalWidth ext) px = some (c / pixelScale ext) ∧
        placeOnAxis (rowsClip edge) (logicalHeight ext) py = some (r / pixelScale ext) := by
  unfold spritePixel
  cases placeOnAxis (colsClip edge) (logicalWidth ext) px <;>
    cases placeOnAxis (rowsClip edge) (logicalHeight ext) py <;> simp [mem_pixelCells]
  constructor
  · rintro ⟨h1, h2⟩; exact ⟨h2.symm, h1.symm⟩
  · rintro ⟨h1, h2⟩; exact ⟨h2.symm, h1.symm⟩

theorem spritePixel_nodup (ext : Bool) (edge : SpriteEdge) (px py : Nat) : (spritePixel ext edge px py).Nodup := by
  unfold spritePixel
  cases placeOnAxis (colsClip edge) (logicalWidth ext) px <;>
    cases placeOnAxis (rowsClip edge) (logicalHeight ext) py <;> simp [pixelCells_nodup]

/-- Two positions that fall at the same place of an axis, neither a whole length past the other, are one. -/
theorem placeOnAxis_inj (clip : Bool) (len p p' q : Nat) (hp : p < p' + len) (hp' : p' < p + len)
    (h : placeOnAxis clip len p = some q) (h' : placeOnAxis clip len p' = some q) : p = p' := by
  unfold placeOnAxis at h h'
  cases clip <;> simp only [Bool.false_eq_true, if_false, if_true] at h h' <;> split at h <;> split at h' <;>
    simp only [Option.some.injEq, reduceCtorEq] at h h' <;> omega

/-- The cells of a sprite row (R218, R222). -/
theorem mem_spriteRow (ext : Bool) (edge : SpriteEdge) (x0 y w : Nat) (row : Word) (p : Nat × Nat) :
    p ∈ spriteRow ext edge x0 y w row ↔
      ∃ k, k < w ∧ row.getLsbD (w - 1 - k) = true ∧ p ∈ spritePixel ext edge (x0 + k) y := by
  unfold spriteRow
  simp only [List.mem_flatMap, List.mem_range]
  refine exists_congr fun k => and_congr_right fun _ => ?_
  by_cases h : row.getLsbD (w - 1 - k) = true <;> simp [h]

theorem spriteRow_nodup (ext : Bool) (edge : SpriteEdge) (x0 y w : Nat) (row : Word) (hw : w ≤ logicalWidth ext) :
    (spriteRow ext edge x0 y w row).Nodup := by
  unfold spriteRow
  rw [List.nodup_flatMap]
  constructor
  · intro k _
    split
    · exact spritePixel_nodup ..
    · exact List.nodup_nil
  · refine List.Pairwise.imp_of_mem (fun {a b} ha hb hab => ?_) List.nodup_range
    intro q hqa hqb
    dsimp only at hqa hqb
    rw [List.mem_range] at ha hb
    obtain ⟨r, c⟩ := q
    have h1 : (r, c) ∈ spritePixel ext edge (x0 + a) y := by split at hqa; exact hqa; cases hqa
    have h2 : (r, c) ∈ spritePixel ext edge (x0 + b) y := by split at hqb; exact hqb; cases hqb
    rw [mem_spritePixel] at h1 h2
    exact hab (by have := placeOnAxis_inj _ _ _ _ _ (by omega) (by omega) h1.1 h2.1; omega)

/-- The cells of the rows of a sprite (R222). -/
theorem mem_spriteRows (ext : Bool) (edge : SpriteEdge) (x0 w y : Nat) (rows : List Word) (p : Nat × Nat) :
    p ∈ spriteRows ext edge x0 w y rows ↔
      ∃ j row, rows[j]? = some row ∧ p ∈ spriteRow ext edge x0 (y + j) w row := by
  induction rows generalizing y with
  | nil => simp [spriteRows]
  | cons row rows ih =>
    rw [spriteRows, List.mem_append, ih]
    constructor
    · rintro (h | ⟨j, r, h1, h2⟩)
      · exact ⟨0, row, rfl, h⟩
      · exact ⟨j + 1, r, by simpa using h1, by rwa [show y + (j + 1) = y + 1 + j by omega]⟩
    · rintro ⟨j, r, h1, h2⟩
      cases j with
      | zero => left; simp only [List.getElem?_cons_zero, Option.some.injEq] at h1; subst h1; exact h2
      | succ j => right; exact ⟨j, r, by simpa using h1, by rwa [show y + 1 + j = y + (j + 1) by omega]⟩

theorem spriteRows_nodup (ext : Bool) (edge : SpriteEdge) (x0 w y : Nat) (rows : List Word) (hw : w ≤ logicalWidth ext)
    (hh : rows.length ≤ logicalHeight ext) : (spriteRows ext edge x0 w y rows).Nodup := by
  induction rows generalizing y with
  | nil => exact List.nodup_nil
  | cons row rows ih =>
    simp only [List.length_cons] at hh
    rw [spriteRows, List.nodup_append]
    refine ⟨spriteRow_nodup ext edge x0 y w row hw, ih (y + 1) (by omega), ?_⟩
    rintro ⟨r, c⟩ ha ⟨r', c'⟩ hb e
    obtain ⟨rfl, rfl⟩ := Prod.mk.inj e
    rw [mem_spriteRow] at ha
    rw [mem_spriteRows] at hb
    obtain ⟨k, _, _, ha⟩ := ha
    obtain ⟨j, row', hj, hb⟩ := hb
    rw [mem_spriteRow] at hb
    obtain ⟨k', _, _, hb⟩ := hb
    rw [mem_spritePixel] at ha hb
    have hj' : j < rows.length := by
      by_contra hc
      rw [List.getElem?_eq_none (by omega)] at hj; cases hj
    have := placeOnAxis_inj _ _ _ _ _ (by omega) (by omega) ha.2 hb.2
    omega

/-- The sizes of a sprite that is read from memory (R217). -/
theorem pairRows_length (bs : List Byte) : (pairRows bs).length = bs.length / 2 := by
  induction bs using pairRows.induct with
  | case1 hi lo rest ih => simp only [pairRows, List.length_cons, ih]; omega
  | case2 b => simp [pairRows]
  | case3 => rfl

/-- No cell is flipped twice by a draw (R222). -/
theorem drawnCells_nodup (ext : Bool) (edge : SpriteEdge) (xv yv : Byte) (sp : Sprite) (hw : sp.width ≤ logicalWidth ext)
    (hh : sp.rows.length ≤ logicalHeight ext) : (drawnCells ext edge xv yv sp).Nodup :=
  spriteRows_nodup _ _ _ _ _ _ hw hh

/-- Which cells a draw flips (R220, R222). -/
theorem mem_drawnCells (ext : Bool) (edge : SpriteEdge) (xv yv : Byte) (sp : Sprite) (r c : Nat) :
    (r, c) ∈ drawnCells ext edge xv yv sp ↔
      ∃ j row k, sp.rows[j]? = some row ∧ k < sp.width ∧ row.getLsbD (sp.width - 1 - k) = true ∧
        placeOnAxis (colsClip edge) (logicalWidth ext) (xv.toNat % logicalWidth ext + k) = some (c / pixelScale ext) ∧
        placeOnAxis (rowsClip edge) (logicalHeight ext) (yv.toNat % logicalHeight ext + j) = some (r / pixelScale ext) := by
  unfold drawnCells
  rw [mem_spriteRows]
  constructor
  · rintro ⟨j, row, hj, h⟩
    rw [mem_spriteRow] at h
    obtain ⟨k, hk, hb, h⟩ := h
    rw [mem_spritePixel] at h
    exact ⟨j, row, k, hj, hk, hb, h.1, h.2⟩
  · rintro ⟨j, row, k, hj, hk, hb, h1, h2⟩
    refine ⟨j, row, hj, ?_⟩
    rw [mem_spriteRow]
    exact ⟨k, hk, hb, (mem_spritePixel ..).2 ⟨h1, h2⟩⟩

/-- Every cell that a draw flips lies in the grid: FramebufferIndexOverflow cannot occur (R222, R281). -/
theorem drawnCells_inRange (ext : Bool) (edge : SpriteEdge) (xv yv : Byte) (sp : Sprite)
    (hw : sp.width ≤ logicalWidth ext) (hh : sp.rows.length ≤ logicalHeight ext) :
    ∀ p ∈ drawnCells ext edge xv yv sp, p.1 < 64 ∧ p.2 < 128 := by
  rintro ⟨r, c⟩ hp
  rw [mem_drawnCells] at hp
  obtain ⟨j, row, k, hj, hk, -, h1, h2⟩ := hp
  have hj' : j < sp.rows.length := by
    by_contra hc
    rw [List.getElem?_eq_none (by omega)] at hj; cases hj
  have hx : xv.toNat % logicalWidth ext < logicalWidth ext := Nat.mod_lt _ (by cases ext <;> decide)
  have hy : yv.toNat % logicalHeight ext < logicalHeight ext := Nat.mod_lt _ (by cases ext <;> decide)
  rw [placeOnAxis_eq_some _ _ _ _ (by omega)] at h1 h2
  cases ext
  · simp only [pixelScale, logicalWidth, logicalHeight, Bool.false_eq_true, if_false] at h1 h2
    show r < 64 ∧ c < 128
    omega
  · simp only [pixelScale, logicalWidth, logicalHeight, if_true] at h1 h2
    show r < 64 ∧ c < 128
    simp at h1 h2
    omega

/-! ### The draw -/

/-- Everything a read of a sprite can do (R217, R219, R223, R284). -/
theorem readSprite_eq (n : Nibble) (s : State) :
    readSprite n s =
      if n = 0 then
        if s.extended = true then
          if s.i.toNat + 32 ≤ 0x1000 then .sprite { width := 16, rows := pairRows (bytesFrom s s.i.toNat 32) }
          else .outOfRange (max s.i.toNat 0x1000)
        else .noop
      else if s.i.toNat + n.toNat ≤ 0x1000 then
        .sprite { width := 8, rows := (bytesFrom s s.i.toNat n.toNat).map fun b => joinBytes 0 b }
      else .outOfRange (max s.i.toNat 0x1000) := by
  unfold readSprite
  by_cases hn : n = 0
  · rw [if_pos hn, if_pos hn]
    by_cases he : s.extended = true
    · rw [if_pos he, if_pos he, readBytes_eq]
      by_cases h : s.i.toNat + 32 ≤ 0x1000
      · rw [if_pos (Or.inl h), if_pos h]
      · rw [if_neg (by omega), if_neg h]
    · rw [if_neg he, if_neg he]
  · have h0 : n.toNat ≠ 0 := fun e => hn (BitVec.eq_of_toNat_eq (by simpa using e))
    rw [if_neg hn, if_neg hn, readBytes_eq]
    by_cases h : s.i.toNat + n.toNat ≤ 0x1000
    · rw [if_pos (Or.inl h), if_pos h]
    · rw [if_neg (by omega), if_neg h]

/-- A sprite read from memory fits on the screen in the mode it was read in (R217). -/
theorem readSprite_fits {n : Nibble} {s : State} {sp : Sprite} (h : readSprite n s = .sprite sp) :
    sp.width ≤ logicalWidth s.extended ∧ sp.rows.length ≤ logicalHeight s.extended := by
  have hn := n.isLt
  rw [readSprite_eq] at h
  split at h
  · split at h
    · next he =>
      split at h
      · injection h with h; subst h
        simp [he, logicalWidth, logicalHeight, pairRows_length]
      · cases h
    · cases h
  · split at h
    · injection h with h; subst h
      cases s.extended <;> simp [logicalWidth, logicalHeight] <;> omega
    · cases h

/-- Positions that start on an axis and span at most its length stay in range (R222). -/
theorem axisInRange_of_le (clip : Bool) {len scale bound start count : Nat} (hs : start < len) (hc : count ≤ len)
    (hb : scale * len = bound) : axisInRange clip len scale bound start count = true := by
  rw [axisInRange, List.all_eq_true]
  intro k hk
  have hk : k < count := by simpa using hk
  split
  · rfl
  · next p hp =>
    rw [placeOnAxis_eq_some _ _ _ _ (by omega)] at hp
    rw [decide_eq_true_iff, ← hb]
    exact Nat.mul_le_mul_left _ (by omega)

/-- A sprite no larger than the logical screen never leaves the grid (R222). -/
theorem indicesInRange_of_fits (ext : Bool) (edge : SpriteEdge) (xv yv : Byte) {sp : Sprite}
    (h : sp.width ≤ logicalWidth ext ∧ sp.rows.length ≤ logicalHeight ext) :
    indicesInRange ext edge xv yv sp = true := by
  rw [indicesInRange, axisInRange_of_le _ (Nat.mod_lt _ (by cases ext <;> decide)) h.1 (by cases ext <;> rfl),
    axisInRange_of_le _ (Nat.mod_lt _ (by cases ext <;> decide)) h.2 (by cases ext <;> rfl)]
  rfl

/-- Everything a draw can do (R222): the no-op, the flips of the sprite's cells, or the failing address of the read. -/
theorem draw_eq (xv yv : Byte) (n : Nibble) (s : State) :
    draw xv yv n s =
      match readSprite n s with
      | .noop => .noop
      | .outOfRange addr => .outOfRange addr
      | .sprite sp =>
        .drawn (flipCells (drawnCells s.extended s.params.qSpriteEdge xv yv sp) s.cells false).1
          (flipCells (drawnCells s.extended s.params.qSpriteEdge xv yv sp) s.cells false).2 := by
  unfold draw
  cases h : readSprite n s with
  | noop => rfl
  | outOfRange addr => rfl
  | sprite sp => simp only [indicesInRange_of_fits _ _ _ _ (readSprite_fits h), if_true]

end Sys2Proof.Machine
end

