-- ==== Sys2Proof/Laws/PerInstr.lean ====
section
/-! SUPPORT. Statements made per instruction, about an instruction as syntax. TableRow: the word of an instruction lies in
its row of spec/opcode_table.json, that is, it has the row's match under the row's mask. -/

namespace Sys2Proof.Laws.TableRow

/-- The mask and the match of the instruction's row of spec/opcode_table.json. -/
def row : Instr → Word × Word
  | .scd _ => (0xFFF0, 0x00C0)
  | .cls => (0xFFFF, 0x00E0)
  | .ret => (0xFFFF, 0x00EE)
  | .scr => (0xFFFF, 0x00FB)
  | .scl => (0xFFFF, 0x00FC)
  | .exit => (0xFFFF, 0x00FD)
  | .low => (0xFFFF, 0x00FE)
  | .high => (0xFFFF, 0x00FF)
  | .jp _ => (0xF000, 0x1000)
  | .call _ => (0xF000, 0x2000)
  | .seImm _ _ => (0xF000, 0x3000)
  | .sneImm _ _ => (0xF000, 0x4000)
  | .seReg _ _ => (0xF00F, 0x5000)
  | .ldImm _ _ => (0xF000, 0x6000)
  | .addImm _ _ => (0xF000, 0x7000)
  | .ldReg _ _ => (0xF00F, 0x8000)
  | .orReg _ _ => (0xF00F, 0x8001)
  | .andReg _ _ => (0xF00F, 0x8002)
  | .xorReg _ _ => (0xF00F, 0x8003)
  | .addReg _ _ => (0xF00F, 0x8004)
  | .subReg _ _ => (0xF00F, 0x8005)
  | .shr _ _ => (0xF00F, 0x8006)
  | .subn _ _ => (0xF00F, 0x8007)
  | .shl _ _ => (0xF00F, 0x800E)
  | .sneReg _ _ => (0xF00F, 0x9000)
  | .ldI _ => (0xF000, 0xA000)
  | .jpV0 _ => (0xF000, 0xB000)
  | .rnd _ _ => (0xF000, 0xC000)
  | .drw _ _ _ => (0xF000, 0xD000)
  | .skp _ => (0xF0FF, 0xE09E)
  | .sknp _ => (0xF0FF, 0xE0A1)
  | .ldVxDt _ => (0xF0FF, 0xF007)
  | .ldVxK _ => (0xF0FF, 0xF00A)
  | .ldDtVx _ => (0xF0FF, 0xF015)
  | .ldStVx _ => (0xF0FF, 0xF018)
  | .addI _ => (0xF0FF, 0xF01E)
  | .ldF _ => (0xF0FF, 0xF029)
  | .ldHf _ => (0xF0FF, 0xF030)
  | .ldB _ => (0xF0FF, 0xF033)
  | .ldMemVx _ => (0xF0FF, 0xF055)
  | .ldVxMem _ => (0xF0FF, 0xF065)
  | .ldRVx _ => (0xF0FF, 0xF075)
  | .ldVxR _ => (0xF0FF, 0xF085)

/-- The word of the instruction has its row's match under its row's mask. -/
def Statement (i : Instr) : Prop := encode i &&& (row i).1 = (row i).2

/-! A layout whose fixed nibbles are masked: the other fields drop out. -/

theorem mask_nnn (o : Nibble) (nnn : Addr) : wordNnn o nnn &&& 0xF000 = o ++ (0x000 : Addr) := by
  apply BitVec.eq_of_getLsbD_eq
  intro i hi
  rw [BitVec.getLsbD_and, wordNnn_bit]
  refine Eq.trans ?_ (BitVec.getLsbD_append (x := o) (y := (0x000 : Addr))).symm
  interval_cases i <;> simp

theorem mask_x (o : Nibble) (x : Reg) (kk : Byte) : wordXkk o x kk &&& 0xF000 = o ++ (0x000 : Addr) := by
  apply BitVec.eq_of_getLsbD_eq
  intro i hi
  rw [BitVec.getLsbD_and, wordXkk_bit]
  refine Eq.trans ?_ (BitVec.getLsbD_append (x := o) (y := (0x000 : Addr))).symm
  interval_cases i <;> simp

theorem mask_xkk (o : Nibble) (x : Reg) (kk : Byte) : wordXkk o x kk &&& 0xF0FF = o ++ (0x0 : Nibble) ++ kk := by
  apply BitVec.eq_of_getLsbD_eq
  intro i hi
  rw [BitVec.getLsbD_and, wordXkk_bit]
  refine Eq.trans ?_ (BitVec.getLsbD_append (x := o ++ (0x0 : Nibble)) (y := kk)).symm
  rw [BitVec.getLsbD_append]
  interval_cases i <;> simp

theorem mask_xyn (o : Nibble) (x y : Reg) (n : Nibble) : wordXyn o x y n &&& 0xF00F = o ++ (0x00 : Byte) ++ n := by
  apply BitVec.eq_of_getLsbD_eq
  intro i hi
  rw [BitVec.getLsbD_and, wordXyn_bit]
  refine Eq.trans ?_ (BitVec.getLsbD_append (x := o ++ (0x00 : Byte)) (y := n)).symm
  rw [BitVec.getLsbD_append]
  interval_cases i <;> simp

theorem mask_xy (o : Nibble) (x y : Reg) (n : Nibble) : wordXyn o x y n &&& 0xF000 = o ++ (0x000 : Addr) := by
  apply BitVec.eq_of_getLsbD_eq
  intro i hi
  rw [BitVec.getLsbD_and, wordXyn_bit]
  refine Eq.trans ?_ (BitVec.getLsbD_append (x := o) (y := (0x000 : Addr))).symm
  interval_cases i <;> simp

theorem scd (n : Nibble) : Statement (.scd n) := by
  show wordXyn 0x0 0 0xC n &&& 0xFFF0 = 0x00C0
  revert n
  decide

theorem cls : Statement .cls := rfl

theorem ret : Statement .ret := rfl

theorem scr : Statement .scr := rfl

theorem scl : Statement .scl := rfl

theorem exit : Statement .exit := rfl

theorem low : Statement .low := rfl

theorem high : Statement .high := rfl

theorem jp (nnn : Addr) : Statement (.jp nnn) := mask_nnn _ _

theorem call (nnn : Addr) : Statement (.call nnn) := mask_nnn _ _

theorem seImm (x : Reg) (kk : Byte) : Statement (.seImm x kk) := mask_x _ _ _

theorem sneImm (x : Reg) (kk : Byte) : Statement (.sneImm x kk) := mask_x _ _ _

theorem seReg (x y : Reg) : Statement (.seReg x y) := mask_xyn _ _ _ _

theorem ldImm (x : Reg) (kk : Byte) : Statement (.ldImm x kk) := mask_x _ _ _

theorem addImm (x : Reg) (kk : Byte) : Statement (.addImm x kk) := mask_x _ _ _

theorem ldReg (x y : Reg) : Statement (.ldReg x y) := mask_xyn _ _ _ _

theorem orReg (x y : Reg) : Statement (.orReg x y) := mask_xyn _ _ _ _

theorem andReg (x y : Reg) : Statement (.andReg x y) := mask_xyn _ _ _ _

theorem xorReg (x y : Reg) : Statement (.xorReg x y) := mask_xyn _ _ _ _

theorem addReg (x y : Reg) : Statement (.addReg x y) := mask_xyn _ _ _ _

theorem subReg (x y : Reg) : Statement (.subReg x y) := mask_xyn _ _ _ _

theorem shr (x y : Reg) : Statement (.shr x y) := mask_xyn _ _ _ _

theorem subn (x y : Reg) : Statement (.subn x y) := mask_xyn _ _ _ _

theorem shl (x y : Reg) : Statement (.shl x y) := mask_xyn _ _ _ _

theorem sneReg (x y : Reg) : Statement (.sneReg x y) := mask_xyn _ _ _ _

theorem ldI (nnn : Addr) : Statement (.ldI nnn) := mask_nnn _ _

theorem jpV0 (nnn : Addr) : Statement (.jpV0 nnn) := mask_nnn _ _

theorem rnd (x : Reg) (kk : Byte) : Statement (.rnd x kk) := mask_x _ _ _

theorem drw (x y : Reg) (n : Nibble) : Statement (.drw x y n) := mask_xy _ _ _ _

theorem skp (x : Reg) : Statement (.skp x) := mask_xkk _ _ _

theorem sknp (x : Reg) : Statement (.sknp x) := mask_xkk _ _ _

theorem ldVxDt (x : Reg) : Statement (.ldVxDt x) := mask_xkk _ _ _

theorem ldVxK (x : Reg) : Statement (.ldVxK x) := mask_xkk _ _ _

theorem ldDtVx (x : Reg) : Statement (.ldDtVx x) := mask_xkk _ _ _

theorem ldStVx (x : Reg) : Statement (.ldStVx x) := mask_xkk _ _ _

theorem addI (x : Reg) : Statement (.addI x) := mask_xkk _ _ _

theorem ldF (x : Reg) : Statement (.ldF x) := mask_xkk _ _ _

theorem ldHf (x : Reg) : Statement (.ldHf x) := mask_xkk _ _ _

theorem ldB (x : Reg) : Statement (.ldB x) := mask_xkk _ _ _

theorem ldMemVx (x : Reg) : Statement (.ldMemVx x) := mask_xkk _ _ _

theorem ldVxMem (x : Reg) : Statement (.ldVxMem x) := mask_xkk _ _ _

theorem ldRVx (x : Reg) : Statement (.ldRVx x) := mask_xkk _ _ _

theorem ldVxR (x : Reg) : Statement (.ldVxR x) := mask_xkk _ _ _

end Sys2Proof.Laws.TableRow
end

