-- ==== Sys2Proof/Tests/Slice0.lean ====
section
/-! SUPPORT. Tests and witnesses. Every expected value is the spec's: the encodings of 30_encoding.md and opcode_table.json,
the vectors of 95_test_vectors.md (cited by their ids), or a hand calculation from a rule. A witness names a state and
operands that meet all hypotheses of one obligation, clause by clause at boundary values. -/

namespace Sys2Proof.Tests

open Sys2Proof.Machine Sys2Proof.Safety

/-! ### The ill-formed term -/

/-- 00C0 is no instruction (R95, R130): the one ill-formed term is refused, and its neighbour is not. -/
theorem test_wellFormed_scd_zero : (Instr.scd 0).wellFormed = false ∧ (Instr.scd 1).wellFormed = true := by decide

/-! ### Decoding, each word written out from its row: o, x, y, n (R92, R93, R95) -/

theorem test_decode_scd : decode 0b0000_0000_1100_0111 = .instr (.scd 7) := by decide
theorem test_decode_cls : decode 0b0000_0000_1110_0000 = .instr (.cls) := by decide
theorem test_decode_ret : decode 0b0000_0000_1110_1110 = .instr (.ret) := by decide
theorem test_decode_scr : decode 0b0000_0000_1111_1011 = .instr (.scr) := by decide
theorem test_decode_scl : decode 0b0000_0000_1111_1100 = .instr (.scl) := by decide
theorem test_decode_exit : decode 0b0000_0000_1111_1101 = .instr (.exit) := by decide
theorem test_decode_low : decode 0b0000_0000_1111_1110 = .instr (.low) := by decide
theorem test_decode_high : decode 0b0000_0000_1111_1111 = .instr (.high) := by decide
theorem test_decode_jp : decode 0b0001_1010_1011_1100 = .instr (.jp 0xABC) := by decide
theorem test_decode_call : decode 0b0010_0010_0000_1010 = .instr (.call 0x20A) := by decide
theorem test_decode_seImm : decode 0b0011_0011_0100_0000 = .instr (.seImm 3 0x40) := by decide
theorem test_decode_sneImm : decode 0b0100_0001_0000_0101 = .instr (.sneImm 1 0x05) := by decide
theorem test_decode_seReg : decode 0b0101_0001_0010_0000 = .instr (.seReg 1 2) := by decide
theorem test_decode_ldImm : decode 0b0110_1010_1001_1100 = .instr (.ldImm 10 0x9C) := by decide
theorem test_decode_addImm : decode 0b0111_0000_0000_1111 = .instr (.addImm 0 0x0F) := by decide
theorem test_decode_ldReg : decode 0b1000_0011_1110_0000 = .instr (.ldReg 3 14) := by decide
theorem test_decode_orReg : decode 0b1000_0011_1110_0001 = .instr (.orReg 3 14) := by decide
theorem test_decode_andReg : decode 0b1000_0011_1110_0010 = .instr (.andReg 3 14) := by decide
theorem test_decode_xorReg : decode 0b1000_0011_1110_0011 = .instr (.xorReg 3 14) := by decide
theorem test_decode_addReg : decode 0b1000_1111_0001_0100 = .instr (.addReg 15 1) := by decide
theorem test_decode_subReg : decode 0b1000_0011_1110_0101 = .instr (.subReg 3 14) := by decide
theorem test_decode_shr : decode 0b1000_1111_1111_0110 = .instr (.shr 15 15) := by decide
theorem test_decode_subn : decode 0b1000_0011_1110_0111 = .instr (.subn 3 14) := by decide
theorem test_decode_shl : decode 0b1000_0011_1110_1110 = .instr (.shl 3 14) := by decide
theorem test_decode_sneReg : decode 0b1001_0001_0010_0000 = .instr (.sneReg 1 2) := by decide
theorem test_decode_ldI : decode 0b1010_0011_0000_0001 = .instr (.ldI 0x301) := by decide
theorem test_decode_jpV0 : decode 0b1011_0011_0001_0000 = .instr (.jpV0 0x310) := by decide
theorem test_decode_rnd : decode 0b1100_0011_0000_1111 = .instr (.rnd 3 0x0F) := by decide
theorem test_decode_drw : decode 0b1101_1111_0001_1010 = .instr (.drw 15 1 10) := by decide
theorem test_decode_skp : decode 0b1110_0010_1001_1110 = .instr (.skp 2) := by decide
theorem test_decode_sknp : decode 0b1110_0010_1010_0001 = .instr (.sknp 2) := by decide
theorem test_decode_ldVxDt : decode 0b1111_0011_0000_0111 = .instr (.ldVxDt 3) := by decide
theorem test_decode_ldVxK : decode 0b1111_0101_0000_1010 = .instr (.ldVxK 5) := by decide
theorem test_decode_ldDtVx : decode 0b1111_0000_0001_0101 = .instr (.ldDtVx 0) := by decide
theorem test_decode_ldStVx : decode 0b1111_0000_0001_1000 = .instr (.ldStVx 0) := by decide
theorem test_decode_addI : decode 0b1111_0010_0001_1110 = .instr (.addI 2) := by decide
theorem test_decode_ldF : decode 0b1111_0011_0010_1001 = .instr (.ldF 3) := by decide
theorem test_decode_ldHf : decode 0b1111_0011_0011_0000 = .instr (.ldHf 3) := by decide
theorem test_decode_ldB : decode 0b1111_0100_0011_0011 = .instr (.ldB 4) := by decide
theorem test_decode_ldMemVx : decode 0b1111_0010_0101_0101 = .instr (.ldMemVx 2) := by decide
theorem test_decode_ldVxMem : decode 0b1111_0010_0110_0101 = .instr (.ldVxMem 2) := by decide
theorem test_decode_ldRVx : decode 0b1111_0111_0111_0101 = .instr (.ldRVx 7) := by decide
theorem test_decode_ldVxR : decode 0b1111_1001_1000_0101 = .instr (.ldVxR 9) := by decide

/-- The words D-1 to D-7 are illegal. -/
theorem test_decode_illegal_low :
    decode 0x0000 = .unknown 0x0000 ∧ decode 0x00C0 = .unknown 0x00C0 ∧ decode 0x01E0 = .unknown 0x01E0 ∧
    decode 0x00FA = .unknown 0x00FA ∧ decode 0x00D1 = .unknown 0x00D1 ∧ decode 0x5121 = .unknown 0x5121 ∧
    decode 0x9121 = .unknown 0x9121 := by decide

/-- The words D-8 to D-13 are illegal. -/
theorem test_decode_illegal_high :
    decode 0x8008 = .unknown 0x8008 ∧ decode 0x800F = .unknown 0x800F ∧ decode 0xE000 = .unknown 0xE000 ∧
    decode 0xE19F = .unknown 0xE19F ∧ decode 0xF000 = .unknown 0xF000 ∧ decode 0xF1FF = .unknown 0xF1FF := by decide

/-- The encoder writes the words that the rules give in their examples. -/
theorem test_encode_examples :
    encode (.scd 3) = 0x00C3 ∧ encode (.call 0x20A) = 0x220A ∧ encode (.addReg 0 2) = 0x8024 ∧
    encode (.drw 0 1 1) = 0xD011 ∧ encode (.ldRVx 8) = 0xF875 := by decide

/-! ### Small states -/

/-- The start state of the vectors, after the fetch at 0x200. -/
def start : State := { State.reset with runState := .running, pc := 0x0202 }

/-- With V0 = a, V1 = b and VF = 7, as the vectors AL have it. -/
def operands (a b : Byte) : State := setV vf 7 (setV 1 b (setV 0 a start))

/-- With other parameters. -/
def withQuirk (f : Params → Params) (s : State) : State := { s with params := f s.params }

/-- The unlit screen with the listed cells lit. -/
def lit (l : List (Nat × Nat)) : Grid := l.foldl (fun g p => flipCell g p.1 p.2) clearGrid

/-- A part of the next state. -/
def peek {α : Type} (r : Result) (f : State → α) : Option α :=
  match r with
  | .next s => some (f s)
  | .fault _ => none
  | .refused _ => none

/-- What the host reads after a stop. -/
def ending (s : State) : RunState × Option ErrorRecord × Word := (s.runState, s.error, s.pc)

/-- The end of an instruction's fatal stop at 0x200. -/
def failed (kind : ErrorKind) (op : Word) (addr : Option Nat) : Option (RunState × Option ErrorRecord × Word) :=
  some (.stopped, some { kind := kind, pc0 := 0x0200, opcode := some op, addr := addr }, 0x0202)

/-- A machine that runs, with the word at 0x200 and PC there. -/
def placed (w : Nat) : State := State.reset.withFetchWord 16 w

/-! ### Screen control -/

/-- SC-1. -/
theorem test_scd : peek (exec (.scd 3) { start with cells := lit [(0, 5)] }) (fun t => t.cells) = some (lit [(3, 5)]) := by
  decide +kernel

/-- SC-2. -/
theorem test_scd_logical :
    peek (exec (.scd 3) (withQuirk (fun p => { p with qLoresScroll := .logical }) { start with cells := lit [(0, 5)] }))
      (fun t => t.cells) = some (lit [(6, 5)]) := by decide +kernel

/-- S-7. -/
theorem test_cls :
    peek (exec .cls { start with cells := lit [(0, 0), (63, 127)], extended := true }) (fun t => (t.cells, t.extended)) =
      some (lit [], true) := by decide +kernel

/-- SC-4, SC-6. -/
theorem test_scr :
    peek (exec .scr { start with cells := lit [(10, 0), (10, 124)] }) (fun t => t.cells) = some (lit [(10, 4)]) := by
  decide +kernel

/-- SC-5. -/
theorem test_scr_logical :
    peek (exec .scr (withQuirk (fun p => { p with qLoresScroll := .logical }) { start with cells := lit [(10, 0)] }))
      (fun t => t.cells) = some (lit [(10, 8)]) := by decide +kernel

/-- SC-7. -/
theorem test_scl : peek (exec .scl { start with cells := lit [(0, 3), (0, 4)] }) (fun t => t.cells) = some (lit [(0, 0)]) := by
  decide +kernel

/-- SC-9. -/
theorem test_exit : peek (exec .exit { start with pc := 0x0208 }) ending = some (.stopped, none, 0x0208) := by decide

/-- SC-10. -/
theorem test_low :
    peek (exec .low { start with cells := lit [(0, 1)], extended := true }) (fun t => (t.cells, t.extended)) =
      some (lit [(0, 1)], false) := by decide +kernel

/-- SC-11. -/
theorem test_high :
    peek (exec .high { start with cells := lit [(0, 0), (0, 1), (1, 0), (1, 1)] }) (fun t => (t.cells, t.extended)) =
      some (lit [(0, 0), (0, 1), (1, 0), (1, 1)], true) := by decide +kernel

/-! ### Control flow -/

/-- CF-1. -/
theorem test_jp : peek (exec (.jp 0x300) start) ending = some (.running, none, 0x0300) := by decide

/-- CF-2, S-8. -/
theorem test_jp_self : peek (exec (.jp 0x200) start) ending = some (.stopped, none, 0x0200) := by decide

/-- CF-4. -/
theorem test_call :
    peek (exec (.call 0x300) start) (fun t => (t.mem, t.sp, t.pc)) = some ([(0xEA0, 0x02), (0xEA1, 0x02)], 0x0EA2, 0x0300) := by
  decide

/-- CF-8. -/
theorem test_call_overflow :
    peek (exec (.call 0x300) { start with sp := 0x1000 }) ending = failed .stackOverflow 0x2300 none := by decide

/-- CF-5. -/
theorem test_ret :
    peek (exec .ret { start with sp := 0x0EA2, mem := [(0xEA0, 0x03), (0xEA1, 0x01)] }) (fun t => (t.pc, t.sp)) =
      some (0x0301, 0x0EA0) := by decide

/-- CF-7. -/
theorem test_ret_invalid :
    peek (exec .ret { start with sp := 0x0EA2, mem := [(0xEA0, 0x10)] }) (fun t => (ending t, t.sp)) =
      some ((.stopped, some { kind := .invalidStackAddress, pc0 := 0x0200, opcode := some 0x00EE, addr := none }, 0x0202),
        0x0EA0) := by decide

/-- CF-10, CF-11. -/
theorem test_seImm :
    peek (exec (.seImm 1 5) (setV 1 5 start)) (fun t => t.pc) = some 0x0204 ∧
    peek (exec (.seImm 1 6) (setV 1 5 start)) (fun t => t.pc) = some 0x0202 := by decide

/-- CF-12 and its converse (R153). -/
theorem test_sneImm :
    peek (exec (.sneImm 1 5) (setV 1 5 start)) (fun t => t.pc) = some 0x0202 ∧
    peek (exec (.sneImm 1 6) (setV 1 5 start)) (fun t => t.pc) = some 0x0204 := by decide

/-- CF-13. -/
theorem test_seReg : peek (exec (.seReg 1 2) (setV 2 5 (setV 1 5 start))) (fun t => t.pc) = some 0x0204 := by decide

/-- CF-14. -/
theorem test_sneReg : peek (exec (.sneReg 1 2) (setV 2 6 (setV 1 5 start))) (fun t => t.pc) = some 0x0204 := by decide

/-! ### Registers and ALU: V0 and VF after -/

/-- AL-19. -/
theorem test_ldImm : peek (exec (.ldImm 10 0x9C) (operands 0 0)) (fun t => (t.v[10], t.v[15])) = some (0x9C, 7) := by decide

/-- R173: 0xFF + 0x01 wraps and VF keeps its value. -/
theorem test_addImm : peek (exec (.addImm 0 1) (operands 0xFF 0)) (fun t => (t.v[0], t.v[15])) = some (0x00, 7) := by decide

/-- AL-18. -/
theorem test_ldReg : peek (exec (.ldReg 0 1) (operands 0x12 0x34)) (fun t => (t.v[0], t.v[15])) = some (0x34, 7) := by decide

/-- AL-14. -/
theorem test_orReg : peek (exec (.orReg 0 1) (operands 0xF0 0x0F)) (fun t => (t.v[0], t.v[15])) = some (0xFF, 7) := by decide

/-- AL-20. -/
theorem test_orReg_vfReset :
    peek (exec (.orReg 0 1) (withQuirk (fun p => { p with qLogicVfReset := true }) (operands 0xF0 0x0F)))
      (fun t => (t.v[0], t.v[15])) = some (0xFF, 0) := by decide

/-- AL-15. -/
theorem test_andReg : peek (exec (.andReg 0 1) (operands 0xF0 0x3C)) (fun t => (t.v[0], t.v[15])) = some (0x30, 7) := by decide

/-- AL-16. -/
theorem test_xorReg : peek (exec (.xorReg 0 1) (operands 0xFF 0x0F)) (fun t => (t.v[0], t.v[15])) = some (0xF0, 7) := by decide

/-- AL-1 and AL-2. -/
theorem test_addReg :
    peek (exec (.addReg 0 1) (operands 0xFF 0x01)) (fun t => (t.v[0], t.v[15])) = some (0x00, 1) ∧
    peek (exec (.addReg 0 1) (operands 0x80 0x7F)) (fun t => (t.v[0], t.v[15])) = some (0xFF, 0) := by decide

/-- AL-23 and AL-24. -/
theorem test_addReg_vf :
    peek (exec (.addReg 15 1) (setV vf 0xFF (setV 1 0x01 start))) (fun t => t.v[15]) = some 1 ∧
    peek (exec (.addReg 1 15) (setV vf 0x10 (setV 1 0x20 start))) (fun t => (t.v[1], t.v[15])) = some (0x30, 0) := by decide

/-- AL-4, AL-5 and AL-6. -/
theorem test_subReg :
    peek (exec (.subReg 0 1) (operands 0x05 0x05)) (fun t => (t.v[0], t.v[15])) = some (0x00, 1) ∧
    peek (exec (.subReg 0 1) (operands 0x05 0x06)) (fun t => (t.v[0], t.v[15])) = some (0xFF, 0) ∧
    peek (exec (.subReg 0 1) (operands 0x00 0xFF)) (fun t => (t.v[0], t.v[15])) = some (0x01, 0) := by decide

/-- AL-7 and AL-8. -/
theorem test_subn :
    peek (exec (.subn 0 1) (operands 0x05 0x06)) (fun t => (t.v[0], t.v[15])) = some (0x01, 1) ∧
    peek (exec (.subn 0 1) (operands 0x06 0x05)) (fun t => (t.v[0], t.v[15])) = some (0xFF, 0) := by decide

/-- AL-10 and AL-25. -/
theorem test_shr :
    peek (exec (.shr 0 1) (operands 0x81 0)) (fun t => (t.v[0], t.v[15])) = some (0x40, 1) ∧
    peek (exec (.shr 15 15) (setV vf 0x03 start)) (fun t => t.v[15]) = some 1 := by decide

/-- AL-21. -/
theorem test_shr_vy :
    peek (exec (.shr 0 1) (withQuirk (fun p => { p with qShiftSrc := .vy }) (operands 0x00 0x03)))
      (fun t => (t.v[0], t.v[15])) = some (0x01, 1) := by decide

/-- AL-12 and AL-13. -/
theorem test_shl :
    peek (exec (.shl 0 1) (operands 0x81 0)) (fun t => (t.v[0], t.v[15])) = some (0x02, 1) ∧
    peek (exec (.shl 0 1) (operands 0x40 0)) (fun t => (t.v[0], t.v[15])) = some (0x80, 0) := by decide

/-- AL-22. -/
theorem test_shl_vy :
    peek (exec (.shl 0 1) (withQuirk (fun p => { p with qShiftSrc := .vy }) (operands 0x00 0x81)))
      (fun t => (t.v[0], t.v[15])) = some (0x02, 1) := by decide

/-! ### Address register -/

/-- AR-1. -/
theorem test_ldI : peek (exec (.ldI 0xFFF) start) (fun t => t.i) = some 0x0FFF := by decide

/-- AR-2 and AR-3. -/
theorem test_addI :
    peek (exec (.addI 2) (setV vf 9 (setV 2 1 { start with i := 0x0FFF }))) (fun t => (t.i, t.v[15])) = some (0x0000, 1) ∧
    peek (exec (.addI 2) (setV vf 9 (setV 2 1 { start with i := 0x0FFE }))) (fun t => (t.i, t.v[15])) = some (0x0FFF, 0) := by
  decide

/-- AR-4: the sum 0x1000 overflows twelve bits. -/
theorem test_addI_wraps :
    peek (exec (.addI 2) (setV 2 0xFF { start with i := 0x0F01 })) (fun t => (t.i, t.v[15])) = some (0x0000, 1) := by decide

/-- AR-8 and AR-9. -/
theorem test_jpV0 :
    peek (exec (.jpV0 0x300) (withQuirk (fun p => { p with qJump := .vx }) (setV 3 0x10 (setV 0 1 start)))) (fun t => t.pc) =
      some 0x0310 ∧
    peek (exec (.jpV0 0xFFF) (setV 0 0xFF start)) (fun t => t.pc) = some 0x10FE := by decide

/-- AR-10 and AR-11. -/
theorem test_jpV0_self :
    peek (exec (.jpV0 0x200) start) ending = some (.running, none, 0x0200) ∧
    peek (exec (.jpV0 0x200) (withQuirk (fun p => { p with qSelfLoopBnnn := true }) start)) ending =
      some (.stopped, none, 0x0200) := by decide

/-- AR-12: the ends of the range. -/
theorem test_ldF :
    peek (exec (.ldF 3) (setV 3 0x0F start)) (fun t => t.i) = some 0x004B ∧
    peek (exec (.ldF 3) (setV 3 0xFF start)) (fun t => t.i) = some 0x04FB := by decide

/-- AR-13: the ends of the range. -/
theorem test_ldHf :
    peek (exec (.ldHf 3) (setV 3 0x0A start)) (fun t => t.i) = some 0x00B4 ∧
    peek (exec (.ldHf 3) (setV 3 0xFF start)) (fun t => t.i) = some 0x0A46 := by decide

/-! ### Random -/

/-- RN-2: the mask 0 gives 0 for every byte; the next Cxkk takes another draw. -/
theorem test_rnd : (peek (exec (.rnd 3 0x00) (setV 3 9 start)) fun t => (t.v[3], t.draws)) = some (0x00, 1) := by
  show some (Config.freeRandom 0 &&& 0, 1) = _
  simp

/-! ### Draw -/

/-- DR-4: the second row wraps to the top. -/
theorem test_drw_wraps_rows :
    peek (exec (.drw 0 1 2) (setV 1 31 { start with i := 0x0300, mem := [(0x300, 0x80), (0x301, 0x80)] }))
      (fun t => (t.cells, t.v[15])) =
      some (lit [(62, 0), (62, 1), (63, 0), (63, 1), (0, 0), (0, 1), (1, 0), (1, 1)], 0) := by decide +kernel

/-- DR-10: in extended mode one cell goes out and one comes on. -/
theorem test_drw_collision :
    peek (exec (.drw 0 1 1) { start with i := 0x0300, mem := [(0x300, 0xC0)], cells := lit [(0, 0)], extended := true })
      (fun t => (t.cells, t.v[15])) = some (lit [(0, 1)], 1) := by decide +kernel

/-! ### Keys -/

/-- KY-1 and KY-6. -/
theorem test_skp :
    peek (exec (.skp 2) (setKey 5 true (setV 2 5 start))) (fun t => (t.pc, t.keys)) = some (0x0204, start.keys) ∧
    peek (exec (.skp 2) (setKey 5 true (setV 2 0x15 start))) (fun t => (t.pc, isPressed 5 t)) = some (0x0202, true) := by
  decide

/-- KY-3 and KY-5. -/
theorem test_sknp :
    peek (exec (.sknp 2) (setKey 5 true (setV 2 5 start))) (fun t => (t.pc, isPressed 5 t)) = some (0x0202, true) ∧
    peek (exec (.sknp 2) (setV 2 5 start)) (fun t => t.pc) = some 0x0204 := by decide

/-- KY-4. -/
theorem test_sknp_consume :
    peek (exec (.sknp 2) (withQuirk (fun p => { p with qExa1Consume := true }) (setKey 5 true (setV 2 5 start))))
      (fun t => (t.pc, isPressed 5 t)) = some (0x0202, false) := by decide

/-! ### Timers and wait -/

/-- TM-4. -/
theorem test_ldVxDt : peek (exec (.ldVxDt 3) { start with dt := 0x20 }) (fun t => t.v[3]) = some 0x20 := by decide

/-- TM-6, the instruction. -/
theorem test_ldVxK :
    peek (exec (.ldVxK 5) start) (fun t => (t.runState, t.waitReg, t.pc)) = some (.halted, 5, 0x0202) := by decide

/-- TM-6, the halted cycle. -/
theorem test_ldVxK_wakes :
    peek (cycle false (setKey 9 true (setKey 3 true { start with runState := .halted, waitReg := 5 })))
      (fun t => (t.v[5], isPressed 3 t, isPressed 9 t, t.runState)) = some (3, false, true, .running) := by decide

/-- TM-1 and TM-2: a tick in the same cycle lowers the new value. -/
theorem test_ldDtVx :
    peek (cycle false (setV 0 0x3C (placed 0xF015))) (fun t => t.dt) = some 0x3C ∧
    peek (cycle true (setV 0 0x3C (placed 0xF015))) (fun t => t.dt) = some 0x3B := by decide

/-- TM-5. -/
theorem test_ldStVx : peek (cycle true (setV 0 0x10 (placed 0xF018))) (fun t => t.st) = some 0x0F := by decide

/-! ### BCD and bulk transfers -/

/-- K-1. -/
theorem test_ldB :
    peek (exec (.ldB 4) (setV 4 255 { start with i := 0x0300 })) (fun t => t.mem) =
      some [(0x300, 2), (0x301, 5), (0x302, 5)] := by decide

/-- K-2: two digits are stored before the fault. -/
theorem test_ldB_fault :
    peek (exec (.ldB 4) (setV 4 156 { start with i := 0x0FFE })) (fun t => t.mem) = some [(0xFFE, 1), (0xFFF, 5)] ∧
    peek (exec (.ldB 4) (setV 4 156 { start with i := 0x0FFE })) ending = failed .addressOutOfRange 0xF433 (some 0x1000) := by
  decide

/-- K-5. -/
theorem test_ldMemVx :
    peek (exec (.ldMemVx 2) (withQuirk (fun p => { p with qLoadStoreI := .increment })
      (setV 2 3 (setV 1 2 (setV 0 1 { start with i := 0x0FFD }))))) (fun t => (t.mem, t.i)) =
      some ([(0xFFD, 1), (0xFFE, 2), (0xFFF, 3)], 0x0000) := by decide

/-- S-2. -/
theorem test_ldMemVx_fault :
    peek (exec (.ldMemVx 0) { start with i := 0x01FF }) ending = failed .addressOutOfRange 0xF055 (some 0x1FF) := by decide

/-- The example of R269. -/
theorem test_ldVxMem :
    peek (exec (.ldVxMem 2) { start with i := 0x0300, mem := [(0x300, 1), (0x301, 5), (0x302, 6)] })
      (fun t => (t.v[0], t.v[1], t.v[2], t.i)) = some (1, 5, 6, 0x0300) := by decide

/-- K-10: two registers are loaded before the fault. -/
theorem test_ldVxMem_fault :
    peek (exec (.ldVxMem 2) (setV 2 9 { start with i := 0x0FFE, mem := [(0xFFE, 5), (0xFFF, 6)] }))
      (fun t => (t.v[0], t.v[1], t.v[2])) = some (5, 6, 9) := by decide

/-- The example of R270. -/
theorem test_ldRVx :
    peek (exec (.ldRVx 1) (setV 2 0x33 (setV 1 0x22 (setV 0 0x11 start)))) (fun t => (t.rpl[0], t.rpl[1], t.rpl[2])) =
      some (0x11, 0x22, 0) := by decide

/-- K-6. -/
theorem test_ldRVx_fault :
    peek (exec (.ldRVx 8) (setV 0 1 start)) ending = failed .rplIndexOutOfRange 0xF875 none ∧
    peek (exec (.ldRVx 8) (setV 0 1 start)) (fun t => t.rpl) = some start.rpl := by decide

/-- The example of R271. -/
theorem test_ldVxR :
    peek (exec (.ldVxR 1) { start with rpl := (start.rpl.set 0 0x11).set 1 0x22 }) (fun t => (t.v[0], t.v[1])) =
      some (0x11, 0x22) := by decide

/-- K-9. -/
theorem test_ldVxR_fault : peek (exec (.ldVxR 9) start) ending = failed .rplIndexOutOfRange 0xF985 none := by decide

/-! ### The cycle, the environment -/

/-- A table word placed at the fetch address runs: 6A05 loads VA. -/
theorem test_withFetchWord : peek (step (placed 0x6A05)) (fun t => (t.v[10], t.pc, t.runState)) = some (5, 0x0202, .running) := by
  decide

/-- M-7: the second byte of the fetch lies outside the space. -/
theorem test_fetch_fault :
    peek (cycle true { start with pc := 0x0FFF, dt := 5 }) (fun t => (ending t, t.dt)) =
      some ((.stopped, some { kind := .addressOutOfRange, pc0 := 0x0FFF, opcode := none, addr := some 0x1000 }, 0x0FFF), 5) := by
  decide

/-- M-8: a fetch from the reserved region, with SENTINEL = 0x00. -/
theorem test_fetch_reserved :
    peek (cycle false (withQuirk (fun p => { p with sentinel := 0x00 }) { start with pc := 0x0100 })) ending =
      some (.stopped, some { kind := .unknownOpcode, pc0 := 0x0100, opcode := some 0x0000, addr := none }, 0x0102) := by decide

/-- TM-8: the stop check comes before the poll. -/
theorem test_stop_while_halted :
    peek (cycle true (setKey 3 true { start with runState := .halted, stopRequested := true })) (fun t => (ending t, isPressed 3 t)) =
      some ((.stopped, none, 0x0202), true) := by decide

/-- M-4 and M-5. -/
theorem test_loadProgram :
    peek (step { State.reset with mem := [(0x300, 0x55)], schedule := [.loadProgram [0x12, 0x00]] }) (fun t => t.mem) =
      some [(0x200, 0x12), (0x300, 0x55)] ∧
    loadProgram [0x12] start = .refused ∧ loadProgram [] State.reset = .failed .emptyProgram := by decide

/-- A stopped machine with an error, and the host's reset to come. -/
def stoppedWithError : State :=
  { start with
    runState := .stopped
    error    := some { kind := .unknownOpcode, pc0 := 0x0200, opcode := some 0, addr := none }
    dt       := 7
    sp       := 0x0EA4
    mem      := [(0x300, 1)]
    schedule := [.reset] }

/-- X-3: reset leaves Stopped and keeps memory. -/
theorem test_reset :
    peek (step stoppedWithError) ending = some (.ready, none, 0x0200) ∧
    peek (step stoppedWithError) (fun t => (t.dt, t.sp)) = some (0, 0x0EA0) ∧
    peek (step stoppedWithError) (fun t => t.mem) = some [(0x300, 1)] := by decide

/-! ### Witnesses: encoding and cycle -/

theorem witness_DecodeOfEncodeIsTheInstruction :
    (Instr.scd 15).wellFormed = true ∧ (Instr.scd 1).wellFormed = true ∧ (Instr.drw 15 15 0).wellFormed = true := by decide

theorem witness_EncodeOfDecodeIsTheWord : decode 0xFF85 = .instr (.ldVxR 15) := by decide

/-- The list on both sides of its edges: 00C0 and 00D0 are in it, 00C1 and 00CF are not. -/
theorem witness_IllegalWordsAreThoseOfTheList :
    (¬ (0x00C1 ≤ (0x00C0#16).toNat ∧ (0x00C0#16).toNat ≤ 0x00CF)) ∧ (¬ (0x00C1 ≤ (0x00D0#16).toNat ∧ (0x00D0#16).toNat ≤ 0x00CF)) ∧
    decode 0x00C0 = .unknown 0x00C0 ∧ decode 0x00D0 = .unknown 0x00D0 ∧ decode 0x00C1 = .instr (.scd 1) ∧
    decode 0x00CF = .instr (.scd 15) := by decide

theorem fetches_placed_cls : Fetches (placed 0x00E0) .cls := ⟨by decide, by decide⟩

theorem witness_StepRunsTheDecodedInstruction :
    (placed 0x00E0).runState = .running ∧ MovesFreely (placed 0x00E0) ∧ Fetches (placed 0x00E0) .cls :=
  ⟨rfl, ⟨rfl, rfl⟩, fetches_placed_cls⟩

/-- With these moves to come. -/
def scheduled (l : List Move) (s : State) : State := { s with schedule := l }

/-- A cycle first, a key event first, and no settled move. -/
theorem witness_NextMoveIsScheduledOrFree :
    (scheduled [.interpreter, .press 3] start).schedule = .interpreter :: [.press 3] ∧
    (scheduled [.press 3, .interpreter] start).schedule = .press 3 :: [.interpreter] ∧ Move.press 3 ≠ .interpreter ∧
    State.reset.schedule = [] := by decide

theorem witness_IllegalWordIsAFatalStop :
    (placed 0x00C0).runState = .running ∧ MovesFreely (placed 0x00C0) ∧ (placed 0x00C0).pc.toNat + 1 < 0x1000 ∧
    (0x00C0 : Word) = joinBytes (byteAt (placed 0x00C0) 0x200) (byteAt (placed 0x00C0) 0x201) ∧
    decode 0x00C0 = .unknown 0x00C0 := ⟨rfl, ⟨rfl, rfl⟩, by decide, by decide, by decide⟩

theorem witness_FetchOutsideTheSpaceIsAFatalStop :
    MovesFreely (scheduled [.interpreter] start) ∧ (scheduled [.interpreter] start).runState = .running ∧
    0xFFF ≤ ({ scheduled [.interpreter] start with pc := 0x0FFF } : State).pc.toNat ∧
    0xFFF ≤ ({ scheduled [.interpreter] start with pc := 0x10FE } : State).pc.toNat :=
  ⟨⟨rfl, rfl⟩, rfl, by decide, by decide⟩

/-- The states of TM-8 and of X-5. -/
theorem witness_StopCheckComesFirst :
    (({ start with stopRequested := true } : State).runState = .running ∧ start.error = none ∧
      pendingMove (scheduled [.interpreter] { start with stopRequested := true }) = .interpreter) ∧
    ({ start with runState := .halted, stopRequested := true } : State).runState = .halted := ⟨⟨rfl, rfl, rfl⟩, rfl⟩

/-- Halted, waiting for a key for V5. -/
def waiting : State := { start with runState := .halted, waitReg := 5, dt := 5, schedule := [.interpreter, .interpreter] }

theorem no_key_pressed (k : Nat) : isPressed k waiting = false := by
  by_cases h : k < 16 <;> simp [isPressed, waiting, start, State.reset, h]

/-- Keys 15 and 9 pressed: 9 is the lowest; and no key pressed. -/
theorem witness_HaltedCycleTakesTheLowestKey :
    waiting.runState = .halted ∧ MovesFreely waiting ∧ (∀ k, isPressed k waiting = false) ∧
    isPressed 9 (setKey 15 true (setKey 9 true waiting)) = true ∧
    (∀ j, j < 9 → isPressed j (setKey 15 true (setKey 9 true waiting)) = false) :=
  ⟨rfl, ⟨rfl, rfl⟩, no_key_pressed, by decide, by decide⟩

theorem witness_TimersCountDownAtATick :
    waiting.runState ≠ .stopped ∧ ({ waiting with runState := .stopped } : State).runState = .stopped := ⟨by decide, rfl⟩

/-- For every n there is such a machine: n cycles are scheduled. -/
theorem witness_WaitingTimersCountTheTicks (n : Nat) :
    (scheduled (List.replicate n .interpreter) waiting).runState = .halted ∧
    (scheduled (List.replicate n .interpreter) waiting).stopRequested = false ∧
    (∀ j, j < n → upcomingMove (scheduled (List.replicate n .interpreter) waiting) j = .interpreter) ∧
    ∀ k, isPressed k (scheduled (List.replicate n .interpreter) waiting) = false :=
  ⟨rfl, rfl, fun j hj => by simp [upcomingMove, scheduled, hj], no_key_pressed⟩

/-! ### Witnesses: the environment -/

theorem witness_PressAndReleaseSetOneKey :
    pendingMove (scheduled [.press 0xF] start) = .press 0xF ∧ pendingMove (scheduled [.press 0x10] start) = .press 0x10 ∧
    pendingMove (scheduled [.release 0xF] start) = .release 0xF ∧ (0xF : Nat) ≤ 0xF ∧ ¬ (0x10 : Nat) ≤ 0xF := by decide

theorem witness_HostControlMoves :
    pendingMove (scheduled [.requestStop, .start] State.reset) = .requestStop ∧
    pendingMove (scheduled [.start] State.reset) = .start ∧ (scheduled [.start] State.reset).runState = .ready ∧
    (scheduled [.start] start).runState = .running ∧ pendingMove (scheduled [.snapshot] start) = .snapshot := by decide

/-- The smallest and the largest image that loads, and the two that do not; a run state of each kind. -/
theorem witness_LoadProgramCopiesTheImage (image : List Byte) :
    memWf (scheduled [.loadProgram image] State.reset).mem = true ∧
    pendingMove (scheduled [.loadProgram image] State.reset) = .loadProgram image ∧
    (scheduled [.loadProgram image] State.reset).runState = .ready ∧
    (scheduled [.loadProgram image] start).runState = .running ∧
    ([0x60] : List Byte).length = 1 ∧ (List.replicate 0xE00 (0x60 : Byte)).length = 0xE00 ∧ ([] : List Byte).length = 0 ∧
    0xE00 < (List.replicate 0xE01 (0x60 : Byte)).length :=
  ⟨rfl, rfl, rfl, rfl, rfl, List.length_replicate, rfl, by rw [List.length_replicate]; decide⟩

theorem witness_ResetRestoresTheInterpreter :
    pendingMove (scheduled [.reset] State.reset) = .reset ∧ (scheduled [.reset] State.reset).runState = .ready ∧
    (scheduled [.reset] waiting).runState = .halted := by decide

/-! ### Witnesses: memory and whole machine -/

/-- One address at each edge of the five regions. -/
theorem witness_ReadFollowsTheRegions :
    memRead State.reset 0x1000 = none ∧ memRead State.reset 0x04F = State.reset.params.fontSmall[0x04F]? ∧
    memRead State.reset 0x050 = State.reset.params.fontBig[0x000]? ∧ memRead State.reset 0x0B3 = State.reset.params.fontBig[0x063]? ∧
    memRead State.reset 0x0B4 = some State.reset.params.sentinel ∧ memRead State.reset 0x1FF = some State.reset.params.sentinel ∧
    memRead State.reset 0x200 = some 0x00 ∧ memRead State.reset 0xFFF = some 0x00 :=
  ⟨rfl, rfl, rfl, rfl, rfl, rfl, rfl, rfl⟩

/-- One address at each edge of the user region. -/
theorem witness_WriteStoresOneByteOfTheUserRegion :
    memWf State.reset.mem = true ∧ memWrite State.reset 0x1FF 0x77 = none ∧ memWrite State.reset 0x1000 0x77 = none ∧
    (memWrite State.reset 0x200 0x77).isSome = true ∧ (memWrite State.reset 0xFFF 0x77).isSome = true := by decide

/-- A step that stores V0 = 0 at I = 0x300. -/
theorem witness_RomIsNeverChanged : ∃ t, step { placed 0xF055 with i := 0x300 } = .next t := ⟨_, rfl⟩

/-- A running machine meets the invariant, and it steps. -/
theorem witness_EveryStepKeepsTheInvariant :
    Inv (placed 0x00FD) ∧ peek (step (placed 0x00FD)) (fun t => t.runState) = some .stopped :=
  ⟨⟨by decide, by decide, by decide, ⟨0, by decide⟩, fun h => absurd rfl h, by decide⟩, by decide⟩

/-- A step that counts ST down or not, as the tick has it. -/
theorem witness_SoundTimerIsNeverRead : ∃ t, step { placed 0x00E0 with st := 3 } = .next t := ⟨_, rfl⟩

/-! ### Witnesses: control flow -/

/-- The lowest and the highest stack pointer that a CALL may use. -/
theorem witness_CallPushesTheReturnAddress :
    memWf start.mem = true ∧ (SpLegal start.sp ∧ start.sp.toNat ≠ 0x1000) ∧
    (SpLegal ({ start with sp := 0x0FFE } : State).sp ∧ ({ start with sp := 0x0FFE } : State).sp.toNat ≠ 0x1000) ∧
    (0x300 : Addr).toNat ≠ (start.pc - 2).toNat :=
  ⟨rfl, ⟨⟨0, by decide⟩, by decide⟩, ⟨⟨175, by decide⟩, by decide⟩, by decide⟩

/-- A call of itself on a full stack, and another call on it. -/
theorem witness_CallOfItselfOrOnAFullStackStops :
    (0x200 : Addr).toNat = (start.pc - 2).toNat ∧
    ((0x300 : Addr).toNat ≠ (start.pc - 2).toNat ∧ ({ start with sp := 0x1000 } : State).sp = 0x1000) := by decide

/-- One entry, 0x0301, and the highest that returns, 0x0FFF. -/
theorem witness_ReturnPopsTheAddress :
    SpLegal ({ start with sp := 0x0EA2, mem := [(0xEA0, 0x03), (0xEA1, 0x01)] } : State).sp ∧
    ({ start with sp := 0x0EA2, mem := [(0xEA0, 0x03), (0xEA1, 0x01)] } : State).sp.toNat ≠ 0x0EA0 ∧
    (0x0301 : Word) = joinBytes (byteAt { start with mem := [(0xEA0, 0x03), (0xEA1, 0x01)] } 0xEA0)
      (byteAt { start with mem := [(0xEA0, 0x03), (0xEA1, 0x01)] } 0xEA1) ∧
    (0x0FFF : Word) = joinBytes (byteAt { start with mem := [(0xFFE, 0x0F), (0xFFF, 0xFF)] } 0xFFE)
      (byteAt { start with mem := [(0xFFE, 0x0F), (0xFFF, 0xFF)] } 0xFFF) ∧
    (0x0301 : Word).toNat ≤ 0xFFF ∧ (0x0FFF : Word).toNat ≤ 0xFFF ∧ SpLegal 0x1000 :=
  ⟨⟨1, by decide⟩, by decide, by decide, by decide, by decide, by decide, ⟨176, by decide⟩⟩

/-- The empty stack; the lowest entry that does not return, 0x1000. -/
theorem witness_ReturnFailures :
    start.sp = 0x0EA0 ∧ SpLegal ({ start with sp := 0x0EA2, mem := [(0xEA0, 0x10)] } : State).sp ∧
    ({ start with sp := 0x0EA2, mem := [(0xEA0, 0x10)] } : State).sp.toNat ≠ 0x0EA0 ∧
    0xFFF < (joinBytes (byteAt { start with sp := 0x0EA2, mem := [(0xEA0, 0x10)] } (0x0EA2 - 2))
      (byteAt { start with sp := 0x0EA2, mem := [(0xEA0, 0x10)] } (0x0EA2 - 1))).toNat :=
  ⟨rfl, ⟨1, by decide⟩, by decide, by decide⟩

/-- The call of CF-4, and a later state with the same memory and SP. -/
theorem witness_ReturnUndoesTheCall :
    memWf start.mem = true ∧ SpLegal start.sp ∧ start.sp.toNat ≠ 0x1000 ∧ (0x300 : Addr).toNat ≠ (start.pc - 2).toNat ∧
    start.pc.toNat ≤ 0xFFF ∧
    exec (.call 0x300) start = .next { start with pc := 0x0300, sp := 0x0EA2, mem := [(0xEA0, 0x02), (0xEA1, 0x02)] } :=
  ⟨rfl, ⟨0, by decide⟩, by decide, by decide, by decide, rfl⟩

/-! ### Witnesses: registers -/

/-- Each operation, with the quirk and without, on VF and on another register. -/
theorem witness_LogicOperationsWriteTheirRegister :
    (Instr.orReg 0 1 = .orReg 0 1 ∧ (0xFF : Byte) = (operands 0xF0 0x0F).v[(0 : Reg)] ||| (operands 0xF0 0x0F).v[(1 : Reg)]) ∧
    (0x30 : Byte) = (operands 0xF0 0x3C).v[(0 : Reg)] &&& (operands 0xF0 0x3C).v[(1 : Reg)] ∧
    (0xF0 : Byte) = (operands 0xFF 0x0F).v[(0 : Reg)] ^^^ (operands 0xFF 0x0F).v[(1 : Reg)] ∧
    start.params.qLogicVfReset = false ∧ (0 : Reg) ≠ vf ∧
    (withQuirk (fun p => { p with qLogicVfReset := true }) start).params.qLogicVfReset = true := by decide

/-- Both sources. -/
theorem witness_ShiftsKeepTheBitShiftedOut :
    (0x81 : Byte) = (match (operands 0x81 0x03).params.qShiftSrc with
      | .vx => (operands 0x81 0x03).v[(0 : Reg)]
      | .vy => (operands 0x81 0x03).v[(1 : Reg)]) ∧
    (0x03 : Byte) = (match (withQuirk (fun p => { p with qShiftSrc := .vy }) (operands 0x81 0x03)).params.qShiftSrc with
      | .vx => (operands 0x81 0x03).v[(0 : Reg)]
      | .vy => (operands 0x81 0x03).v[(1 : Reg)]) := by decide

/-- Both base registers; the jump of AR-11 to its own address. -/
theorem witness_IndexedJumpAddsTheRegister :
    ((0 : Reg).val = (match start.params.qJump with | .v0 => 0 | .vx => (0xF00 : Addr).toNat / 256)) ∧
    ((15 : Reg).val = (match (withQuirk (fun p => { p with qJump := .vx }) start).params.qJump with
      | .v0 => 0
      | .vx => (0xF00 : Addr).toNat / 256)) ∧
    start.v[(0 : Reg)].toNat + (0x200 : Addr).toNat = (start.pc - 2).toNat := by decide

/-! ### Witnesses: draw and keys -/

/-- The state of DR-10: a sprite row C0 at 0x300, cell (0, 0) lit, extended mode. -/
def canvas : State := { start with i := 0x0300, mem := [(0x300, 0xC0)], cells := lit [(0, 0)], extended := true }

/-- The first sprite pixel falls on cell (0, 0), which is lit; nothing falls on row 5. -/
theorem witness_DrawInvertsTheCoveredCells :
    ((1 : Nibble) ≠ 0 ∧ canvas.i.toNat + spriteBytes 1 ≤ 0x1000) ∧
    (canvas.extended = true ∧ ({ canvas with i := 0x0FE0 } : State).i.toNat + spriteBytes 0 ≤ 0x1000) ∧
    ({ canvas with i := 0x0FF1 } : State).i.toNat + spriteBytes 15 ≤ 0x1000 ∧
    (Covers 1 0 0 canvas 0 0 ∧ cellAt canvas.cells 0 0 = true) ∧ ¬ Covers 1 0 0 canvas 5 0 := by
  refine ⟨by decide, by decide, by decide, ⟨⟨0, 0, by decide, by decide, by decide, ⟨by decide, Or.inl rfl⟩, ⟨by decide, Or.inl rfl⟩⟩, by decide⟩, ?_⟩
  rintro ⟨j, k, hj, -, -, -, -, h | ⟨-, h⟩⟩
  · have h : 0 + j = 5 := h
    have hj : j < 1 := hj
    omega
  · have h : 0 + j = 5 + 64 := h
    have hj : j < 1 := hj
    omega

/-- No covered cell is lit on the unlit screen. -/
theorem witness_DrawInvertsTheCoveredCells_unlit (r c : Nat) : cellAt ({ canvas with cells := clearGrid } : State).cells r c = false := by
  show cellAt clearGrid r c = false
  unfold cellAt rowAt clearGrid
  by_cases h : r < 64 <;> simp [h]

/-- DR-10: the first draw, and the state it leaves. -/
theorem witness_DrawingTwiceRestoresTheScreen :
    ((1 : Nibble) ≠ 0 ∧ canvas.i.toNat + spriteBytes 1 ≤ 0x1000) ∧
    ∃ t, exec (.drw 0 1 1) canvas = .next t ∧ t.cells = t.cells ∧ t.extended = canvas.extended ∧ t.params = canvas.params ∧
      t.i = canvas.i ∧ (∀ a, byteAt t a = byteAt canvas a) ∧ t.v[(0 : Reg)] = canvas.v[(0 : Reg)] ∧
      t.v[(1 : Reg)] = canvas.v[(1 : Reg)] := by
  refine ⟨by decide, setFlag true { canvas with cells := lit [(0, 1)] }, ?_, rfl, rfl, rfl, rfl, fun _ => rfl, by decide, by decide⟩
  have h : draw canvas.v[(0 : Reg)] canvas.v[(1 : Reg)] 1 canvas = .drawn (lit [(0, 1)]) true := by decide +kernel
  show execDrw 0 1 1 canvas = _
  unfold execDrw
  rw [h]

/-- One byte too many for each size (DR-12), and the no-op (DR-7). -/
theorem witness_DrawFaultOrNoOpKeepsTheScreen :
    ((2 : Nibble) ≠ 0 ∧ 0x1000 < ({ start with i := 0x0FFF } : State).i.toNat + spriteBytes 2) ∧
    (canvas.extended = true ∧ 0x1000 < ({ canvas with i := 0x0FE1 } : State).i.toNat + spriteBytes 0) ∧
    ((0 : Nibble) = 0 ∧ start.extended = false) := by decide

/-- The lowest index that is no key, and the highest that is one, pressed. -/
theorem witness_KeyQueriesSkipAndConsume :
    0xF < (setV 2 0x10 start).v[(2 : Reg)].toNat ∧ isPressed (setV 2 0xF start).v[(2 : Reg)].toNat (setKey 0xF true start) = true := by
  decide

/-! ### Witnesses: BCD and bulk transfers -/

theorem witness_BcdStoresThreeDigits :
    memWf start.mem = true ∧ (0x200 ≤ ({ start with i := 0x0200 } : State).i.toNat) ∧
    ({ start with i := 0x0FFD } : State).i.toNat + 3 ≤ 0x1000 := by decide

/-- All sixteen registers at both ends of the user region. -/
theorem witness_StoreRegistersToMemory :
    memWf start.mem = true ∧ (0x200 ≤ ({ start with i := 0x0200 } : State).i.toNat) ∧
    ({ start with i := 0x0FF0 } : State).i.toNat + (15 : Reg).val + 1 ≤ 0x1000 := by decide

theorem witness_LoadRegistersFromMemory :
    ({ start with i := 0x0FF0 } : State).i.toNat + (15 : Reg).val + 1 ≤ 0x1000 ∧
    ({ start with i := 0x0000 } : State).i.toNat + (15 : Reg).val + 1 ≤ 0x1000 := by decide

/-- The last index that transfers and the first that does not. -/
theorem witness_RplTransfersWithinEightFlags :
    (7 : Reg).val ≤ 7 ∧ 7 < (8 : Reg).val ∧ (7 : Reg).val = (7 : Fin 8).val ∧ (7 : Reg) ≤ 7 := by decide

/-- Below and above the user region (K-2, K-3, K-4), and a load that leaves the space (K-10). -/
theorem witness_BulkFaultsKeepTheEarlierAccesses :
    memWf start.mem = true ∧ (Instr.ldB 4 = .ldB 4 ∧ bcdDigits 0 = bcdDigits start.v[(4 : Reg)]) ∧
    ¬ (0x200 ≤ ({ start with i := 0x01FF } : State).i.toNat ∧
      ({ start with i := 0x01FF } : State).i.toNat + (bcdDigits 0).length ≤ 0x1000) ∧
    ¬ (0x200 ≤ ({ start with i := 0x0FFE } : State).i.toNat ∧
      ({ start with i := 0x0FFE } : State).i.toNat + (bcdDigits 0).length ≤ 0x1000) ∧
    ¬ (0x200 ≤ ({ start with i := 0x0FFE } : State).i.toNat ∧
      ({ start with i := 0x0FFE } : State).i.toNat + (regsUpTo 2 start).length ≤ 0x1000) ∧
    0x1000 < ({ start with i := 0x0FFE } : State).i.toNat + (2 : Reg).val + 1 := by decide

/-! ### Witnesses: whole-machine rules -/

/-- Each of the four routes, taken by a running machine. -/
theorem witness_FourRoutesToStopped :
    (placed 0x00FD).runState = .running ∧
    peek (step { placed 0x00FD with stopRequested := true }) (fun t => t.runState) = some .stopped ∧
    peek (step (placed 0x00FD)) (fun t => t.runState) = some .stopped ∧
    peek (step (placed 0x1200)) (fun t => t.runState) = some .stopped ∧
    peek (step (withQuirk (fun p => { p with qSelfLoopBnnn := true }) (placed 0xB200))) (fun t => t.runState) = some .stopped ∧
    peek (step (placed 0x00EE)) (fun t => t.runState) = some .stopped := by decide

/-- Both idle states, and the reset of a stopped machine. -/
theorem witness_IdleStatesRunNoCycle :
    ((scheduled [.interpreter] State.reset).runState = .ready ∧ pendingMove (scheduled [.interpreter] State.reset) = .interpreter ∧
      (scheduled [.interpreter] State.reset).schedule = .interpreter :: []) ∧
    (scheduled [.reset] { start with runState := .stopped }).runState = .stopped ∧
    peek (step (scheduled [.reset] { start with runState := .stopped })) (fun t => t.runState) = some .ready := by decide

/-- One instruction outside each group. -/
theorem witness_UnitsAreReachedOnlyByTheirInstructions :
    exec .exit start = .next (stopNormal start) ∧ reachesFramebuffer .exit = false ∧ (∀ x, Instr.exit ≠ .skp x ∧ Instr.exit ≠ .sknp x) ∧
    (∀ x, Instr.exit ≠ .ldRVx x) ∧ (Instr.exit ≠ .ret ∧ ∀ nnn, Instr.exit ≠ .call nnn) ∧ storesToMemory .exit = false :=
  ⟨rfl, rfl, fun _ => ⟨by simp, by simp⟩, fun _ => by simp, ⟨by simp, fun _ => by simp⟩, rfl⟩

/-- A logic operation without its quirk does not write VF. -/
theorem witness_OnlyTheListedInstructionsWriteVf :
    exec (.ldImm 14 1) start = .next (setV 14 1 start) ∧ mayWriteVf start (.ldImm 14 1) = false ∧
    mayWriteVf start (.orReg 0 1) = false ∧ mayWriteVf start (.ldImm 15 1) = true := ⟨rfl, by decide, by decide, by decide⟩

end Sys2Proof.Tests
end

section
/-! PROOFS of 20_memory.md: the byte of each region (R63), and the one-byte read. -/

namespace Sys2Proof.Machine

/-! ### The byte of each region -/

/-- The small font lies from 0x000 to 0x04F (R62, R63). -/
theorem byteAt_fontSmall (s : State) (a : Nat) (h : a < 0x050) : byteAt s a = s.params.fontSmall[a] := by
  unfold byteAt unlistedByte
  rw [if_pos (by omega), dif_pos h]

/-- The big font lies from 0x050 to 0x0B3 (R62, R63). -/
theorem byteAt_fontBig (s : State) (a : Nat) (hl : 0x050 ≤ a) (h : a < 0x0B4) :
    byteAt s a = s.params.fontBig[a - 0x050] := by
  unfold byteAt unlistedByte
  rw [if_pos (by omega), dif_neg (by omega), dif_pos h]

/-- The reserved region lies from 0x0B4 to 0x1FF (R62, R66). -/
theorem byteAt_sentinel (s : State) (a : Nat) (hl : 0x0B4 ≤ a) (h : a < 0x200) : byteAt s a = s.params.sentinel := by
  unfold byteAt unlistedByte
  rw [if_pos h, dif_neg (by omega), dif_neg (by omega), if_pos h]

/-- From 0x200 on a byte is the one that the RAM list holds, or zero (R62, R63). -/
theorem byteAt_user (s : State) (a : Nat) (h : 0x200 ≤ a) : byteAt s a = (memFind s.mem a).getD 0x00 := by
  unfold byteAt
  rw [if_neg (by omega), unlistedByte_user _ _ h]

/-! ### The one-byte read -/

/-- A read inside the space answers the byte there (R63). -/
theorem memRead_inside (s : State) (a : Nat) (h : a < 0x1000) : memRead s a = some (byteAt s a) := by
  rw [memRead_eq, if_pos h]

/-- A read at or above 0x1000 fails (R63). -/
theorem memRead_outside (s : State) (a : Nat) (h : 0x1000 ≤ a) : memRead s a = none := by
  rw [memRead_eq, if_neg (by omega)]

/-- A read of at least one byte that begins at or above 0x1000 fails at its first address (R11, R63). -/
theorem readBytes_outside (s : State) (a n : Nat) (h : 0x1000 ≤ a) (hn : n ≠ 0) :
    readBytes s a n = .outOfRange a := by
  rw [readBytes_eq, if_neg (by omega), Nat.max_eq_left h]

/-- Settles O16, region by region: the byte of the region is what a read inside the space answers. -/
theorem readFollowsTheRegions : Obligations.ReadFollowsTheRegions := by
  intro s a
  refine ⟨fun h => ⟨memRead_outside s a h, readBytes_outside s a 1 h one_ne_zero⟩, fun h => ?small, fun hl h => ?big,
    fun hl h => ?reserved, fun hl h => ?user⟩
  case small =>
    rw [memRead_inside s a (by omega), byteAt_fontSmall s a h, Vector.getElem?_eq_getElem h]
  case big =>
    rw [memRead_inside s a (by omega), byteAt_fontBig s a hl h, Vector.getElem?_eq_getElem]
  case reserved =>
    rw [memRead_inside s a (by omega), byteAt_sentinel s a hl h]
  case user =>
    rw [memRead_inside s a h, byteAt_user s a hl]

end Sys2Proof.Machine
end

section
/-! PROOFS of 40_screen_control.md: the frames of the two updates of the Framebuffer unit, CLS, LOW and HIGH. -/

namespace Sys2Proof.Safety

open Sys2Proof.Machine

/-! ### Frames of the Framebuffer updates -/

/-- New cells leave every part but the cells: no other part reads them. -/
theorem frame_withCells (g : Grid) (s : State) : Frame [.cells] noReg s { s with cells := g } := by
  refine ⟨fun p hp => ?_, fun _ _ => rfl⟩
  cases p with
  | cells => exact absurd (List.mem_singleton_self _) hp
  | mem => exact fun _ => rfl
  | keys => exact fun _ => rfl
  | _ => exact rfl

/-- A mode switch leaves every part but the mode, the cells among them (R125). -/
theorem frame_setExtended (b : Bool) (s : State) : Frame [.extended] noReg s (setExtended b s) := by
  refine ⟨fun p hp => ?_, fun _ _ => rfl⟩
  cases p with
  | extended => exact absurd (List.mem_singleton_self _) hp
  | mem => exact fun _ => rfl
  | cells => exact fun _ _ => rfl
  | keys => exact fun _ => rfl
  | _ => exact rfl

/-! ### What the instructions do -/

theorem exec_cls (s : State) : exec .cls s = .next { s with cells := clearGrid } := rfl

theorem exec_low (s : State) : exec .low s = .next (setExtended false s) := rfl

theorem exec_high (s : State) : exec .high s = .next (setExtended true s) := rfl

/-- Settles O22: CLS puts the cleared grid in place of the cells, whatever the mode, and the cleared grid has no lit cell. -/
theorem clearUnlightsEveryCell : Obligations.ClearUnlightsEveryCell := by
  intro s
  exact ⟨{ s with cells := clearGrid }, exec_cls s, fun r c _ _ => cellAt_clearGrid r c, frame_withCells clearGrid s, rfl⟩

/-- Settles O24: both instructions are a mode switch, which keeps the cells. -/
theorem modeSwitchKeepsTheCells : Obligations.ModeSwitchKeepsTheCells := by
  intro s
  exact ⟨⟨setExtended false s, exec_low s, setExtended_extended false s, frame_setExtended false s⟩,
    ⟨setExtended true s, exec_high s, setExtended_extended true s, frame_setExtended true s⟩, rfl, rfl⟩

end Sys2Proof.Safety
end

section
/-! PROOFS of 41_control_flow.md: the frame of a PC update, and the compare-and-skip instructions. -/

namespace Sys2Proof.Safety

open Sys2Proof.Machine

/-! ### The frame of a PC update -/

/-- A new PC leaves every part but PC: no other part reads it. -/
theorem frame_setPc (w : Word) (s : State) : Frame [.pc] noReg s (setPc w s) := by
  refine ⟨fun p hp => ?_, fun _ _ => rfl⟩
  cases p with
  | pc => exact absurd (List.mem_singleton_self _) hp
  | mem => exact fun _ => rfl
  | cells => exact fun _ _ => rfl
  | keys => exact fun _ => rfl
  | _ => exact rfl

/-! ### The compare-and-skip instructions -/

theorem exec_seImm (x : Reg) (kk : Byte) (s : State) :
    exec (.seImm x kk) s = .next (skipIf (s.v[x] == kk) s) := rfl

theorem exec_sneImm (x : Reg) (kk : Byte) (s : State) :
    exec (.sneImm x kk) s = .next (skipIf (s.v[x] != kk) s) := rfl

theorem exec_seReg (x y : Reg) (s : State) :
    exec (.seReg x y) s = .next (skipIf (s.v[x] == s.v[y]) s) := rfl

theorem exec_sneReg (x y : Reg) (s : State) :
    exec (.sneReg x y) s = .next (skipIf (s.v[x] != s.v[y]) s) := rfl

/-- An instruction that is a skip on a tested condition moves PC 2 further where it holds, and changes PC alone (R146). -/
theorem exec_skipIf_spec {i : Instr} {s : State} {c : Bool} {p : Prop} [Decidable p]
    (hexec : exec i s = .next (skipIf c s)) (hc : c = true ↔ p) :
    ∃ t, exec i s = .next t ∧ t.pc = (if p then s.pc + 2 else s.pc) ∧ Frame [.pc] noReg s t := by
  rw [skipIf_eq_setPc] at hexec
  refine ⟨_, hexec, ?_, frame_setPc _ s⟩
  simp only [setPc_pc, hc]

/-- Settles O32: each of the four is a skip on its comparison, and its word lies in its row of the opcode table. -/
theorem skipsCompareAndSkip : Obligations.SkipsCompareAndSkip := by
  intro s x y kk
  exact ⟨exec_skipIf_spec (exec_seImm x kk s) beq_iff_eq, exec_skipIf_spec (exec_sneImm x kk s) bne_iff_ne,
    exec_skipIf_spec (exec_seReg x y s) beq_iff_eq, exec_skipIf_spec (exec_sneReg x y s) bne_iff_ne,
    Laws.TableRow.seImm x kk, Laws.TableRow.sneImm x kk, Laws.TableRow.seReg x y, Laws.TableRow.sneReg x y⟩

end Sys2Proof.Safety
end

section
/-! PROOFS of 42_register_alu.md: the frame of a V register write, and the loads and the add that set no flag. -/

namespace Sys2Proof.Safety

open Sys2Proof.Machine

/-! ### The frame of a V register write -/

/-- A write of V[x] leaves every part and every other register: no part reads a V register. -/
theorem frame_setV (x : Reg) (b : Byte) (s : State) : Frame [] (· = x) s (setV x b s) := by
  refine ⟨fun p _ => ?_, fun r hr => ?_⟩
  · cases p with
    | mem => exact fun _ => rfl
    | cells => exact fun _ _ => rfl
    | keys => exact fun _ => rfl
    | _ => exact rfl
  · rw [setV_get, if_neg (Ne.symm hr)]

/-- The register written reads back as the byte. -/
theorem setV_get_self (x : Reg) (b : Byte) (s : State) : (setV x b s).v[x] = b := by
  rw [setV_get, if_pos rfl]

/-! ### The loads and the add without flag -/

theorem exec_ldImm (x : Reg) (kk : Byte) (s : State) : exec (.ldImm x kk) s = .next (setV x kk s) := rfl

theorem exec_addImm (x : Reg) (kk : Byte) (s : State) : exec (.addImm x kk) s = .next (setV x (s.v[x] + kk) s) := rfl

theorem exec_ldReg (x y : Reg) (s : State) : exec (.ldReg x y) s = .next (setV x s.v[y] s) := rfl

/-- An instruction that is one write of V[x] puts the byte there, and changes V[x] alone (R172–R174). -/
theorem exec_setV_spec {i : Instr} {s : State} {x : Reg} {b : Byte} (hexec : exec i s = .next (setV x b s)) :
    ∃ t, exec i s = .next t ∧ t.v[x] = b ∧ Frame [] (· = x) s t :=
  ⟨setV x b s, hexec, setV_get_self x b s, frame_setV x b s⟩

/-- Settles O33: each of the three is one write of V[x], the sum of bytes wraps modulo 256, and each word lies in its row
of the opcode table. -/
theorem loadAndAddWriteTheirRegister : Obligations.LoadAndAddWriteTheirRegister := by
  intro s x y kk
  refine ⟨exec_setV_spec (exec_ldImm x kk s), ?add, exec_setV_spec (exec_ldReg x y s),
    Laws.TableRow.ldImm x kk, Laws.TableRow.addImm x kk, Laws.TableRow.ldReg x y⟩
  case add =>
    obtain ⟨t, hexec, hsum, hframe⟩ := exec_setV_spec (exec_addImm x kk s)
    exact ⟨t, hexec, by rw [hsum, BitVec.toNat_add], hframe⟩

end Sys2Proof.Safety
end

section
/-! PROOFS of 43_address_register.md: the frame of a write of I, and LD I, addr. -/

namespace Sys2Proof.Safety

open Sys2Proof.Machine

/-- A write of I leaves every other part and every register. -/
theorem frame_setI (w : Word) (s : State) : Frame [.i] noReg s (setI w s) := by
  refine ⟨fun p hp => ?_, fun _ _ => rfl⟩
  cases p with
  | i => exact absurd (List.mem_singleton_self _) hp
  | mem => exact fun _ => rfl
  | cells => exact fun _ _ => rfl
  | keys => exact fun _ => rfl
  | _ => exact rfl

/-- Zero extension keeps the value of a 12-bit address (R94). -/
@[simp] theorem zextAddr_toNat (nnn : Addr) : (zextAddr nnn).toNat = nnn.toNat :=
  BitVec.toNat_setWidth_of_le (by decide)

theorem exec_ldI (nnn : Addr) (s : State) : exec (.ldI nnn) s = .next (setI (zextAddr nnn) s) := rfl

/-- Settles O38: LD I is one write of I with the extended immediate, and its word lies in its row of the opcode table. -/
theorem loadIWritesTheImmediate : Obligations.LoadIWritesTheImmediate := by
  intro s nnn
  have hvalue : (setI (zextAddr nnn) s).i.toNat = nnn.toNat := by rw [setI_i, zextAddr_toNat]
  exact ⟨setI (zextAddr nnn) s, exec_ldI nnn s, hvalue, frame_setI _ s, Laws.TableRow.ldI nnn⟩

end Sys2Proof.Safety
end

section
/-! PROOFS, shared layer: which parts of the state an update touches, how touches compose, and the frame they give. -/

namespace Sys2Proof.Safety

open Sys2Proof.Machine

/-! ### Parts left as they are -/

/-- The field of a part is literally the same in both states. For memory that is the RAM list together with the parameters
the ROM is read from, so that every byte reads as before. -/
def Kept (p : Part) (s t : State) : Prop :=
  match p with
  | .i => t.i = s.i
  | .pc => t.pc = s.pc
  | .sp => t.sp = s.sp
  | .dt => t.dt = s.dt
  | .st => t.st = s.st
  | .rpl => t.rpl = s.rpl
  | .mem => t.mem = s.mem ∧ t.params = s.params
  | .cells => t.cells = s.cells
  | .extended => t.extended = s.extended
  | .keys => t.keys = s.keys
  | .runState => t.runState = s.runState
  | .waitReg => t.waitReg = s.waitReg
  | .stopRequested => t.stopRequested = s.stopRequested
  | .error => t.error = s.error
  | .params => t.params = s.params
  | .draws => t.draws = s.draws
  | .ticks => t.ticks = s.ticks
  | .schedule => t.schedule = s.schedule
  | .moves => t.moves = s.moves

theorem Kept.refl (p : Part) (s : State) : Kept p s s := by
  cases p with
  | mem => exact ⟨rfl, rfl⟩
  | _ => rfl

theorem Kept.trans {p : Part} {s t u : State} (h : Kept p s t) (h' : Kept p t u) : Kept p s u := by
  cases p with
  | mem => exact ⟨h'.1.trans h.1, h'.2.trans h.2⟩
  | _ => exact Eq.trans h' h

/-- A kept field reads the same. -/
theorem Kept.same {p : Part} {s t : State} (h : Kept p s t) : Same p s t := by
  cases p with
  | mem => exact fun a => byteAt_congr s t a h.2 h.1
  | cells => exact fun r c => congrArg (cellAt · r c) h
  | keys => exact fun k => congrArg (fun ks : Vector Bool 16 => ks[k]?.getD false) h
  | _ => exact h

/-- From s to t at most the listed parts and the V registers that `touched` names change. -/
def Touches (parts : List Part) (touched : Reg → Prop) (s t : State) : Prop :=
  (∀ p, p ∉ parts → Kept p s t) ∧ ∀ r : Reg, ¬ touched r → t.v[r] = s.v[r]

theorem Touches.refl (s : State) : Touches [] noReg s s :=
  ⟨fun p _ => Kept.refl p s, fun _ _ => rfl⟩

/-- Touches of two updates in a row: of the first, then of the second. -/
theorem Touches.trans {P Q : List Part} {T U : Reg → Prop} {s t u : State} (h : Touches P T s t) (h' : Touches Q U t u) :
    Touches (P ++ Q) (fun r => T r ∨ U r) s u := by
  refine ⟨fun p hp => ?_, fun r hr => ?_⟩
  · rw [List.mem_append, not_or] at hp
    exact (h.1 p hp.1).trans (h'.1 p hp.2)
  · rw [not_or] at hr
    exact (h'.2 r hr.2).trans (h.2 r hr.1)

/-- What is touched may be overstated. -/
theorem Touches.mono {P Q : List Part} {T U : Reg → Prop} {s t : State} (h : Touches P T s t) (hP : P ⊆ Q)
    (hT : ∀ r, T r → U r) : Touches Q U s t :=
  ⟨fun p hp => h.1 p fun hm => hp (hP hm), fun r hr => h.2 r fun ht => hr (hT r ht)⟩

/-- An update that names no V register may be said to touch any. -/
theorem Touches.of_noReg {P : List Part} {T : Reg → Prop} {s t : State} (h : Touches P noReg s t) : Touches P T s t :=
  h.mono (List.Subset.refl P) fun _ => False.elim

/-- Touches of an update followed by one that names no V register. -/
theorem Touches.andThen {P Q : List Part} {T : Reg → Prop} {s t u : State} (h : Touches P T s t)
    (h' : Touches Q noReg t u) : Touches (P ++ Q) T s u :=
  (h.trans h').mono (List.Subset.refl _) fun _ hr => hr.elim id False.elim

/-- What is not touched reads the same. -/
theorem Touches.frame {P : List Part} {T : Reg → Prop} {s t : State} (h : Touches P T s t) : Frame P T s t :=
  ⟨fun p hp => (h.1 p hp).same, h.2⟩

/-- Every part but the one that an update writes is kept, and no V register is touched. -/
theorem touches_of_kept {P : List Part} {s t : State} (h : ∀ p, p ∉ P → Kept p s t) (hv : t.v = s.v) :
    Touches P noReg s t :=
  ⟨h, fun r _ => congrArg (fun v : Vector Byte 16 => v[r]) hv⟩

/-! ### What the updates touch -/

section

variable (s : State)

theorem touches_setI (w : Word) : Touches [.i] noReg s (setI w s) :=
  touches_of_kept (fun p hp => by cases p <;> simp_all [Kept]) rfl

theorem touches_setPc (w : Word) : Touches [.pc] noReg s (setPc w s) :=
  touches_of_kept (fun p hp => by cases p <;> simp_all [Kept]) rfl

theorem touches_withSp (w : Word) : Touches [.sp] noReg s { s with sp := w } :=
  touches_of_kept (fun p hp => by cases p <;> simp_all [Kept]) rfl

theorem touches_withDt (b : Byte) : Touches [.dt] noReg s { s with dt := b } :=
  touches_of_kept (fun p hp => by cases p <;> simp_all [Kept]) rfl

theorem touches_withSt (b : Byte) : Touches [.st] noReg s { s with st := b } :=
  touches_of_kept (fun p hp => by cases p <;> simp_all [Kept]) rfl

theorem touches_withRpl (f : Vector Byte 8) : Touches [.rpl] noReg s { s with rpl := f } :=
  touches_of_kept (fun p hp => by cases p <;> simp_all [Kept]) rfl

theorem touches_withMem (m : Memory) : Touches [.mem] noReg s { s with mem := m } :=
  touches_of_kept (fun p hp => by cases p <;> simp_all [Kept]) rfl

theorem touches_withCells (g : Grid) : Touches [.cells] noReg s { s with cells := g } :=
  touches_of_kept (fun p hp => by cases p <;> simp_all [Kept]) rfl

theorem touches_setExtended (b : Bool) : Touches [.extended] noReg s (setExtended b s) :=
  touches_of_kept (fun p hp => by cases p <;> simp_all [Kept]) rfl

theorem touches_setKey (k : Nat) (b : Bool) : Touches [.keys] noReg s (setKey k b s) :=
  touches_of_kept (fun p hp => by cases p <;> simp_all [Kept]) rfl

theorem touches_withRunState (r : RunState) : Touches [.runState] noReg s { s with runState := r } :=
  touches_of_kept (fun p hp => by cases p <;> simp_all [Kept]) rfl

theorem touches_stopNormal : Touches [.runState] noReg s (stopNormal s) :=
  touches_of_kept (fun p hp => by cases p <;> simp_all [Kept]) rfl

theorem touches_waitFor (x : Reg) : Touches [.waitReg, .runState] noReg s { s with waitReg := x, runState := .halted } :=
  touches_of_kept (fun p hp => by cases p <;> simp_all [Kept]) rfl

theorem touches_fatalStop (r : ErrorRecord) : Touches [.runState, .error] noReg s (fatalStop r s) :=
  touches_of_kept (fun p hp => by cases p <;> simp_all [Kept]) rfl

theorem touches_requestStop : Touches [.stopRequested] noReg s (requestStop s) :=
  touches_of_kept (fun p hp => by cases p <;> simp_all [Kept]) rfl

theorem touches_takeDraw : Touches [.draws] noReg s (takeDraw s) :=
  touches_of_kept (fun p hp => by cases p <;> simp_all [Kept]) rfl

theorem touches_takeMove : Touches [.schedule, .moves] noReg s (takeMove s) :=
  touches_of_kept (fun p hp => by cases p <;> simp_all [Kept]) rfl

/-- A new register file touches the registers in which it differs. -/
theorem touches_withV {T : Reg → Prop} (v : Vector Byte 16) (h : ∀ r : Reg, ¬ T r → v[r] = s.v[r]) :
    Touches [] T s { s with v := v } :=
  ⟨fun p _ => by cases p <;> simp [Kept], h⟩

theorem touches_setV (x : Reg) (b : Byte) : Touches [] (· = x) s (setV x b s) :=
  touches_withV s _ (frame_setV x b s).2

/-- The timer step touches the timers and the draw index (R297). -/
theorem touches_timerStep (tick : Bool) : Touches [.dt, .st, .ticks] noReg s (timerStep tick s) := by
  rw [timerStep_eq]
  split
  · exact (Touches.refl s).mono (List.nil_subset _) fun _ => id
  · exact touches_of_kept (fun p hp => by cases p <;> simp_all [Kept]) rfl

end

end Sys2Proof.Safety
end

section
/-! PROOFS, shared layer: everything an executed instruction can do, said once, and the parts of the state it touches. -/

namespace Sys2Proof.Safety

open Sys2Proof.Machine

/-! ### The ends of the instructions that can fail -/

/-- `raise` is a fatal stop (R286). -/
theorem touches_raise (kind : ErrorKind) (addr : Option Nat) (i : Instr) (s : State) :
    ∃ t, raise kind addr i s = .next t ∧ Touches [.runState, .error] noReg s t :=
  ⟨_, rfl, touches_fatalStop s _⟩

theorem exec_jp (nnn : Addr) (s : State) :
    exec (.jp nnn) s =
      .next (if zextAddr nnn = pc0 s then stopNormal (setPc (zextAddr nnn) s) else setPc (zextAddr nnn) s) := by
  show execJp nnn s = _
  unfold execJp
  split <;> rfl

theorem exec_jpV0 (nnn : Addr) (s : State) :
    exec (.jpV0 nnn) s =
      .next (if s.params.qSelfLoopBnnn = true ∧ jumpTarget nnn s = pc0 s then stopNormal (setPc (jumpTarget nnn s) s)
        else setPc (jumpTarget nnn s) s) := by
  show execJpV0 nnn s = _
  unfold execJpV0
  simp only [Bool.and_eq_true, beq_iff_eq]
  split <;> rfl

/-- A CALL to its own address pushes nothing (R150). -/
theorem exec_call_self {nnn : Addr} {s : State} (h : zextAddr nnn = pc0 s) :
    exec (.call nnn) s = .next (stopNormal (setPc (zextAddr nnn) s)) :=
  if_pos h

/-- Any other CALL pushes and jumps, or raises what the push answers (R149). -/
theorem exec_call_other {nnn : Addr} {s : State} (h : zextAddr nnn ≠ pc0 s) :
    exec (.call nnn) s =
      match push s.pc s with
      | .pushed s' => .next (setPc (zextAddr nnn) s')
      | .failed kind addr s' => raise kind addr (.call nnn) s' :=
  (if_neg h).trans rfl

/-- Everything a CALL to another address can do, at any SP. -/
theorem exec_call_cases {nnn : Addr} {s : State} (h : zextAddr nnn ≠ pc0 s) :
    ∃ m, (memWf s.mem = true → memWf m = true) ∧
      ((s.sp ≠ spTop ∧ exec (.call nnn) s = .next (setPc (zextAddr nnn) { s with mem := m, sp := s.sp + 2 })) ∨
        ∃ kind addr, exec (.call nnn) s = raise kind addr (.call nnn) { s with mem := m }) := by
  rw [exec_call_other h]
  obtain ⟨-, e⟩ | ⟨m, hm, ⟨htop, e⟩ | ⟨addr, e⟩⟩ := push_cases s.pc s
  · exact ⟨s.mem, id, .inr ⟨_, _, by rw [e]⟩⟩
  · exact ⟨m, hm, .inl ⟨htop, by rw [e]⟩⟩
  · exact ⟨m, hm, .inr ⟨_, _, by rw [e]⟩⟩

theorem exec_ret (s : State) :
    exec .ret s =
      match pop s with
      | .popped w s' => .next (setPc w s')
      | .failed kind addr s' => raise kind addr .ret s' := rfl

/-- Everything a RET can do, at any SP: an error before or after SP is lowered, or a jump to at most 0xFFF. -/
theorem exec_ret_cases (s : State) :
    (∃ kind addr, exec .ret s = raise kind addr .ret s) ∨
      (s.sp ≠ spBase ∧ ((∃ kind addr, exec .ret s = raise kind addr .ret { s with sp := s.sp - 2 }) ∨
        ∃ w : Word, w.toNat ≤ 0xFFF ∧ exec .ret s = .next (setPc w { s with sp := s.sp - 2 }))) := by
  rw [exec_ret]
  obtain ⟨-, e⟩ | ⟨hbase, ⟨kind, addr, e⟩ | ⟨w, hw, e⟩⟩ := pop_cases s
  · exact .inl ⟨_, _, by rw [e]⟩
  · exact .inr ⟨hbase, .inl ⟨_, _, by rw [e]⟩⟩
  · exact .inr ⟨hbase, .inr ⟨w, hw, by rw [e]⟩⟩

/-- Fx33 is a write of the digits (R266). -/
theorem exec_ldB (x : Reg) (s : State) :
    exec (.ldB x) s =
      match writeBytes (bcdDigits s.v[x]) s.i.toNat s with
      | .done s' => .next s'
      | .outOfRange s' addr => raise .addressOutOfRange (some addr) (.ldB x) s' := rfl

/-- Everything Fx33 can do: the RAM alone changes, and the transfer ends or fails. -/
theorem exec_ldB_cases (x : Reg) (s : State) :
    ∃ m, (memWf s.mem = true → memWf m = true) ∧
      (exec (.ldB x) s = .next { s with mem := m } ∨
        ∃ kind addr, exec (.ldB x) s = raise kind addr (.ldB x) { s with mem := m }) := by
  rw [exec_ldB]
  obtain ⟨m, hm, e | ⟨addr, e⟩⟩ := writeBytes_cases (bcdDigits s.v[x]) s.i.toNat s
  · exact ⟨m, hm, .inl (by rw [e])⟩
  · exact ⟨m, hm, .inr ⟨_, _, by rw [e]⟩⟩

/-- Fx55 is a write of V0..Vx (R267). -/
theorem exec_ldMemVx (x : Reg) (s : State) :
    exec (.ldMemVx x) s =
      match writeBytes (regsUpTo x s) s.i.toNat s with
      | .done s' => .next (loadStoreI x s')
      | .outOfRange s' addr => raise .addressOutOfRange (some addr) (.ldMemVx x) s' := rfl

/-- Everything Fx55 can do: the RAM alone changes, then I where the transfer ends. -/
theorem exec_ldMemVx_cases (x : Reg) (s : State) :
    ∃ m, (memWf s.mem = true → memWf m = true) ∧
      (exec (.ldMemVx x) s = .next (loadStoreI x { s with mem := m }) ∨
        ∃ kind addr, exec (.ldMemVx x) s = raise kind addr (.ldMemVx x) { s with mem := m }) := by
  rw [exec_ldMemVx]
  obtain ⟨m, hm, e | ⟨addr, e⟩⟩ := writeBytes_cases (regsUpTo x s) s.i.toNat s
  · exact ⟨m, hm, .inl (by rw [e])⟩
  · exact ⟨m, hm, .inr ⟨_, _, by rw [e]⟩⟩

/-- Fx65 is a load of V0..Vx (R269). -/
theorem exec_ldVxMem (x : Reg) (s : State) :
    exec (.ldVxMem x) s =
      match loadRegs (x.val + 1) 0 s.i.toNat s with
      | .done s' => .next (loadStoreI x s')
      | .outOfRange s' addr => raise .addressOutOfRange (some addr) (.ldVxMem x) s' := rfl

/-- Everything Fx65 can do: V0..Vx alone change, then I where the transfer ends. -/
theorem exec_ldVxMem_cases (x : Reg) (s : State) :
    ∃ v : Vector Byte 16, (∀ r : Reg, ¬ r ≤ x → v[r] = s.v[r]) ∧
      (exec (.ldVxMem x) s = .next (loadStoreI x { s with v := v }) ∨
        ∃ kind addr, exec (.ldVxMem x) s = raise kind addr (.ldVxMem x) { s with v := v }) := by
  rw [exec_ldVxMem]
  obtain ⟨v, hv, e⟩ := loadRegs_eq (x.val + 1) 0 s.i.toNat s
  refine ⟨v, fun r hr => ?_, ?_⟩
  · have hlt : x.val < r.val := not_le.1 hr
    rw [hv r, if_neg (by omega)]
  · rw [e]
    by_cases hfits : s.i.toNat + (x.val + 1) ≤ 0x1000 ∨ x.val + 1 = 0
    · exact .inl (by rw [if_pos hfits])
    · exact .inr ⟨_, _, by rw [if_neg hfits]⟩

/-- DRW answers what the draw does (R224). -/
theorem exec_drw (x y : Reg) (n : Nibble) (s : State) :
    exec (.drw x y n) s =
      match draw s.v[x] s.v[y] n s with
      | .noop => .next s
      | .drawn g hit => .next (setFlag hit { s with cells := g })
      | .outOfRange addr => raise .addressOutOfRange (some addr) (.drw x y n) s
      | .indexOverflow => .fault .framebufferIndexOverflow := rfl

/-- Everything a DRW can do: the no-op, new cells and a flag, or the error of its read. -/
theorem exec_drw_cases (x y : Reg) (n : Nibble) (s : State) :
    exec (.drw x y n) s = .next s ∨
      (∃ g hit, exec (.drw x y n) s = .next (setV vf (flagByte hit) { s with cells := g })) ∨
      ∃ addr, exec (.drw x y n) s = raise .addressOutOfRange addr (.drw x y n) s := by
  rw [exec_drw, draw_eq]
  cases readSprite n s with
  | noop => exact .inl rfl
  | sprite sp => exact .inr (.inl ⟨_, _, rfl⟩)
  | outOfRange addr => exact .inr (.inr ⟨_, rfl⟩)

theorem exec_ldRVx (x : Reg) (s : State) :
    exec (.ldRVx x) s =
      if 7 < x.val then raise .rplIndexOutOfRange none (.ldRVx x) s else .next (copyToRpl (x.val + 1) s) := rfl

theorem exec_ldVxR (x : Reg) (s : State) :
    exec (.ldVxR x) s =
      if 7 < x.val then raise .rplIndexOutOfRange none (.ldVxR x) s else .next (copyFromRpl (x.val + 1) s) := rfl

/-! ### What the composed updates touch -/

theorem touches_skipIf (c : Bool) (s : State) : Touches [.pc] noReg s (skipIf c s) := by
  rw [skipIf_eq_setPc]
  exact touches_setPc s _

theorem touches_loadStoreI (x : Reg) (s : State) : Touches [.i] noReg s (loadStoreI x s) := by
  rw [loadStoreI_eq_setI]
  exact touches_setI s _

theorem touches_setVThenFlag (x : Reg) (b : Byte) (c : Bool) (s : State) :
    Touches [] (fun r => r = x ∨ r = vf) s (setVThenFlag x b c s) :=
  (touches_setV s x b).trans (touches_setV _ vf _)

theorem touches_logicFlag (s : State) :
    Touches [] (fun r => s.params.qLogicVfReset = true ∧ r = vf) s (logicFlag s) := by
  unfold logicFlag
  split
  · next h => exact (touches_setV s vf 0).mono (List.Subset.refl _) fun r hr => ⟨h, hr⟩
  · exact (Touches.refl s).of_noReg

theorem touches_consume (k : Nat) (s : State) : Touches [.keys] noReg s (consume k s) := by
  rw [consume_eq_setKey]
  exact touches_setKey s k false

theorem touches_sknpConsume (k : Nat) (s : State) : Touches [.keys] noReg s (sknpConsume k s) := by
  unfold sknpConsume
  split
  · exact touches_consume k s
  · exact (Touches.refl s).mono (List.nil_subset _) fun _ => id

theorem touches_copyToRpl (n : Nat) (s : State) : Touches [.rpl] noReg s (copyToRpl n s) := by
  rw [copyToRpl_eq]
  exact touches_withRpl s _

theorem touches_copyFromRpl {n : Nat} (hn : n ≤ 8) (s : State) :
    Touches [] (fun r => r.val < n) s (copyFromRpl n s) := by
  rw [copyFromRpl_eq]
  exact touches_withV s _ fun r hr => by rw [copyFromRpl_get n s r hn, dif_neg hr]

/-! ### What an instruction touches -/

/-- The parts of the state, V registers apart, that an instruction may change, its errors included. -/
def footprint : Instr → List Part
  | .scd _ | .cls | .scr | .scl => [.cells]
  | .low | .high => [.extended]
  | .exit => [.runState]
  | .jp _ | .jpV0 _ => [.pc, .runState]
  | .call _ => [.pc, .sp, .mem, .runState, .error]
  | .ret => [.pc, .sp, .runState, .error]
  | .seImm _ _ | .sneImm _ _ | .seReg _ _ | .sneReg _ _ => [.pc]
  | .ldImm _ _ | .addImm _ _ | .ldReg _ _ | .orReg _ _ | .andReg _ _ | .xorReg _ _ | .addReg _ _ | .subReg _ _
  | .shr _ _ | .subn _ _ | .shl _ _ | .ldVxDt _ => []
  | .ldI _ | .addI _ | .ldF _ | .ldHf _ => [.i]
  | .rnd _ _ => [.draws]
  | .drw _ _ _ => [.cells, .runState, .error]
  | .skp _ | .sknp _ => [.pc, .keys]
  | .ldVxK _ => [.waitReg, .runState]
  | .ldDtVx _ => [.dt]
  | .ldStVx _ => [.st]
  | .ldB _ => [.mem, .runState, .error]
  | .ldMemVx _ => [.mem, .i, .runState, .error]
  | .ldVxMem _ => [.i, .runState, .error]
  | .ldRVx _ => [.rpl, .runState, .error]
  | .ldVxR _ => [.runState, .error]

/-- The V registers that an instruction may change in a state. -/
def destinations (s : State) : Instr → Reg → Prop
  | .ldImm x _ | .addImm x _ | .ldReg x _ | .rnd x _ | .ldVxDt x => (· = x)
  | .orReg x _ | .andReg x _ | .xorReg x _ => fun r => r = x ∨ (s.params.qLogicVfReset = true ∧ r = vf)
  | .addReg x _ | .subReg x _ | .shr x _ | .subn x _ | .shl x _ => fun r => r = x ∨ r = vf
  | .addI _ | .drw _ _ _ => (· = vf)
  | .ldVxMem x => (· ≤ x)
  | .ldVxR x => fun r => r ≤ x ∧ x.val ≤ 7
  | .scd _ | .cls | .ret | .scr | .scl | .exit | .low | .high | .jp _ | .call _ | .seImm _ _ | .sneImm _ _
  | .seReg _ _ | .sneReg _ _ | .ldI _ | .jpV0 _ | .skp _ | .sknp _ | .ldVxK _ | .ldDtVx _ | .ldStVx _ | .ldF _
  | .ldHf _ | .ldB _ | .ldMemVx _ | .ldRVx _ => noReg

/-- An instruction that raises an error after an update touches what the update does, and the run state and the record. -/
theorem touches_of_raise {P Q : List Part} {T U : Reg → Prop} {i j : Instr} {s s' : State} {kind : ErrorKind}
    {addr : Option Nat} (hexec : exec i s = raise kind addr j s') (h : Touches P T s s')
    (hQ : P ++ [.runState, .error] ⊆ Q) (hU : ∀ r, T r → U r) : ∃ t, exec i s = .next t ∧ Touches Q U s t := by
  obtain ⟨t, ht, hstop⟩ := touches_raise kind addr j s'
  exact ⟨t, hexec.trans ht, (h.andThen hstop).mono hQ hU⟩

/-- Every instruction ends in a next state and changes at most its footprint and its destinations. -/
theorem exec_touches (i : Instr) (s : State) :
    ∃ t, exec i s = .next t ∧ Touches (footprint i) (destinations s i) s t := by
  cases i with
  | scd | cls | scr | scl => exact ⟨_, rfl, touches_withCells s _⟩
  | exit => exact ⟨_, rfl, touches_stopNormal s⟩
  | low | high => exact ⟨_, rfl, touches_setExtended s _⟩
  | jp nnn =>
    refine ⟨_, exec_jp nnn s, ?_⟩
    split
    · exact (touches_setPc s _).andThen (touches_stopNormal _)
    · exact (touches_setPc s _).mono (by simp [footprint]) fun _ => id
  | jpV0 nnn =>
    refine ⟨_, exec_jpV0 nnn s, ?_⟩
    split
    · exact (touches_setPc s _).andThen (touches_stopNormal _)
    · exact (touches_setPc s _).mono (by simp [footprint]) fun _ => id
  | call nnn =>
    by_cases hself : zextAddr nnn = pc0 s
    · exact ⟨_, exec_call_self hself,
        ((touches_setPc s _).andThen (touches_stopNormal _)).mono (by simp [footprint]) fun _ => id⟩
    · obtain ⟨m, -, ⟨-, e⟩ | ⟨kind, addr, e⟩⟩ := exec_call_cases hself
      · exact ⟨_, e, (((touches_withMem s m).andThen (touches_withSp _ (s.sp + 2))).andThen (touches_setPc _ _)).mono
          (by simp [footprint]) fun _ => id⟩
      · exact touches_of_raise e (touches_withMem s m) (by simp [footprint]) fun _ => id
  | ret =>
    obtain ⟨kind, addr, e⟩ | ⟨-, ⟨kind, addr, e⟩ | ⟨w, -, e⟩⟩ := exec_ret_cases s
    · exact touches_of_raise e (Touches.refl s) (by simp [footprint]) fun _ => id
    · exact touches_of_raise e (touches_withSp s _) (by simp [footprint]) fun _ => id
    · exact ⟨_, e, ((touches_withSp s _).andThen (touches_setPc _ _)).mono (by simp [footprint]) fun _ => id⟩
  | seImm | sneImm | seReg | sneReg => exact ⟨_, rfl, touches_skipIf _ s⟩
  | ldImm x | addImm x | ldReg x | ldVxDt x => exact ⟨_, rfl, touches_setV s x _⟩
  | orReg x | andReg x | xorReg x => exact ⟨_, rfl, (touches_setV s x _).trans (touches_logicFlag _)⟩
  | addReg x | subReg x | shr x | subn x | shl x => exact ⟨_, rfl, touches_setVThenFlag x _ _ s⟩
  | ldI | ldF | ldHf => exact ⟨_, rfl, touches_setI s _⟩
  | addI x =>
    exact ⟨_, rfl, ((touches_setI s _).of_noReg.trans (touches_setV _ vf _)).mono (by simp [footprint])
      fun _ => or_self_iff.1⟩
  | rnd x kk =>
    exact ⟨_, rfl, (touches_setV s x _).andThen (touches_takeDraw _)⟩
  | drw x y n =>
    obtain e | ⟨g, hit, e⟩ | ⟨addr, e⟩ := exec_drw_cases x y n s
    · exact ⟨_, e, (Touches.refl s).mono (List.nil_subset _) fun _ => False.elim⟩
    · exact ⟨_, e, ((touches_withCells s g).of_noReg.trans (touches_setV _ vf _)).mono (by simp [footprint])
        fun _ => or_self_iff.1⟩
    · exact touches_of_raise e (Touches.refl s) (by simp [footprint]) fun _ => False.elim
  | skp x => exact ⟨_, rfl, ((touches_consume _ s).andThen (touches_skipIf _ _)).mono (by simp [footprint]) fun _ => id⟩
  | sknp x =>
    exact ⟨_, rfl, ((touches_sknpConsume _ s).andThen (touches_skipIf _ _)).mono (by simp [footprint]) fun _ => id⟩
  | ldVxK x => exact ⟨_, rfl, touches_waitFor s x⟩
  | ldDtVx x => exact ⟨_, rfl, touches_withDt s _⟩
  | ldStVx x => exact ⟨_, rfl, touches_withSt s _⟩
  | ldB x =>
    obtain ⟨m, -, e | ⟨kind, addr, e⟩⟩ := exec_ldB_cases x s
    · exact ⟨_, e, (touches_withMem s m).mono (by simp [footprint]) fun _ => id⟩
    · exact touches_of_raise e (touches_withMem s m) (by simp [footprint]) fun _ => id
  | ldMemVx x =>
    obtain ⟨m, -, e | ⟨kind, addr, e⟩⟩ := exec_ldMemVx_cases x s
    · exact ⟨_, e, ((touches_withMem s m).andThen (touches_loadStoreI x _)).mono (by simp [footprint]) fun _ => id⟩
    · exact touches_of_raise e (touches_withMem s m) (by simp [footprint]) fun _ => id
  | ldVxMem x =>
    obtain ⟨v, hv, e | ⟨kind, addr, e⟩⟩ := exec_ldVxMem_cases x s
    · exact ⟨_, e, ((touches_withV s v hv).andThen (touches_loadStoreI x _)).mono (by simp [footprint]) fun _ => id⟩
    · exact touches_of_raise e (touches_withV s v hv) (by simp [footprint]) fun _ => id
  | ldRVx x =>
    by_cases hx : 7 < x.val
    · exact touches_of_raise ((exec_ldRVx x s).trans (if_pos hx)) (Touches.refl s) (by simp [footprint]) fun _ => id
    · exact ⟨_, (exec_ldRVx x s).trans (if_neg hx), (touches_copyToRpl _ s).mono (by simp [footprint]) fun _ => id⟩
  | ldVxR x =>
    by_cases hx : 7 < x.val
    · exact touches_of_raise ((exec_ldVxR x s).trans (if_pos hx)) (Touches.refl s) (by simp [footprint])
        fun _ => False.elim
    · exact ⟨_, (exec_ldVxR x s).trans (if_neg hx), (touches_copyFromRpl (by omega) s).mono (by simp [footprint])
        fun r hr => ⟨Nat.lt_succ_iff.1 hr, by omega⟩⟩

theorem next_unique {i : Instr} {s t u : State} (h : exec i s = .next t) (e : exec i s = .next u) : t = u :=
  Host.Outcome.next.inj (h.symm.trans e)

/-- Whatever state an instruction ends in differs at most in its footprint and its destinations. -/
theorem touches_of_exec {i : Instr} {s t : State} (h : exec i s = .next t) :
    Touches (footprint i) (destinations s i) s t := by
  obtain ⟨u, hu, htouch⟩ := exec_touches i s
  obtain rfl := next_unique hu h
  exact htouch

/-- No instruction writes a parameter (R6). -/
theorem exec_params {i : Instr} {s t : State} (h : exec i s = .next t) : t.params = s.params :=
  (touches_of_exec h).1 .params (by cases i <;> simp [footprint])

end Sys2Proof.Safety
end

section
/-! PROOFS of 10_state.md §2–§4 and 60_exceptions.md §1–§2: how an instruction can stop the machine, and the invariant. -/

namespace Sys2Proof.Safety

open Sys2Proof.Machine

/-! ### How an instruction can stop the machine -/

/-- The normal stops of an instruction: EXIT, and a jump or call to its own address (R134, R150, R198). -/
def StopsNormally (s : State) : Instr → Prop
  | .exit => True
  | .jp nnn | .call nnn => zextAddr nnn = pc0 s
  | .jpV0 nnn => s.params.qSelfLoopBnnn = true ∧ jumpTarget nnn s = pc0 s
  | _ => False

/-- The state after a fatal stop in which the record names the instruction's own address (R286). -/
def StopsFatally (s t : State) : Prop := t.runState = .stopped ∧ ∃ r, t.error = some r ∧ r.pc0 = pc0 s

/-- An error that an instruction raises with PC as it was is a fatal stop at its own address. -/
theorem stopsFatally_of_raise {i j : Instr} {s s' t : State} {kind : ErrorKind} {addr : Option Nat}
    (e : exec i s = raise kind addr j s') (hpc : s'.pc = s.pc) (h : exec i s = .next t) : StopsFatally s t := by
  obtain rfl := next_unique h e
  exact ⟨rfl, _, rfl, by simp only [pc0, hpc]⟩

/-- Everything an instruction can do to the error record and the run state: nothing but a wait, a normal stop, a fatal
stop. -/
theorem exec_stop_cases {i : Instr} {s t : State} (h : exec i s = .next t) :
    (t.error = s.error ∧ (t.runState = s.runState ∨ t.runState = .halted)) ∨
      (t.error = s.error ∧ t.runState = .stopped ∧ StopsNormally s i) ∨ StopsFatally s t := by
  cases i with
  | exit => obtain rfl := next_unique h rfl; exact .inr (.inl ⟨rfl, rfl, trivial⟩)
  | ldVxK x => obtain rfl := next_unique h rfl; exact .inl ⟨rfl, .inr rfl⟩
  | jp nnn =>
    obtain rfl := next_unique h (exec_jp nnn s)
    split
    · next hself => exact .inr (.inl ⟨rfl, rfl, hself⟩)
    · exact .inl ⟨rfl, .inl rfl⟩
  | jpV0 nnn =>
    obtain rfl := next_unique h (exec_jpV0 nnn s)
    split
    · next hself => exact .inr (.inl ⟨rfl, rfl, hself⟩)
    · exact .inl ⟨rfl, .inl rfl⟩
  | call nnn =>
    by_cases hself : zextAddr nnn = pc0 s
    · obtain rfl := next_unique h (exec_call_self hself)
      exact .inr (.inl ⟨rfl, rfl, hself⟩)
    · obtain ⟨m, -, ⟨-, e⟩ | ⟨kind, addr, e⟩⟩ := exec_call_cases hself
      · obtain rfl := next_unique h e; exact .inl ⟨rfl, .inl rfl⟩
      · exact .inr (.inr (stopsFatally_of_raise e rfl h))
  | ret =>
    obtain ⟨kind, addr, e⟩ | ⟨-, ⟨kind, addr, e⟩ | ⟨w, -, e⟩⟩ := exec_ret_cases s
    · exact .inr (.inr (stopsFatally_of_raise e rfl h))
    · exact .inr (.inr (stopsFatally_of_raise e rfl h))
    · obtain rfl := next_unique h e; exact .inl ⟨rfl, .inl rfl⟩
  | drw x y n =>
    obtain e | ⟨g, hit, e⟩ | ⟨addr, e⟩ := exec_drw_cases x y n s
    · obtain rfl := next_unique h e; exact .inl ⟨rfl, .inl rfl⟩
    · obtain rfl := next_unique h e; exact .inl ⟨rfl, .inl rfl⟩
    · exact .inr (.inr (stopsFatally_of_raise e rfl h))
  | ldB x =>
    obtain ⟨m, -, e | ⟨kind, addr, e⟩⟩ := exec_ldB_cases x s
    · obtain rfl := next_unique h e; exact .inl ⟨rfl, .inl rfl⟩
    · exact .inr (.inr (stopsFatally_of_raise e rfl h))
  | ldMemVx x =>
    obtain ⟨m, -, e | ⟨kind, addr, e⟩⟩ := exec_ldMemVx_cases x s
    · obtain rfl := next_unique h e; rw [loadStoreI_eq_setI]; exact .inl ⟨rfl, .inl rfl⟩
    · exact .inr (.inr (stopsFatally_of_raise e rfl h))
  | ldVxMem x =>
    obtain ⟨v, -, e | ⟨kind, addr, e⟩⟩ := exec_ldVxMem_cases x s
    · obtain rfl := next_unique h e; rw [loadStoreI_eq_setI]; exact .inl ⟨rfl, .inl rfl⟩
    · exact .inr (.inr (stopsFatally_of_raise e rfl h))
  | ldRVx x =>
    by_cases hx : 7 < x.val
    · exact .inr (.inr (stopsFatally_of_raise ((exec_ldRVx x s).trans (if_pos hx)) rfl h))
    · obtain rfl := next_unique h ((exec_ldRVx x s).trans (if_neg hx))
      rw [copyToRpl_eq]; exact .inl ⟨rfl, .inl rfl⟩
  | ldVxR x =>
    by_cases hx : 7 < x.val
    · exact .inr (.inr (stopsFatally_of_raise ((exec_ldVxR x s).trans (if_pos hx)) rfl h))
    · obtain rfl := next_unique h ((exec_ldVxR x s).trans (if_neg hx))
      rw [copyFromRpl_eq]; exact .inl ⟨rfl, .inl rfl⟩
  | _ =>
    have hkept := (touches_of_exec h).1
    exact .inl ⟨hkept .error (by simp [footprint]), .inl (hkept .runState (by simp [footprint]))⟩

/-! ### The invariant through an instruction, field by field: each field has few writers -/

/-- The three instructions that store keep the canonical form, and no other changes the RAM (R69). -/
theorem exec_memWf {i : Instr} {s t : State} (h : exec i s = .next t) (hw : memWf s.mem = true) : memWf t.mem = true := by
  cases i with
  | call nnn =>
    by_cases hself : zextAddr nnn = pc0 s
    · obtain rfl := next_unique h (exec_call_self hself); exact hw
    · obtain ⟨m, hm, ⟨-, e⟩ | ⟨kind, addr, e⟩⟩ := exec_call_cases hself
      · obtain rfl := next_unique h e; exact hm hw
      · obtain rfl := next_unique h e; exact hm hw
  | ldB x =>
    obtain ⟨m, hm, e | ⟨kind, addr, e⟩⟩ := exec_ldB_cases x s
    · obtain rfl := next_unique h e; exact hm hw
    · obtain rfl := next_unique h e; exact hm hw
  | ldMemVx x =>
    obtain ⟨m, hm, e | ⟨kind, addr, e⟩⟩ := exec_ldMemVx_cases x s
    · obtain rfl := next_unique h e; rw [loadStoreI_eq_setI]; exact hm hw
    · obtain rfl := next_unique h e; exact hm hw
  | _ =>
    have hkept := (touches_of_exec h).1 .mem (by simp [footprint])
    rw [hkept.1]; exact hw

/-- `(I + k) mod 0x1000` is at most 0xFFF. -/
theorem wrapAddr_toNat (i : Word) (k : Nat) : (wrapAddr i k).toNat = (i.toNat + k) % 0x1000 := by
  rw [wrapAddr, BitVec.toNat_ofNat]; omega

/-- No glyph pointer wraps (R199). -/
theorem smallGlyph_toNat (b : Byte) : (smallGlyph b).toNat = b.toNat * 5 := by
  have := b.isLt
  rw [smallGlyph, BitVec.toNat_ofNat, Nat.mod_eq_of_lt (by omega)]

/-- No glyph pointer wraps (R200). -/
theorem bigGlyph_toNat (b : Byte) : (bigGlyph b).toNat = b.toNat * 10 + 0x50 := by
  have := b.isLt
  rw [bigGlyph, BitVec.toNat_ofNat, Nat.mod_eq_of_lt (by omega)]

theorem loadStoreI_iBound (x : Reg) {s : State} (hi : s.i.toNat ≤ 0xFFF) : (loadStoreI x s).i.toNat ≤ 0xFFF := by
  rw [loadStoreI_eq_setI, setI_i]
  split
  · rw [wrapAddr_toNat]; omega
  · exact hi

/-- I stays at most 0xFFF: an immediate is, a glyph's address is, and every sum wraps (R25). -/
theorem exec_iBound {i : Instr} {s t : State} (h : exec i s = .next t) (hi : s.i.toNat ≤ 0xFFF) : t.i.toNat ≤ 0xFFF := by
  cases i with
  | ldI nnn => obtain rfl := next_unique h rfl; simp; omega
  | addI x =>
    obtain rfl := next_unique h rfl
    show (wrapAddr s.i s.v[x].toNat).toNat ≤ 0xFFF
    rw [wrapAddr_toNat]; omega
  | ldF x =>
    obtain rfl := next_unique h rfl
    show (smallGlyph s.v[x]).toNat ≤ 0xFFF
    rw [smallGlyph_toNat]; omega
  | ldHf x =>
    obtain rfl := next_unique h rfl
    show (bigGlyph s.v[x]).toNat ≤ 0xFFF
    rw [bigGlyph_toNat]; omega
  | ldMemVx x =>
    obtain ⟨m, -, e | ⟨kind, addr, e⟩⟩ := exec_ldMemVx_cases x s
    · obtain rfl := next_unique h e; exact loadStoreI_iBound x hi
    · obtain rfl := next_unique h e; exact hi
  | ldVxMem x =>
    obtain ⟨v, -, e | ⟨kind, addr, e⟩⟩ := exec_ldVxMem_cases x s
    · obtain rfl := next_unique h e; exact loadStoreI_iBound x hi
    · obtain rfl := next_unique h e; exact hi
  | _ => rw [(touches_of_exec h).1 .i (by simp [footprint])]; exact hi

/-- The target of Bnnn does not wrap (R198). -/
theorem jumpTarget_toNat (nnn : Addr) (s : State) : (jumpTarget nnn s).toNat = (jumpBase nnn s).toNat + nnn.toNat := by
  rw [jumpTarget, BitVec.toNat_ofNat]; omega

/-- A skip from at most 0x1000 leads to at most 0x1002. -/
theorem skipIf_pcBound (c : Bool) {s : State} (hpc : s.pc.toNat ≤ 0x1000) : (skipIf c s).pc.toNat ≤ 0x10FE := by
  rw [skipIf_eq_setPc, setPc_pc]
  split
  · rw [BitVec.toNat_add]; simp; omega
  · omega

/-- From a PC just past a fetched word, PC stays at most 0x10FE, the largest target of Bnnn (R28). -/
theorem exec_pcBound {i : Instr} {s t : State} (h : exec i s = .next t) (hpc : s.pc.toNat ≤ 0x1000) :
    t.pc.toNat ≤ 0x10FE := by
  cases i with
  | jp nnn =>
    obtain rfl := next_unique h (exec_jp nnn s)
    split <;> simp <;> omega
  | jpV0 nnn =>
    obtain rfl := next_unique h (exec_jpV0 nnn s)
    have := jumpTarget_toNat nnn s
    split <;> simp <;> omega
  | call nnn =>
    by_cases hself : zextAddr nnn = pc0 s
    · obtain rfl := next_unique h (exec_call_self hself); simp; omega
    · obtain ⟨m, -, ⟨-, e⟩ | ⟨kind, addr, e⟩⟩ := exec_call_cases hself
      · obtain rfl := next_unique h e; simp; omega
      · obtain rfl := next_unique h e; simp; omega
  | ret =>
    obtain ⟨kind, addr, e⟩ | ⟨-, ⟨kind, addr, e⟩ | ⟨w, hw, e⟩⟩ := exec_ret_cases s
    · obtain rfl := next_unique h e; simp; omega
    · obtain rfl := next_unique h e; simp; omega
    · obtain rfl := next_unique h e; simp; omega
  | seImm | sneImm | seReg | sneReg => obtain rfl := next_unique h rfl; exact skipIf_pcBound _ hpc
  | skp x =>
    obtain rfl := next_unique h rfl
    refine skipIf_pcBound _ ?_
    rw [(touches_consume s.v[x].toNat s).1 .pc (by decide)]; exact hpc
  | sknp x =>
    obtain rfl := next_unique h rfl
    refine skipIf_pcBound _ ?_
    rw [(touches_sknpConsume s.v[x].toNat s).1 .pc (by decide)]; exact hpc
  | _ => rw [(touches_of_exec h).1 .pc (by simp [footprint])]; omega

/-- A stack pointer that is not full has room for an entry above it. -/
theorem SpLegal.push {w : Word} (h : SpLegal w) (hfull : w ≠ spTop) : SpLegal (w + 2) := by
  obtain ⟨k, hk, e⟩ := h
  have : w.toNat ≠ 0x1000 := fun hw => hfull (BitVec.eq_of_toNat_eq hw)
  refine ⟨k + 1, by omega, ?_⟩
  rw [BitVec.toNat_add]; simp; omega

/-- A stack pointer that is not empty has an entry below it. -/
theorem SpLegal.pop {w : Word} (h : SpLegal w) (hempty : w ≠ spBase) : SpLegal (w - 2) := by
  obtain ⟨k, hk, e⟩ := h
  have : w.toNat ≠ 0x0EA0 := fun hw => hempty (BitVec.eq_of_toNat_eq hw)
  refine ⟨k - 1, by omega, ?_⟩
  rw [BitVec.toNat_sub]; simp; omega

/-- SP stays a stack pointer: a push needs room and a pop an entry (R29, R72, R73). -/
theorem exec_spLegal {i : Instr} {s t : State} (h : exec i s = .next t) (hsp : SpLegal s.sp) : SpLegal t.sp := by
  cases i with
  | call nnn =>
    by_cases hself : zextAddr nnn = pc0 s
    · obtain rfl := next_unique h (exec_call_self hself); exact hsp
    · obtain ⟨m, -, ⟨hroom, e⟩ | ⟨kind, addr, e⟩⟩ := exec_call_cases hself
      · obtain rfl := next_unique h e; exact hsp.push hroom
      · obtain rfl := next_unique h e; exact hsp
  | ret =>
    obtain ⟨kind, addr, e⟩ | ⟨hentry, ⟨kind, addr, e⟩ | ⟨w, -, e⟩⟩ := exec_ret_cases s
    · obtain rfl := next_unique h e; exact hsp
    · obtain rfl := next_unique h e; exact hsp.pop hentry
    · obtain rfl := next_unique h e; exact hsp.pop hentry
  | _ => rw [(touches_of_exec h).1 .sp (by simp [footprint])]; exact hsp

/-! ### The invariant through a step -/

/-- An update that touches neither memory, I, PC nor SP keeps the invariant if its error record means Stopped. -/
theorem Inv.of_touches {P : List Part} {T : Reg → Prop} {s t : State} (h : Inv s) (ht : Touches P T s t)
    (hP : ∀ p ∈ [Part.mem, .i, .pc, .sp], p ∉ P) (herror : t.error ≠ none → t.runState = .stopped) : Inv t := by
  obtain ⟨hmem, hparams⟩ : t.mem = s.mem ∧ t.params = s.params := ht.1 .mem (hP _ (by decide))
  have hi : t.i = s.i := ht.1 .i (hP _ (by decide))
  have hpc : t.pc = s.pc := ht.1 .pc (hP _ (by decide))
  have hsp : t.sp = s.sp := ht.1 .sp (hP _ (by decide))
  exact ⟨hmem ▸ h.memCanonical, hi ▸ h.iBound, hpc ▸ h.pcBound, hsp ▸ h.spLegal, herror, hparams ▸ h.initIBound⟩

/-- A machine that runs or waits has no error record (R286). -/
theorem Inv.error_eq_none {s : State} (h : Inv s) (hrun : s.runState ≠ .stopped) : s.error = none := by
  by_contra herror
  exact hrun (h.errorStops herror)

/-- An instruction keeps the invariant of a machine that runs and has fetched a word. -/
theorem exec_inv {i : Instr} {s t : State} (hs : Inv s) (hrun : s.runState ≠ .stopped) (hpc : s.pc.toNat ≤ 0x1000)
    (h : exec i s = .next t) : Inv t where
  memCanonical := exec_memWf h hs.memCanonical
  iBound := exec_iBound h hs.iBound
  pcBound := exec_pcBound h hpc
  spLegal := exec_spLegal h hs.spLegal
  errorStops := by
    intro herror
    obtain ⟨hkept, -⟩ | ⟨-, hstop, -⟩ | ⟨hstop, -⟩ := exec_stop_cases h
    · exact absurd (hkept.trans (hs.error_eq_none hrun)) herror
    · exact hstop
    · exact hstop
  initIBound := by rw [exec_params h]; exact hs.initIBound

end Sys2Proof.Safety
end

section
/-! PROOFS of 60_exceptions.md, whole-machine rules: what the environment's moves and the parts of a cycle do, every step
keeps the invariant and the ROM, every step has a next state, and how a run stops. -/

namespace Sys2Proof.Safety

open Sys2Proof.Machine

/-! ### The environment's moves -/

theorem hostMayAct_iff (s : State) : hostMayAct s = true ↔ s.runState = .ready ∨ s.runState = .stopped := by
  unfold hostMayAct
  cases s.runState <;> simp

/-- A load changes the RAM alone, and only where the run state and the length allow it (R76, R77). -/
theorem environmentMove_loadProgram (image : List Byte) (s : State) :
    environmentMove (.loadProgram image) s =
      { s with mem := if hostMayAct s = true ∧ 0 < image.length ∧ image.length ≤ 0xE00 then storeImage image 0x200 s.mem
                      else s.mem } := by
  unfold environmentMove loadProgram
  by_cases hact : hostMayAct s = true
  · by_cases hempty : image.length = 0
    · simp [hact, hempty]
    · by_cases hlarge : 0xE00 < image.length
      · simp [hact, hempty, hlarge, not_le.2 hlarge]
      · simp [hact, hempty, hlarge, Nat.pos_of_ne_zero hempty, not_lt.1 hlarge]
  · simp [hact]

/-- A start sets a Ready machine running (R291). -/
theorem environmentMove_start (s : State) :
    environmentMove .start s = { s with runState := if s.runState = .ready then .running else s.runState } := by
  show (start s).getD s = _
  unfold start
  cases hrun : s.runState with
  | ready => rfl
  | _ => exact congrArg (fun r => { s with runState := r }) hrun

/-- A reset is taken in Ready and Stopped (R296). -/
theorem environmentMove_reset (s : State) :
    environmentMove .reset s = if hostMayAct s = true then interpreterReset s else s := by
  show (hostReset s).getD s = _
  unfold hostReset
  split <;> rfl

/-- A load keeps the canonical form (R76). -/
theorem loadProgram_memWf (image : List Byte) {s : State} (h : memWf s.mem = true) :
    memWf (environmentMove (.loadProgram image) s).mem = true := by
  rw [environmentMove_loadProgram]
  dsimp only
  split
  · next hload => exact storeImage_wf image 0x200 s.mem h (by decide) (by omega)
  · exact h

/-- The environment keeps the invariant. -/
theorem environmentMove_inv (m : Move) {s : State} (h : Inv s) : Inv (environmentMove m s) := by
  cases m with
  | interpreter => exact h
  | snapshot => exact h
  | press k => exact h.of_touches (touches_setKey s k true) (by decide) h.errorStops
  | release k => exact h.of_touches (touches_setKey s k false) (by decide) h.errorStops
  | requestStop => exact h.of_touches (touches_requestStop s) (by decide) h.errorStops
  | loadProgram image =>
    have hwf := loadProgram_memWf image h.memCanonical
    rw [environmentMove_loadProgram] at hwf ⊢
    exact ⟨hwf, h.iBound, h.pcBound, h.spLegal, h.errorStops, h.initIBound⟩
  | start =>
    rw [environmentMove_start]
    refine h.of_touches (touches_withRunState s _) (by decide) fun herror => ?_
    have hstop : s.runState = .stopped := h.errorStops herror
    simp [hstop]
  | reset =>
    rw [environmentMove_reset]
    split
    · exact ⟨h.memCanonical, h.initIBound, (by decide : (0x0200 : Word).toNat ≤ 0x10FE), ⟨0, by decide, rfl⟩,
        fun herror => absurd rfl herror, h.initIBound⟩
    · exact h

/-- No operation of the environment writes a parameter. -/
theorem environmentMove_params (m : Move) (s : State) : (environmentMove m s).params = s.params := by
  cases m with
  | loadProgram image => rw [environmentMove_loadProgram]
  | start => rw [environmentMove_start]
  | reset => rw [environmentMove_reset]; split <;> rfl
  | _ => rfl

/-- No operation of the environment changes the run state but a start in Ready and a reset (R287, R291, R296). -/
theorem environmentMove_runState (m : Move) (s : State) :
    (environmentMove m s).runState = s.runState ∨ (s.runState = .ready ∧ (environmentMove m s).runState = .running) ∨
      (m = .reset ∧ (environmentMove m s).runState = .ready) := by
  cases m with
  | loadProgram image => rw [environmentMove_loadProgram]; exact .inl rfl
  | start =>
    rw [environmentMove_start]
    by_cases hready : s.runState = .ready
    · exact .inr (.inl ⟨hready, if_pos hready⟩)
    · exact .inl (if_neg hready)
  | reset =>
    rw [environmentMove_reset]
    split
    · exact .inr (.inr ⟨rfl, rfl⟩)
    · exact .inl rfl
  | _ => exact .inl rfl

/-- The environment stops no machine (R294). -/
theorem environmentMove_stopped {m : Move} {s : State} (h : (environmentMove m s).runState = .stopped) :
    s.runState = .stopped := by
  obtain e | ⟨-, e⟩ | ⟨-, e⟩ := environmentMove_runState m s
  · exact e.symm.trans h
  · exact absurd (e.symm.trans h) (by decide)
  · exact absurd (e.symm.trans h) (by decide)

/-! ### The parts of a cycle -/

/-- Everything a fetch and its instruction can do (R100–R102): the instruction runs on the state with PC past its word, or
a fatal stop records the fetch address. -/
theorem runInstruction_cases (s : State) :
    (∃ i, Fetches s i ∧ runInstruction s = exec i (advance s)) ∨
      (s.pc.toNat + 1 < 0x1000 ∧ ∃ r, r.pc0 = s.pc ∧ runInstruction s = .next (fatalStop r (advance s))) ∨
      ∃ r, r.pc0 = s.pc ∧ runInstruction s = .next (fatalStop r s) := by
  by_cases hpc : s.pc.toNat + 1 < 0x1000
  · have hfetch := fetch_eq s
    rw [if_pos hpc] at hfetch
    rw [runInstruction_of_fetch hfetch]
    cases hdecode : decode (joinBytes (byteAt s s.pc.toNat) (byteAt s (s.pc.toNat + 1))) with
    | instr i => exact .inl ⟨i, ⟨hpc, hdecode⟩, rfl⟩
    | unknown op => exact .inr (.inl ⟨hpc, _, pc0_advance s, rfl⟩)
  · have hfetch := fetch_eq s
    rw [if_neg hpc] at hfetch
    exact .inr (.inr ⟨_, rfl, runInstruction_of_fault hfetch⟩)

/-- After the fetch PC − 2 is the fetch address (R26). -/
theorem pc0_of_advance (s : State) : pc0 (advance s) = s.pc := pc0_advance s

theorem runInstruction_next (s : State) : ∃ t, runInstruction s = .next t := by
  obtain ⟨i, -, e⟩ | ⟨-, r, -, e⟩ | ⟨r, -, e⟩ := runInstruction_cases s
  · obtain ⟨t, ht, -⟩ := exec_touches i (advance s)
    exact ⟨t, e.trans ht⟩
  · exact ⟨_, e⟩
  · exact ⟨_, e⟩

theorem timerStep_runState (tick : Bool) (s : State) : (timerStep tick s).runState = s.runState :=
  (touches_timerStep s tick).1 .runState (by decide)

theorem timerStep_error (tick : Bool) (s : State) : (timerStep tick s).error = s.error :=
  (touches_timerStep s tick).1 .error (by decide)

/-- PC past a word inside the space is at most 0x1000. -/
theorem advance_pcBound {s : State} (h : s.pc.toNat + 1 < 0x1000) : (advance s).pc.toNat ≤ 0x1000 := by
  rw [advance_eq_setPc, setPc_pc, BitVec.toNat_add]
  simp; omega

theorem advance_inv {s : State} (hs : Inv s) (h : s.pc.toNat + 1 < 0x1000) : Inv (advance s) :=
  ⟨hs.memCanonical, hs.iBound, (advance_pcBound h).trans (by decide), hs.spLegal, hs.errorStops, hs.initIBound⟩

theorem fatalStop_inv {s : State} (hs : Inv s) (r : ErrorRecord) : Inv (fatalStop r s) :=
  hs.of_touches (touches_fatalStop s r) (by decide) fun _ => rfl

theorem timerStep_inv {s : State} (hs : Inv s) (tick : Bool) : Inv (timerStep tick s) :=
  hs.of_touches (touches_timerStep s tick) (by decide)
    (by rw [timerStep_error, timerStep_runState]; exact hs.errorStops)

theorem runInstruction_inv {s t : State} (hs : Inv s) (hrun : s.runState ≠ .stopped) (h : runInstruction s = .next t) :
    Inv t := by
  obtain ⟨i, ⟨hpc, -⟩, e⟩ | ⟨hpc, r, -, e⟩ | ⟨r, -, e⟩ := runInstruction_cases s
  · exact exec_inv (advance_inv hs hpc) hrun (advance_pcBound hpc) (e.symm.trans h)
  · obtain rfl := Host.Outcome.next.inj (e.symm.trans h)
    exact fatalStop_inv (advance_inv hs hpc) r
  · obtain rfl := Host.Outcome.next.inj (e.symm.trans h)
    exact fatalStop_inv hs r

/-- The halted poll touches the keys, the run state and V[wait_reg] (R253). -/
theorem touches_haltedPoll (s : State) : Touches [.keys, .runState] (· = s.waitReg) s (haltedPoll s) := by
  rw [haltedPoll_eq]
  split
  · exact (Touches.refl s).mono (List.nil_subset _) fun _ => False.elim
  · next k _ =>
    exact (((touches_setKey s k false).of_noReg.trans (touches_setV _ _ _)).andThen
      (touches_withRunState _ .running)).mono (by decide) fun _ => or_self_iff.1

/-- The halted poll stops no machine: it waits or runs on. -/
theorem haltedPoll_runState {s : State} (h : s.runState = .halted) : (haltedPoll s).runState ≠ .stopped := by
  rw [haltedPoll_eq]
  split
  · rw [h]; decide
  · exact fun e => RunState.noConfusion e

theorem haltedPoll_inv {s : State} (hs : Inv s) (h : s.runState = .halted) : Inv (haltedPoll s) := by
  refine hs.of_touches (touches_haltedPoll s) (by decide) fun herror => ?_
  have hkept : (haltedPoll s).error = s.error := (touches_haltedPoll s).1 .error (by decide)
  rw [hkept, hs.error_eq_none (by rw [h]; decide)] at herror
  exact absurd rfl herror

/-- A cycle keeps the invariant. -/
theorem cycle_inv {tick : Bool} {s t : State} (hs : Inv s) (h : cycle tick s = .next t) : Inv t := by
  obtain ⟨-, rfl⟩ | ⟨-, -, rfl⟩ | ⟨hrun, -, u, hu, rfl⟩ | ⟨hhalt, -, rfl⟩ := cycle_next h
  · exact hs
  · exact hs.of_touches (touches_withRunState s .stopped) (by decide) fun _ => rfl
  · exact timerStep_inv (runInstruction_inv hs (by rw [hrun]; decide) hu) tick
  · exact timerStep_inv (haltedPoll_inv hs hhalt) tick

theorem takeMove_inv {s : State} (hs : Inv s) : Inv (takeMove s) :=
  hs.of_touches (touches_takeMove s) (by decide) hs.errorStops

/-- Settles O20: a step is an operation of the environment or a cycle, and each keeps the invariant. -/
theorem everyStepKeepsTheInvariant : Obligations.EveryStepKeepsTheInvariant := by
  intro s t hs h
  obtain ⟨-, rfl⟩ | ⟨-, hcycle⟩ := step_next h
  · exact environmentMove_inv _ (takeMove_inv hs)
  · exact cycle_inv (takeMove_inv hs) hcycle

/-- Settles O19, field by field at the reset values. -/
theorem resetMeetsTheInvariant : Obligations.ResetMeetsTheInvariant :=
  ⟨rfl, by decide, by decide, ⟨0, by decide, rfl⟩, fun herror => absurd rfl herror, by decide⟩

/-- A cycle has a next state. -/
theorem cycle_has_next (tick : Bool) (s : State) : ∃ t, cycle tick s = .next t := by
  unfold cycle
  split
  · exact ⟨_, rfl⟩
  · exact ⟨_, rfl⟩
  · split
    · exact ⟨_, rfl⟩
    · obtain ⟨t, ht⟩ := runInstruction_next s
      exact ⟨_, by rw [ht]; rfl⟩
  · split
    · exact ⟨_, rfl⟩
    · exact ⟨_, rfl⟩

/-- Settles O53: the environment's moves are total, and in a cycle every instruction has a next state. -/
theorem everyStepHasANextState : Obligations.EveryStepHasANextState := by
  intro s
  by_cases hmove : pendingMove s = .interpreter
  · rw [step_of_interpreter hmove]; exact cycle_has_next _ _
  · exact ⟨_, step_of_environment hmove⟩

theorem runInstruction_params {s t : State} (h : runInstruction s = .next t) : t.params = s.params := by
  obtain ⟨i, -, e⟩ | ⟨-, r, -, e⟩ | ⟨r, -, e⟩ := runInstruction_cases s
  · have hadvance : t.params = (advance s).params := exec_params (e.symm.trans h)
    exact hadvance
  · obtain rfl := Host.Outcome.next.inj (e.symm.trans h); rfl
  · obtain rfl := Host.Outcome.next.inj (e.symm.trans h); rfl

theorem cycle_params {tick : Bool} {s t : State} (h : cycle tick s = .next t) : t.params = s.params := by
  have htimer (u : State) : (timerStep tick u).params = u.params := (touches_timerStep u tick).1 .params (by decide)
  obtain ⟨-, rfl⟩ | ⟨-, -, rfl⟩ | ⟨-, -, u, hu, rfl⟩ | ⟨-, -, rfl⟩ := cycle_next h
  · rfl
  · rfl
  · rw [htimer, runInstruction_params hu]
  · rw [htimer]; exact (touches_haltedPoll s).1 .params (by decide)

/-- Settles O18: no step writes a parameter, and below 0x200 a byte depends on the parameters alone. -/
theorem romIsNeverChanged : Obligations.RomIsNeverChanged := by
  intro s t h
  have hparams : t.params = s.params := by
    obtain ⟨-, rfl⟩ | ⟨-, hcycle⟩ := step_next h
    · exact environmentMove_params _ (takeMove s)
    · exact (cycle_params hcycle).trans (takeMove_params s)
  exact ⟨hparams, fun a ha => byteAt_rom s t a hparams ha⟩

/-! ### How a run stops -/

/-- The routes of O54 that an instruction of a running machine takes (R294). -/
theorem runInstruction_stopped {s t : State} (hrun : s.runState = .running) (h : runInstruction s = .next t)
    (hstop : t.runState = .stopped) :
    (t.error = s.error ∧ ∃ i, Fetches s i ∧ StopsNormally (advance s) i) ∨ ∃ r, t.error = some r ∧ r.pc0 = s.pc := by
  obtain ⟨i, hi, e⟩ | ⟨-, r, hr, e⟩ | ⟨r, hr, e⟩ := runInstruction_cases s
  · have hpc0 := pc0_of_advance s
    obtain ⟨-, hrest⟩ | ⟨herror, -, hnormal⟩ | ⟨-, r, hr, hpc⟩ := exec_stop_cases (e.symm.trans h)
    · have hrun' : (advance s).runState = .running := hrun
      rw [hstop, hrun'] at hrest
      rcases hrest with hrest | hrest <;> cases hrest
    · exact .inl ⟨herror, i, hi, hnormal⟩
    · exact .inr ⟨r, hr, hpc.trans hpc0⟩
  · obtain rfl := Host.Outcome.next.inj (e.symm.trans h); exact .inr ⟨r, rfl, hr⟩
  · obtain rfl := Host.Outcome.next.inj (e.symm.trans h); exact .inr ⟨r, rfl, hr⟩

/-- The routes of a normal stop, told by the instruction (R294). -/
theorem fetches_of_stopsNormally {s : State} {i : Instr} (hi : Fetches s i) (h : StopsNormally (advance s) i) :
    Fetches s .exit ∨ (∃ nnn : Addr, nnn.toNat = s.pc.toNat ∧ (Fetches s (.jp nnn) ∨ Fetches s (.call nnn))) ∨
      ∃ nnn : Addr, Fetches s (.jpV0 nnn) ∧ s.params.qSelfLoopBnnn = true ∧
        (jumpBase nnn s).toNat + nnn.toNat = s.pc.toNat := by
  have hpc0 := pc0_of_advance s
  have htarget {nnn : Addr} (e : zextAddr nnn = pc0 (advance s)) : nnn.toNat = s.pc.toNat := by
    rw [← zextAddr_toNat, e, hpc0]
  cases i with
  | exit => exact .inl hi
  | jp nnn => exact .inr (.inl ⟨nnn, htarget h, .inl hi⟩)
  | call nnn => exact .inr (.inl ⟨nnn, htarget h, .inr hi⟩)
  | jpV0 nnn =>
    obtain ⟨hquirk, hself⟩ := h
    have hbase : jumpBase nnn (advance s) = jumpBase nnn s := rfl
    exact .inr (.inr ⟨nnn, hi, hquirk, by rw [← hbase, ← jumpTarget_toNat, hself, hpc0]⟩)
  | _ => exact False.elim h

/-- Settles O54: of the moves only a cycle stops the machine, and in it the stop check, a normal stop of the instruction,
or a fatal stop at its address. -/
theorem fourRoutesToStopped : Obligations.FourRoutesToStopped := by
  intro s t hactive h hstop
  have hnotStopped : s.runState ≠ .stopped := by rcases hactive with e | e <;> rw [e] <;> decide
  obtain ⟨-, rfl⟩ | ⟨-, hcycle⟩ := step_next h
  · exact absurd (environmentMove_stopped hstop) hnotStopped
  obtain ⟨-, rfl⟩ | ⟨-, hrequest, rfl⟩ | ⟨hrun, -, u, hu, rfl⟩ | ⟨hhalt, -, rfl⟩ := cycle_next hcycle
  · exact absurd hstop hnotStopped
  · exact .inl ⟨hrequest, rfl⟩
  · rw [timerStep_runState] at hstop
    rw [timerStep_error]
    obtain ⟨herror, i, hi, hnormal⟩ | hfatal := runInstruction_stopped hrun hu hstop
    · obtain hexit | hjump | hindexed := fetches_of_stopsNormally hi hnormal
      · exact .inr (.inl ⟨hexit, herror⟩)
      · exact .inr (.inr (.inl ⟨hjump, herror⟩))
      · exact .inr (.inr (.inr (.inl ⟨hindexed, herror⟩)))
    · exact .inr (.inr (.inr (.inr ⟨hrun, hfatal⟩)))
  · rw [timerStep_runState] at hstop
    exact absurd hstop (haltedPoll_runState hhalt)

/-- Settles O55: a cycle in Ready and Stopped answers the same state, and of the other moves only the reset leaves
Stopped. -/
theorem idleStatesRunNoCycle : Obligations.IdleStatesRunNoCycle := by
  have hcycle (s : State) (hidle : s.runState = .ready ∨ s.runState = .stopped) (tick : Bool) :
      cycle tick s = .next s := by
    unfold cycle
    rcases hidle with e | e <;> rw [e]
  refine ⟨fun s hidle => ⟨fun hmove => ?_, fun rest hrest => ?_, hcycle s hidle⟩, fun s t hstop h ht => ?_⟩
  · rw [step_of_interpreter hmove]
    exact hcycle (takeMove s) hidle _
  · obtain ⟨hmove, htake⟩ := pendingMove_cons hrest
    rw [step_of_interpreter hmove, htake]
    exact hcycle { s with schedule := rest } hidle _
  · obtain ⟨-, rfl⟩ | ⟨-, hnext⟩ := step_next h
    · obtain e | ⟨hready, -⟩ | ⟨hreset, -⟩ := environmentMove_runState (pendingMove s) (takeMove s)
      · exact absurd (e.trans hstop) ht
      · exact absurd (hready.symm.trans hstop) (by decide)
      · exact hreset
    · have hsame := hcycle (takeMove s) (.inr hstop) (Config.freeTick s.ticks)
      obtain rfl := Host.Outcome.next.inj (hsame.symm.trans hnext)
      exact absurd hstop ht

end Sys2Proof.Safety
end

section
/-! PROOFS of 10_state.md §5: no step reads ST. Every operation commutes with a change of ST, but for those that overwrite
it, whose result does not depend on it. -/

namespace Sys2Proof.Safety

open Sys2Proof.Machine

/-- The state with another sound timer. -/
def withSt (b : Byte) (s : State) : State := { s with st := b }

@[simp] theorem withSt_v (b : Byte) (s : State) : (withSt b s).v = s.v := rfl
@[simp] theorem withSt_i (b : Byte) (s : State) : (withSt b s).i = s.i := rfl
@[simp] theorem withSt_pc (b : Byte) (s : State) : (withSt b s).pc = s.pc := rfl
@[simp] theorem withSt_sp (b : Byte) (s : State) : (withSt b s).sp = s.sp := rfl
@[simp] theorem withSt_cells (b : Byte) (s : State) : (withSt b s).cells = s.cells := rfl
@[simp] theorem withSt_extended (b : Byte) (s : State) : (withSt b s).extended = s.extended := rfl
@[simp] theorem withSt_runState (b : Byte) (s : State) : (withSt b s).runState = s.runState := rfl
@[simp] theorem withSt_stopRequested (b : Byte) (s : State) : (withSt b s).stopRequested = s.stopRequested := rfl
@[simp] theorem withSt_params (b : Byte) (s : State) : (withSt b s).params = s.params := rfl

/-! ### The operations that read memory -/

@[simp] theorem byteAt_withSt (b : Byte) (s : State) (a : Nat) : byteAt (withSt b s) a = byteAt s a := rfl

@[simp] theorem bytesFrom_withSt (b : Byte) (s : State) (a n : Nat) : bytesFrom (withSt b s) a n = bytesFrom s a n := by
  induction n generalizing a with
  | zero => rfl
  | succ n ih => simp only [bytesFrom, byteAt_withSt, ih]

@[simp] theorem readSprite_withSt (b : Byte) (n : Nibble) (s : State) : readSprite n (withSt b s) = readSprite n s := by
  simp only [readSprite_eq, withSt_i, withSt_extended, bytesFrom_withSt]

@[simp] theorem draw_withSt (b xv yv : Byte) (n : Nibble) (s : State) : draw xv yv n (withSt b s) = draw xv yv n s := by
  simp only [draw_eq, readSprite_withSt, withSt_extended, withSt_params, withSt_cells]

/-! ### The operations that return a state -/

/-- The end of a transfer with its state changed. -/
def mapTransfer (f : State → State) : Transfer → Transfer
  | .done s => .done (f s)
  | .outOfRange s addr => .outOfRange (f s) addr

theorem writeBytes_withSt (b : Byte) (bs : List Byte) (a : Nat) (s : State) :
    writeBytes bs a (withSt b s) = mapTransfer (withSt b) (writeBytes bs a s) := by
  simp only [writeBytes_eq]
  split_ifs <;> rfl

theorem loadRegs_withSt (b : Byte) (n k a : Nat) (s : State) :
    loadRegs n k a (withSt b s) = mapTransfer (withSt b) (loadRegs n k a s) := by
  induction n generalizing k a s with
  | zero => rfl
  | succ n ih =>
    simp only [loadRegs, memRead_eq, byteAt_withSt]
    split_ifs
    · exact ih (k + 1) (a + 1) { s with v := s.v.setIfInBounds k (byteAt s a) }
    · rfl

/-- The end of a push with its state changed. -/
def mapPush (f : State → State) : PushResult → PushResult
  | .pushed s => .pushed (f s)
  | .failed kind addr s => .failed kind addr (f s)

theorem push_withSt (b : Byte) (w : Word) (s : State) : push w (withSt b s) = mapPush (withSt b) (push w s) := by
  simp only [push, writeWord, writeBytes_withSt, withSt_sp]
  split_ifs
  · rfl
  · cases writeBytes [highByte w, lowByte w] s.sp.toNat s <;> rfl

/-- The end of a pop with its state changed. -/
def mapPop (f : State → State) : PopResult → PopResult
  | .popped w s => .popped w (f s)
  | .failed kind addr s => .failed kind addr (f s)

theorem pop_withSt (b : Byte) (s : State) : pop (withSt b s) = mapPop (withSt b) (pop s) := by
  have hread (a : Nat) : readWord { withSt b s with sp := s.sp - 2 } a = readWord { s with sp := s.sp - 2 } a := rfl
  simp only [pop, withSt_sp, hread]
  split_ifs
  · rfl
  · cases readWord { s with sp := s.sp - 2 } (s.sp - 2).toNat with
    | outOfRange addr => rfl
    | word w => dsimp only; split_ifs <;> rfl

theorem copyToRpl_withSt (b : Byte) (n : Nat) (s : State) : copyToRpl n (withSt b s) = withSt b (copyToRpl n s) := by
  induction n with
  | zero => rfl
  | succ n ih => rw [copyToRpl, ih]; rfl

theorem copyFromRpl_withSt (b : Byte) (n : Nat) (s : State) :
    copyFromRpl n (withSt b s) = withSt b (copyFromRpl n s) := by
  induction n with
  | zero => rfl
  | succ n ih => rw [copyFromRpl, ih]; rfl

theorem skipIf_withSt (b : Byte) (c : Bool) (s : State) : skipIf c (withSt b s) = withSt b (skipIf c s) := by
  cases c <;> rfl

theorem logicFlag_withSt (b : Byte) (s : State) : logicFlag (withSt b s) = withSt b (logicFlag s) := by
  simp only [logicFlag_eq_setV]; rfl

theorem consume_withSt (b : Byte) (k : Nat) (s : State) : consume k (withSt b s) = withSt b (consume k s) := by
  simp only [consume_eq_setKey]; rfl

theorem sknpConsume_withSt (b : Byte) (k : Nat) (s : State) :
    sknpConsume k (withSt b s) = withSt b (sknpConsume k s) := by
  simp only [sknpConsume, withSt_params, consume_withSt]
  split_ifs <;> rfl

theorem loadStoreI_withSt (b : Byte) (x : Reg) (s : State) : loadStoreI x (withSt b s) = withSt b (loadStoreI x s) := by
  simp only [loadStoreI_eq_setI]; rfl

/-! ### The instructions -/

/-- An outcome with its next state changed. -/
def mapNext (f : State → State) : Result → Result
  | .next s => .next (f s)
  | .fault r => .fault r
  | .refused r => .refused r

theorem execCall_withSt (b : Byte) (nnn : Addr) (s : State) :
    execCall nnn (withSt b s) = mapNext (withSt b) (execCall nnn s) := by
  have hpc0 : pc0 (withSt b s) = pc0 s := rfl
  simp only [execCall, push_withSt, withSt_pc, hpc0]
  split_ifs
  · rfl
  · cases push s.pc s <;> rfl

theorem execRet_withSt (b : Byte) (s : State) : execRet (withSt b s) = mapNext (withSt b) (execRet s) := by
  simp only [execRet, pop_withSt]
  cases pop s <;> rfl

theorem execDrw_withSt (b : Byte) (x y : Reg) (n : Nibble) (s : State) :
    execDrw x y n (withSt b s) = mapNext (withSt b) (execDrw x y n s) := by
  simp only [execDrw, draw_withSt, withSt_v]
  cases draw s.v[x] s.v[y] n s <;> rfl

theorem execLdB_withSt (b : Byte) (x : Reg) (s : State) :
    execLdB x (withSt b s) = mapNext (withSt b) (execLdB x s) := by
  simp only [execLdB, writeBytes_withSt, withSt_v, withSt_i]
  cases writeBytes (bcdDigits s.v[x]) s.i.toNat s <;> rfl

theorem execLdMemVx_withSt (b : Byte) (x : Reg) (s : State) :
    execLdMemVx x (withSt b s) = mapNext (withSt b) (execLdMemVx x s) := by
  have hregs : regsUpTo x (withSt b s) = regsUpTo x s := rfl
  simp only [execLdMemVx, hregs, writeBytes_withSt, withSt_i]
  cases writeBytes (regsUpTo x s) s.i.toNat s with
  | done s' => exact congrArg Host.Outcome.next (loadStoreI_withSt b x s')
  | outOfRange s' addr => rfl

theorem execLdVxMem_withSt (b : Byte) (x : Reg) (s : State) :
    execLdVxMem x (withSt b s) = mapNext (withSt b) (execLdVxMem x s) := by
  simp only [execLdVxMem, loadRegs_withSt, withSt_i]
  cases loadRegs (x.val + 1) 0 s.i.toNat s with
  | done s' => exact congrArg Host.Outcome.next (loadStoreI_withSt b x s')
  | outOfRange s' addr => rfl

/-- An instruction does the same whatever ST holds, and leaves some ST: the old one, or the one it writes. -/
theorem exec_withSt (i : Instr) (b : Byte) (s : State) : ∃ b', exec i (withSt b s) = mapNext (withSt b') (exec i s) := by
  cases i with
  | ldStVx x => exact ⟨s.v[x], rfl⟩
  | call nnn => exact ⟨b, execCall_withSt b nnn s⟩
  | ret => exact ⟨b, execRet_withSt b s⟩
  | drw x y n => exact ⟨b, execDrw_withSt b x y n s⟩
  | ldB x => exact ⟨b, execLdB_withSt b x s⟩
  | ldMemVx x => exact ⟨b, execLdMemVx_withSt b x s⟩
  | ldVxMem x => exact ⟨b, execLdVxMem_withSt b x s⟩
  | jp nnn =>
    refine ⟨b, ?_⟩
    simp only [exec_jp, show pc0 (withSt b s) = pc0 s from rfl]
    split_ifs <;> rfl
  | jpV0 nnn =>
    refine ⟨b, ?_⟩
    simp only [exec_jpV0, withSt_params, show pc0 (withSt b s) = pc0 s from rfl,
      show jumpTarget nnn (withSt b s) = jumpTarget nnn s from rfl]
    split_ifs <;> rfl
  | seImm | sneImm | seReg | sneReg => exact ⟨b, congrArg Host.Outcome.next (skipIf_withSt b _ s)⟩
  | orReg x y => exact ⟨b, congrArg Host.Outcome.next (logicFlag_withSt b (setV x (s.v[x] ||| s.v[y]) s))⟩
  | andReg x y => exact ⟨b, congrArg Host.Outcome.next (logicFlag_withSt b (setV x (s.v[x] &&& s.v[y]) s))⟩
  | xorReg x y => exact ⟨b, congrArg Host.Outcome.next (logicFlag_withSt b (setV x (s.v[x] ^^^ s.v[y]) s))⟩
  | skp x =>
    refine ⟨b, congrArg Host.Outcome.next ?_⟩
    rw [withSt_v, consume_withSt, skipIf_withSt]; rfl
  | sknp x =>
    refine ⟨b, congrArg Host.Outcome.next ?_⟩
    rw [withSt_v, sknpConsume_withSt, skipIf_withSt]; rfl
  | ldRVx x =>
    refine ⟨b, ?_⟩
    simp only [exec_ldRVx, copyToRpl_withSt]
    split_ifs <;> rfl
  | ldVxR x =>
    refine ⟨b, ?_⟩
    simp only [exec_ldVxR, copyFromRpl_withSt]
    split_ifs <;> rfl
  | _ => exact ⟨b, rfl⟩

/-! ### The step -/

theorem runInstruction_withSt (b : Byte) (s : State) :
    ∃ b', runInstruction (withSt b s) = mapNext (withSt b') (runInstruction s) := by
  have hfetch : fetch (withSt b s) = fetch s := rfl
  cases h : fetch s with
  | outOfRange addr =>
    rw [runInstruction_of_fault h, runInstruction_of_fault (hfetch.trans h)]
    exact ⟨b, rfl⟩
  | word op =>
    rw [runInstruction_of_fetch h, runInstruction_of_fetch (hfetch.trans h)]
    cases decode op with
    | instr i => exact exec_withSt i b (advance s)
    | unknown op => exact ⟨b, rfl⟩

theorem timerStep_withSt (tick : Bool) (b : Byte) (s : State) :
    ∃ b', timerStep tick (withSt b s) = withSt b' (timerStep tick s) := by
  rw [timerStep_eq, timerStep_eq, withSt_runState]
  by_cases hstop : s.runState = .stopped
  · rw [if_pos hstop, if_pos hstop]; exact ⟨b, rfl⟩
  · rw [if_neg hstop, if_neg hstop]
    cases tick with
    | false => exact ⟨b, rfl⟩
    | true => exact ⟨countDown b, rfl⟩

theorem haltedPoll_withSt (b : Byte) (s : State) : haltedPoll (withSt b s) = withSt b (haltedPoll s) := by
  have hlowest : lowestPressed (withSt b s) = lowestPressed s := rfl
  simp only [haltedPoll_eq, hlowest]
  cases lowestPressed s <;> rfl

theorem thenTimers_withSt (tick : Bool) (b : Byte) (r : Result) :
    ∃ b', thenTimers tick (mapNext (withSt b) r) = mapNext (withSt b') (thenTimers tick r) := by
  cases r with
  | next s =>
    obtain ⟨b', h⟩ := timerStep_withSt tick b s
    exact ⟨b', congrArg Host.Outcome.next h⟩
  | fault f => exact ⟨b, rfl⟩
  | refused f => exact ⟨b, rfl⟩

theorem cycle_withSt (tick : Bool) (b : Byte) (s : State) :
    ∃ b', cycle tick (withSt b s) = mapNext (withSt b') (cycle tick s) := by
  rw [cycle, cycle, withSt_runState, withSt_stopRequested]
  cases s.runState with
  | ready => exact ⟨b, rfl⟩
  | stopped => exact ⟨b, rfl⟩
  | running =>
    cases s.stopRequested with
    | true => exact ⟨b, rfl⟩
    | false =>
      obtain ⟨b', h⟩ := runInstruction_withSt b s
      obtain ⟨b'', h'⟩ := thenTimers_withSt tick b' (runInstruction s)
      exact ⟨b'', (congrArg (thenTimers tick) h).trans h'⟩
  | halted =>
    cases s.stopRequested with
    | true => exact ⟨b, rfl⟩
    | false =>
      obtain ⟨b', h⟩ := thenTimers_withSt tick b (.next (haltedPoll s))
      exact ⟨b', (congrArg (fun u => thenTimers tick (.next u)) (haltedPoll_withSt b s)).trans h⟩

theorem environmentMove_withSt (m : Move) (b : Byte) (s : State) :
    ∃ b', environmentMove m (withSt b s) = withSt b' (environmentMove m s) := by
  cases m with
  | loadProgram image => simp only [environmentMove_loadProgram]; exact ⟨b, rfl⟩
  | start => simp only [environmentMove_start]; exact ⟨b, rfl⟩
  | reset =>
    rw [environmentMove_reset, environmentMove_reset, show hostMayAct (withSt b s) = hostMayAct s from rfl]
    by_cases hact : hostMayAct s = true
    · rw [if_pos hact, if_pos hact]; exact ⟨0, rfl⟩
    · rw [if_neg hact, if_neg hact]; exact ⟨b, rfl⟩
  | _ => exact ⟨b, rfl⟩

/-- Settles O58: the move does not depend on ST, and neither a cycle nor an operation of the environment reads it. -/
theorem soundTimerIsNeverRead : Obligations.SoundTimerIsNeverRead := by
  intro s t b h
  have hpending : pendingMove (withSt b s) = pendingMove s := rfl
  have htake : takeMove (withSt b s) = withSt b (takeMove s) := rfl
  suffices hstep : ∃ b', step (withSt b s) = .next (withSt b' t) by
    obtain ⟨b', hb⟩ := hstep
    exact ⟨withSt b' t, hb, (touches_withSt t b').frame⟩
  by_cases hmove : pendingMove s = .interpreter
  · obtain ⟨b', hcycle⟩ := cycle_withSt (Config.freeTick s.ticks) b (takeMove s)
    rw [step_of_interpreter hmove] at h
    rw [h] at hcycle
    exact ⟨b', (step_of_interpreter (hpending.trans hmove)).trans (htake ▸ hcycle)⟩
  · obtain ⟨b', henv⟩ := environmentMove_withSt (pendingMove s) b (takeMove s)
    obtain rfl := Host.Outcome.next.inj ((step_of_environment hmove).symm.trans h)
    exact ⟨b', by rw [step_of_environment (hpending ▸ hmove), hpending, htake, henv]⟩

end Sys2Proof.Safety
end

section
/-! PROOFS of 30_encoding.md §4 and 47_timers_and_wait.md: the cycle, the stop check, the halted poll and the timers. -/

namespace Sys2Proof.Safety

open Sys2Proof.Machine

/-! ### The cycle in Running and in Halted -/

theorem cycle_running {tick : Bool} {s : State} (hrun : s.runState = .running) (hstop : s.stopRequested = false) :
    cycle tick s = thenTimers tick (runInstruction s) := by
  simp [cycle, hrun, hstop]

theorem cycle_halted {tick : Bool} {s : State} (hhalt : s.runState = .halted) (hstop : s.stopRequested = false) :
    cycle tick s = .next (timerStep tick (haltedPoll s)) := by
  simp [cycle, hhalt, hstop, thenTimers]

/-- The stop check comes before anything else (R293). -/
theorem cycle_stopRequested {tick : Bool} {s : State} (hactive : s.runState = .running ∨ s.runState = .halted)
    (hstop : s.stopRequested = true) : cycle tick s = .next (stopNormal s) := by
  rcases hactive with e | e <;> simp [cycle, e, hstop, stopNormal]

theorem step_running {s : State} (hrun : s.runState = .running) (hfree : MovesFreely s) :
    step s = thenTimers (Config.freeTick s.ticks) (runInstruction (takeMove s)) :=
  (step_of_interpreter hfree.1).trans (cycle_running hrun hfree.2)

theorem step_halted {s : State} (hhalt : s.runState = .halted) (hfree : MovesFreely s) :
    step s = .next (timerStep (Config.freeTick s.ticks) (haltedPoll (takeMove s))) :=
  (step_of_interpreter hfree.1).trans (cycle_halted hhalt hfree.2)

/-- No tick follows a fatal stop (R100). -/
theorem thenTimers_fatalStop (tick : Bool) (r : ErrorRecord) (s : State) :
    thenTimers tick (.next (fatalStop r s)) = .next (fatalStop r s) := rfl

/-- Settles O5: the fetch reads the word that decodes to the instruction. -/
theorem stepRunsTheDecodedInstruction : Obligations.StepRunsTheDecodedInstruction := by
  intro s i hrun hfree ⟨hpc, hdecode⟩
  have hfetch := (fetch_eq (takeMove s)).trans (if_pos hpc)
  rw [step_running hrun hfree, runInstruction_of_fetch hfetch]
  exact congrArg (fun d => thenTimers (Config.freeTick s.ticks) (execDecoded d (advance (takeMove s)))) hdecode

/-- Settles O6: the unknown word is a fatal stop on the state with PC advanced. -/
theorem illegalWordIsAFatalStop : Obligations.IllegalWordIsAFatalStop := by
  intro s op hrun hfree hpc hop hdecode
  have hfetch : fetch (takeMove s) = .word op := (fetch_eq (takeMove s)).trans ((if_pos hpc).trans (congrArg _ hop.symm))
  refine ⟨fatalStop { kind := .unknownOpcode, pc0 := s.pc, opcode := some op, addr := none } (advance (takeMove s)), ?_,
    ⟨rfl, rfl⟩, rfl, ?_⟩
  · rw [step_running hrun hfree, runInstruction_of_fetch hfetch, hdecode, execDecoded, pc0_of_advance,
      thenTimers_fatalStop, takeMove_pc]
  · exact ((touches_setPc (takeMove s) _).andThen (touches_fatalStop _ _)).frame

/-- Settles O7: the failing fetch is a fatal stop on the state as it was. -/
theorem fetchOutsideTheSpaceIsAFatalStop : Obligations.FetchOutsideTheSpaceIsAFatalStop := by
  intro s hrun hfree hpc
  have hfetch : fetch (takeMove s) = .outOfRange (if s.pc.toNat = 0xFFF then 0x1000 else s.pc.toNat) := by
    rw [fetch_eq, if_neg (by rw [takeMove_pc]; omega), takeMove_pc]
    congr 1
    split_ifs <;> omega
  exact ⟨_, (step_running hrun hfree).trans (by rw [runInstruction_of_fault hfetch, thenTimers_fatalStop,
    takeMove_pc]), ⟨rfl, rfl⟩, (touches_fatalStop (takeMove s) _).frame⟩

/-- Settles O8: the cycle with a stop requested is the normal stop. -/
theorem stopCheckComesFirst : Obligations.StopCheckComesFirst := by
  intro s tick hactive hstop
  refine ⟨⟨stopNormal s, cycle_stopRequested hactive hstop, rfl, id, (touches_stopNormal s).frame⟩, fun hmove => ?_⟩
  exact ⟨stopNormal (takeMove s), (step_of_interpreter hmove).trans (cycle_stopRequested hactive hstop), rfl, id,
    (touches_stopNormal (takeMove s)).frame⟩

/-! ### The timers -/

/-- DT after the timer step (R297). -/
theorem timerStep_dt {s : State} (hrun : s.runState ≠ .stopped) (tick : Bool) :
    (timerStep tick s).dt.toNat = s.dt.toNat - if tick then 1 else 0 := by
  rw [timerStep_eq, if_neg hrun]
  cases tick with
  | false => rfl
  | true => exact countDown_toNat s.dt

/-- ST after the timer step (R297). -/
theorem timerStep_st {s : State} (hrun : s.runState ≠ .stopped) (tick : Bool) :
    (timerStep tick s).st.toNat = s.st.toNat - if tick then 1 else 0 := by
  rw [timerStep_eq, if_neg hrun]
  cases tick with
  | false => rfl
  | true => exact countDown_toNat s.st

theorem timerStep_ticks {s : State} (hrun : s.runState ≠ .stopped) (tick : Bool) :
    (timerStep tick s).ticks = s.ticks + 1 := by
  rw [timerStep_eq, if_neg hrun]

theorem timerStep_stopped {s : State} (hstop : s.runState = .stopped) (tick : Bool) : timerStep tick s = s := by
  rw [timerStep_eq, if_pos hstop]

/-- Without a tick the draw is used up and nothing else happens. -/
theorem touches_timerStep_false {s : State} (hrun : s.runState ≠ .stopped) :
    Touches [.ticks] noReg s (timerStep false s) := by
  rw [timerStep_eq, if_neg hrun]
  exact touches_of_kept (fun p hp => by cases p <;> simp_all [Kept]) rfl

/-- Settles O10, from what the timer step does to each timer. -/
theorem timersCountDownAtATick : Obligations.TimersCountDownAtATick := fun s =>
  ⟨fun hrun => ⟨timerStep_dt hrun true, timerStep_st hrun true, (touches_timerStep s true).frame,
    (touches_timerStep_false hrun).frame⟩, timerStep_stopped⟩

/-! ### The halted poll -/

/-- The poll of a machine with a pressed key takes the lowest one (R253). -/
theorem haltedPoll_of_lowest {k : Nat} {s : State} (hk : isPressed k s = true)
    (hlow : ∀ j, j < k → isPressed j s = false) :
    k < 16 ∧ haltedPoll s = { setV s.waitReg (BitVec.ofNat 8 k) (setKey k false s) with runState := .running } := by
  have hlt : k < 16 := by
    by_contra hge
    rw [isPressed_ge k s (by omega)] at hk; cases hk
  rw [haltedPoll_eq, (lowestPressed_eq_some k s).2 ⟨hlt, hk, hlow⟩]
  exact ⟨hlt, rfl⟩

/-- The poll of a machine with no key pressed waits (R253). -/
theorem haltedPoll_of_none {s : State} (h : ∀ k, isPressed k s = false) : haltedPoll s = s := by
  rw [haltedPoll_eq, (lowestPressed_eq_none s).2 h]

/-- Settles O9: the step is the poll followed by the timer step, and the two touch different parts. -/
theorem haltedCycleTakesTheLowestKey : Obligations.HaltedCycleTakesTheLowestKey := by
  intro s hhalt hfree
  have hrun := haltedPoll_runState (s := takeMove s) hhalt
  have hpoll := touches_haltedPoll (takeMove s)
  have hdt : (haltedPoll (takeMove s)).dt = s.dt := hpoll.1 .dt (by decide)
  have hst : (haltedPoll (takeMove s)).st = s.st := hpoll.1 .st (by decide)
  have htimer := touches_timerStep (haltedPoll (takeMove s)) (Config.freeTick s.ticks)
  refine ⟨_, step_halted hhalt hfree, by rw [timerStep_dt hrun, hdt], by rw [timerStep_st hrun, hst],
    fun k hk hlow => ?taken, fun hnone => ?waits⟩
  case taken =>
    obtain ⟨hlt, hstate⟩ := haltedPoll_of_lowest (s := takeMove s) hk hlow
    have hkeys (j : Nat) : isPressed j (haltedPoll (takeMove s)) = if j = k then false else isPressed j s := by
      rw [hstate]
      refine (isPressed_setKey k j false (takeMove s)).trans ?_
      by_cases hjk : j = k
      · rw [if_pos ⟨hjk.symm, hjk ▸ hlt⟩, if_pos hjk]
      · rw [if_neg (fun h => hjk h.1.symm), if_neg hjk]; rfl
    have hv : (haltedPoll (takeMove s)).v[s.waitReg].toNat = k := by
      rw [hstate]
      show (setV s.waitReg (BitVec.ofNat 8 k) (setKey k false (takeMove s))).v[s.waitReg].toNat = k
      rw [setV_get_self, BitVec.toNat_ofNat]; omega
    refine ⟨?_, ?_, fun j => ?_, (hpoll.andThen htimer).frame⟩
    · rw [htimer.2 _ id, hv]
    · rw [timerStep_runState, hstate]
    · exact (htimer.1 .keys (by decide)).same j |>.trans (hkeys j)
  case waits =>
    rw [haltedPoll_of_none (s := takeMove s) hnone] at htimer ⊢
    exact htimer.frame

/-! ### A wait over many cycles -/

/-- The ticks among the first n + 1 draws are the first draw's and those among the next n. -/
theorem ticks_count_succ (tick : Nat → Bool) (first n : Nat) :
    ((List.range (n + 1)).filter fun j => tick (first + j)).length =
      (if tick first then 1 else 0) + ((List.range n).filter fun j => tick (first + 1 + j)).length := by
  have hshift : (fun j => tick (first + j)) ∘ Nat.succ = fun j => tick (first + 1 + j) := by
    funext j
    exact congrArg tick (by simp only [Nat.succ_eq_add_one]; omega)
  rw [List.range_succ_eq_map, List.filter_cons, List.filter_map, hshift]
  by_cases h : tick first = true
  · simp [h, Nat.add_comm]
  · simp [h]

/-- A cycle of a machine that waits with no key pressed is the timer step (R253, R256). -/
theorem step_waiting {s : State} (hhalt : s.runState = .halted) (hfree : MovesFreely s)
    (hnone : ∀ k, isPressed k s = false) : step s = .next (timerStep (Config.freeTick s.ticks) (takeMove s)) := by
  rw [step_halted hhalt hfree, haltedPoll_of_none (s := takeMove s) hnone]

/-- The moves to come after a timer step are those after the move that was taken. -/
theorem upcomingMove_timerStep (tick : Bool) (s : State) (j : Nat) :
    upcomingMove (timerStep tick (takeMove s)) j = upcomingMove s (j + 1) := by
  have htouch := touches_timerStep (takeMove s) tick
  have hschedule : (timerStep tick (takeMove s)).schedule = (takeMove s).schedule := htouch.1 .schedule (by decide)
  have hmoves : (timerStep tick (takeMove s)).moves = (takeMove s).moves := htouch.1 .moves (by decide)
  rw [← upcomingMove_takeMove, upcomingMove, upcomingMove, hschedule, hmoves]

/-- n cycles of a waiting machine: each timer goes down by the ticks among the n draws. By induction on n: a cycle is the
timer step, after which the machine waits again. -/
theorem run_waiting (n : Nat) (s : State) (hhalt : s.runState = .halted) (hstop : s.stopRequested = false)
    (hmoves : ∀ j, j < n → upcomingMove s j = .interpreter) (hnone : ∀ k, isPressed k s = false) :
    ∃ t, Host.Core.run Sys2Proof.core n s = .next t ∧
      t.dt.toNat = s.dt.toNat - ((List.range n).filter fun j => Config.freeTick (s.ticks + j)).length ∧
      t.st.toNat = s.st.toNat - ((List.range n).filter fun j => Config.freeTick (s.ticks + j)).length ∧
      Touches [.dt, .st, .ticks, .schedule, .moves] noReg s t := by
  induction n generalizing s with
  | zero => exact ⟨s, rfl, rfl, rfl, (Touches.refl s).mono (List.nil_subset _) fun _ => id⟩
  | succ n ih =>
    have hfree : MovesFreely s := ⟨(upcomingMove_zero s).symm.trans (hmoves 0 (by omega)), hstop⟩
    have hrun : (takeMove s).runState ≠ .stopped := by rw [takeMove_runState, hhalt]; decide
    have htouch := touches_timerStep (takeMove s) (Config.freeTick s.ticks)
    have hrequest : (timerStep (Config.freeTick s.ticks) (takeMove s)).stopRequested = s.stopRequested :=
      htouch.1 .stopRequested (by decide)
    obtain ⟨t, hrunN, hdt, hst, hrest⟩ := ih (timerStep (Config.freeTick s.ticks) (takeMove s))
      ((timerStep_runState _ _).trans hhalt) (hrequest.trans hstop)
      (fun j hj => (upcomingMove_timerStep _ s j).trans (hmoves (j + 1) (by omega)))
      (fun k => ((htouch.1 .keys (by decide)).same k).trans (hnone k))
    refine ⟨t, (core_run_succ n (step_waiting hhalt hfree hnone)).trans hrunN, ?_, ?_, ?_⟩
    · rw [hdt, timerStep_dt hrun, timerStep_ticks hrun, ticks_count_succ, takeMove_dt, takeMove_ticks, Nat.sub_sub]
    · rw [hst, timerStep_st hrun, timerStep_ticks hrun, ticks_count_succ, takeMove_st, takeMove_ticks, Nat.sub_sub]
    · exact (((touches_takeMove s).andThen htouch).andThen hrest).mono (by decide) fun _ => id

/-- Settles O11, from the run of n waiting cycles. -/
theorem waitingTimersCountTheTicks : Obligations.WaitingTimersCountTheTicks := by
  intro n s hhalt hstop hmoves hnone
  obtain ⟨t, hrun, hdt, hst, htouch⟩ := run_waiting n s hhalt hstop hmoves hnone
  exact ⟨t, hrun, hdt, hst, htouch.frame⟩

end Sys2Proof.Safety
end

section
/-! PROOFS of 60_exceptions.md §5, 20_memory.md §1 and §4, and 70_reset_and_hazards.md §1: the environment's moves, the
one-byte write, and the state after power-on. -/

namespace Sys2Proof.Safety

open Sys2Proof.Machine

/-! ### The environment's moves -/

/-- The step of a move of the environment is that move. -/
theorem step_environmentMove {s : State} {m : Move} (hmove : pendingMove s = m) (hm : m ≠ .interpreter) :
    step s = .next (environmentMove m (takeMove s)) := by
  subst hmove; exact step_of_environment hm

/-- Settles O59: a scheduled move is the head of the schedule, and a free one is what a schedule of it alone makes. -/
theorem nextMoveIsScheduledOrFree : Obligations.NextMoveIsScheduledOrFree := by
  intro s
  refine ⟨fun rest h => ?interpreter, fun m rest h hm => ?environment, fun h => ?free⟩
  case interpreter =>
    obtain ⟨hmove, htake⟩ := pendingMove_cons h
    exact ⟨htake, by rw [step_of_interpreter hmove, htake]⟩
  case environment =>
    obtain ⟨hmove, htake⟩ := pendingMove_cons h
    exact ⟨htake, by rw [step_environmentMove hmove hm, htake]⟩
  case free =>
    obtain ⟨hmove, htake⟩ := pendingMove_nil h
    refine ⟨htake, ?_⟩
    show makeMove (pendingMove s) (takeMove s) = makeMove (Config.freeMove s.moves) _
    rw [hmove, htake]
    congr 1
    simp [takeMove, h]

/-- A write of one key, in range or not, sets that key alone (R236). -/
theorem isPressed_setKey_bounded (k j : Nat) (b : Bool) (s : State) :
    isPressed j (setKey k b s) = if j = k ∧ k ≤ 0xF then b else isPressed j s := by
  rw [isPressed_setKey]
  by_cases h : j = k ∧ k ≤ 0xF
  · rw [if_pos (by omega), if_pos h]
  · rw [if_neg (by omega), if_neg h]

/-- Settles O12: both moves are a write of one key. -/
theorem pressAndReleaseSetOneKey : Obligations.PressAndReleaseSetOneKey := fun s k =>
  ⟨fun hmove => ⟨_, step_environmentMove hmove Move.noConfusion,
      fun j => isPressed_setKey_bounded k j true (takeMove s),
      (touches_setKey (takeMove s) k true).frame⟩,
    fun hmove => ⟨_, step_environmentMove hmove Move.noConfusion,
      fun j => isPressed_setKey_bounded k j false (takeMove s),
      (touches_setKey (takeMove s) k false).frame⟩⟩

/-- Settles O13: each is its operation on the state with the move taken. -/
theorem hostControlMoves : Obligations.HostControlMoves := fun s =>
  ⟨fun hmove => step_environmentMove hmove Move.noConfusion,
    fun hmove => (step_environmentMove hmove Move.noConfusion).trans (by rw [environmentMove_start, takeMove_runState]),
    fun hmove => step_environmentMove hmove Move.noConfusion, rfl, rfl⟩

/-! ### The load -/

/-- Where the host may not act the load is refused, whatever the image (R77). -/
theorem loadProgram_refused {s : State} (image : List Byte) (h : hostMayAct s = false) :
    loadProgram image s = .refused := by
  simp [loadProgram, h]

/-- An empty image is EmptyProgram (R76). -/
theorem loadProgram_empty {s : State} {image : List Byte} (h : hostMayAct s = true) (hlen : image.length = 0) :
    loadProgram image s = .failed .emptyProgram := by
  simp [loadProgram, h, hlen]

/-- An image past 0xE00 bytes is ProgramTooLarge (R76). -/
theorem loadProgram_tooLarge {s : State} {image : List Byte} (h : hostMayAct s = true) (hlen : 0xE00 < image.length) :
    loadProgram image s = .failed .programTooLarge := by
  simp [loadProgram, h, hlen, show image.length ≠ 0 by omega]

/-- The RAM after a load that the run state or the length refuses. -/
theorem loadProgram_mem_of_not {s : State} {image : List Byte}
    (h : ¬ (hostMayAct s = true ∧ 0 < image.length ∧ image.length ≤ 0xE00)) :
    (environmentMove (.loadProgram image) s).mem = s.mem := by
  rw [environmentMove_loadProgram]; exact if_neg h

theorem touches_loadProgram (image : List Byte) (s : State) :
    Touches [.mem] noReg s (environmentMove (.loadProgram image) s) := by
  rw [environmentMove_loadProgram]; exact touches_withMem s _

/-- The bytes after a load that is taken: the image from 0x200 on, every other byte as before (R76). -/
theorem byteAt_loadProgram {s : State} {image : List Byte} (hw : memWf s.mem = true) (hact : hostMayAct s = true)
    (hpos : 0 < image.length) (hlen : image.length ≤ 0xE00) (a : Nat) :
    byteAt (environmentMove (.loadProgram image) s) a =
      if 0x200 ≤ a ∧ a < 0x200 + image.length then image.getD (a - 0x200) 0 else byteAt s a := by
  rw [environmentMove_loadProgram, if_pos ⟨hact, hpos, hlen⟩]
  exact byteAt_storeImage image 0x200 a s hw (by decide) (by omega)

/-- Settles O14: by the run state, then by the length of the image. -/
theorem loadProgramCopiesTheImage : Obligations.LoadProgramCopiesTheImage := by
  intro s image hw hmove
  refine ⟨_, step_environmentMove hmove Move.noConfusion, (touches_loadProgram image (takeMove s)).frame,
    fun hidle => ?idle, fun hbusy => ?busy⟩
  case idle =>
    have hact : hostMayAct s = true := (hostMayAct_iff s).2 hidle
    refine ⟨fun hpos hlen => ?fits, fun hempty => ⟨loadProgram_empty hact hempty, ?_⟩,
      fun hlarge => ⟨loadProgram_tooLarge hact hlarge, ?_⟩⟩
    case fits =>
      have hbyte := byteAt_loadProgram (s := takeMove s) hw hact hpos hlen
      refine ⟨fun k hk => ?_, fun a ha => ?_⟩
      · rw [hbyte, if_pos (by omega), Nat.add_sub_cancel_left]
      · rw [hbyte, if_neg (by omega)]; rfl
    · exact loadProgram_mem_of_not (s := takeMove s) (by omega)
    · exact loadProgram_mem_of_not (s := takeMove s) (by omega)
  case busy =>
    have hact : hostMayAct s = false := by
      rw [Bool.eq_false_iff, ne_eq, hostMayAct_iff]
      rcases hbusy with e | e <;> rw [e] <;> decide
    exact ⟨loadProgram_refused image hact,
      loadProgram_mem_of_not (s := takeMove s) fun h => Bool.false_ne_true (hact.symm.trans h.1)⟩

/-! ### The reset -/

/-- The interpreter reset touches the registers, the timers and the run control, and nothing else (R322, R323). -/
theorem touches_interpreterReset (s : State) :
    Touches [.i, .pc, .sp, .dt, .st, .waitReg, .stopRequested, .error, .runState] (fun _ => True) s
      (interpreterReset s) :=
  ⟨fun p hp => by cases p <;> simp_all [Kept], fun _ hr => absurd trivial hr⟩

/-- Settles O15: the reset is the interpreter reset where the host may act, and nothing elsewhere. -/
theorem resetRestoresTheInterpreter : Obligations.ResetRestoresTheInterpreter := by
  intro s hmove
  refine ⟨_, step_environmentMove hmove Move.noConfusion, fun hidle => ?_, fun hbusy => ?_⟩
  · have hact : hostMayAct (takeMove s) = true := (hostMayAct_iff s).2 hidle
    rw [environmentMove_reset, if_pos hact]
    exact ⟨fun _ => rfl, rfl, rfl, rfl, rfl, rfl, rfl, rfl, rfl, rfl, (touches_interpreterReset (takeMove s)).frame⟩
  · have hact : ¬ hostMayAct (takeMove s) = true := by
      rw [hostMayAct_iff, takeMove_runState]
      rcases hbusy with e | e <;> rw [e] <;> decide
    rw [environmentMove_reset, if_neg hact]
    exact (Touches.refl (takeMove s)).frame

/-! ### The one-byte write -/

/-- Settles O17: a write in the user region is a store, which is read back and changes no other byte. -/
theorem writeStoresOneByteOfTheUserRegion : Obligations.WriteStoresOneByteOfTheUserRegion := by
  intro s a b hw
  refine ⟨fun hout => ?_, fun hlow hhigh => ?_⟩
  · have hfail : memWrite s a b = none := by rw [memWrite_eq, if_neg (by omega)]
    exact ⟨hfail, by rw [writeBytes, hfail]⟩
  · have hstore : memWrite s a b = some { s with mem := memStore s.mem a b } := by
      rw [memWrite_eq, if_pos ⟨hlow, hhigh⟩]
    have hbyte (a' : Nat) := byteAt_memStore s a a' b hw hlow
    refine ⟨_, hstore, by rw [writeBytes, hstore]; rfl, ?_, fun a' ha' => ?_, memStore_wf s.mem 0x200 a b hw hlow hhigh,
      (touches_withMem s _).frame⟩
    · rw [memRead_inside _ a hhigh, hbyte, if_pos rfl]
    · rw [memRead_eq, memRead_eq, hbyte, if_neg ha']

/-! ### The state after power-on -/

/-- Settles O21: the RAM is empty, so the user region reads zero; the screen is the cleared grid. -/
theorem resetLeavesTheSpecValues : Obligations.ResetLeavesTheSpecValues := by
  refine ⟨rfl, rfl, rfl, rfl, rfl, rfl, rfl, rfl, rfl, fun a hlow hhigh => ?ram, rfl, rfl, rfl, cellAt_clearGrid,
    fun k => ?keys⟩
  case ram => rw [memRead_inside _ a hhigh, byteAt_user _ a hlow]; rfl
  case keys =>
    unfold isPressed State.reset
    by_cases hk : k < 16 <;> simp [hk]

end Sys2Proof.Safety
end

section
/-! PROOFS of 30_encoding.md §1–§3: decode and encode agree, and which words are illegal. -/

namespace Sys2Proof

/-! ### The primary selector chooses the family (R95) -/

section

variable {op : Word}

theorem decode_family0 (h : fieldO op = 0x0) : decode op = decodeZero op := by simp [decode, h]
theorem decode_family1 (h : fieldO op = 0x1) : decode op = .instr (.jp (fieldNnn op)) := by simp [decode, h]
theorem decode_family2 (h : fieldO op = 0x2) : decode op = .instr (.call (fieldNnn op)) := by simp [decode, h]
theorem decode_family3 (h : fieldO op = 0x3) : decode op = .instr (.seImm (fieldX op) (fieldKk op)) := by
  simp [decode, h]
theorem decode_family4 (h : fieldO op = 0x4) : decode op = .instr (.sneImm (fieldX op) (fieldKk op)) := by
  simp [decode, h]
theorem decode_family5 (h : fieldO op = 0x5) :
    decode op = if fieldN op = 0 then .instr (.seReg (fieldX op) (fieldY op)) else .unknown op := by simp [decode, h]
theorem decode_family6 (h : fieldO op = 0x6) : decode op = .instr (.ldImm (fieldX op) (fieldKk op)) := by
  simp [decode, h]
theorem decode_family7 (h : fieldO op = 0x7) : decode op = .instr (.addImm (fieldX op) (fieldKk op)) := by
  simp [decode, h]
theorem decode_family8 (h : fieldO op = 0x8) : decode op = decodeAlu op := by simp [decode, h]
theorem decode_family9 (h : fieldO op = 0x9) :
    decode op = if fieldN op = 0 then .instr (.sneReg (fieldX op) (fieldY op)) else .unknown op := by simp [decode, h]
theorem decode_familyA (h : fieldO op = 0xA) : decode op = .instr (.ldI (fieldNnn op)) := by simp [decode, h]
theorem decode_familyB (h : fieldO op = 0xB) : decode op = .instr (.jpV0 (fieldNnn op)) := by simp [decode, h]
theorem decode_familyC (h : fieldO op = 0xC) : decode op = .instr (.rnd (fieldX op) (fieldKk op)) := by simp [decode, h]
theorem decode_familyD (h : fieldO op = 0xD) : decode op = .instr (.drw (fieldX op) (fieldY op) (fieldN op)) := by
  simp [decode, h]
theorem decode_familyE (h : fieldO op = 0xE) : decode op = decodeKey op := by simp [decode, h]
theorem decode_familyF (h : fieldO op = 0xF) : decode op = decodeMisc op := by simp [decode, h]

end

/-! ### Decode of encode -/

/-- Format XKK in a family that takes x and kk as they are. -/
theorem decode_wordXkk {o : Nibble} {x : Reg} {kk : Byte} {f : Reg → Byte → Instr}
    (h : ∀ op, fieldO op = o → decode op = .instr (f (fieldX op) (fieldKk op))) :
    decode (wordXkk o x kk) = .instr (f x kk) := by
  rw [h _ (wordXkk_o o x kk), wordXkk_x, wordXkk_kk]

/-- Format ADDR. -/
theorem decode_wordNnn {o : Nibble} {nnn : Addr} {f : Addr → Instr}
    (h : ∀ op, fieldO op = o → decode op = .instr (f (fieldNnn op))) : decode (wordNnn o nnn) = .instr (f nnn) := by
  rw [h _ (wordNnn_o o nnn), wordNnn_nnn]

/-- The 8 family. -/
theorem decode_alu (x y : Reg) (n : Nibble) : decode (wordXyn 0x8 x y n) = decodeAlu (wordXyn 0x8 x y n) :=
  decode_family8 (wordXyn_o _ _ _ _)

/-- The F family. -/
theorem decode_misc (x : Reg) (kk : Byte) : decode (wordXkk 0xF x kk) = decodeMisc (wordXkk 0xF x kk) :=
  decode_familyF (wordXkk_o _ _ _)

/-- Settles O1, format by format: the fields of the encoded word are the operands, and they select the row. -/
theorem decodeOfEncodeIsTheInstruction : Obligations.DecodeOfEncodeIsTheInstruction := by
  intro i hwf
  cases i with
  | scd n =>
    have hn : n ≠ 0 := by simpa [Instr.wellFormed] using hwf
    rw [encode, decode_family0 (wordXyn_o _ _ _ _), decodeZero, wordXyn_x, wordXyn_y, wordXyn_n, if_neg (by decide),
      if_pos ⟨rfl, hn⟩]
  | jp nnn => exact decode_wordNnn fun _ => decode_family1
  | call nnn => exact decode_wordNnn fun _ => decode_family2
  | ldI nnn => exact decode_wordNnn fun _ => decode_familyA
  | jpV0 nnn => exact decode_wordNnn fun _ => decode_familyB
  | seImm x kk => exact decode_wordXkk fun _ => decode_family3
  | sneImm x kk => exact decode_wordXkk fun _ => decode_family4
  | ldImm x kk => exact decode_wordXkk fun _ => decode_family6
  | addImm x kk => exact decode_wordXkk fun _ => decode_family7
  | rnd x kk => exact decode_wordXkk fun _ => decode_familyC
  | seReg x y => rw [encode, decode_family5 (wordXyn_o _ _ _ _), wordXyn_n, wordXyn_x, wordXyn_y]; rfl
  | sneReg x y => rw [encode, decode_family9 (wordXyn_o _ _ _ _), wordXyn_n, wordXyn_x, wordXyn_y]; rfl
  | drw x y n => rw [encode, decode_familyD (wordXyn_o _ _ _ _), wordXyn_n, wordXyn_x, wordXyn_y]
  | skp x | sknp x => rw [encode, decode_familyE (wordXkk_o _ _ _), decodeKey, wordXkk_kk, wordXkk_x]; rfl
  | ldReg x y | orReg x y | andReg x y | xorReg x y | addReg x y | subReg x y | shr x y | subn x y | shl x y =>
    rw [encode, decode_alu, decodeAlu, wordXyn_n, wordXyn_x, wordXyn_y]; rfl
  | ldVxDt x | ldVxK x | ldDtVx x | ldStVx x | addI x | ldF x | ldHf x | ldB x | ldMemVx x | ldVxMem x | ldRVx x
  | ldVxR x =>
    rw [encode, decode_misc, decodeMisc, wordXkk_kk, wordXkk_x]; rfl
  | cls | ret | scr | scl | exit | low | high => rfl

/-- Settles O4, word by word. -/
theorem patternWordsDecode : Obligations.PatternWordsDecode :=
  ⟨rfl, rfl, rfl, rfl, rfl, rfl, rfl, rfl, rfl, rfl, rfl, rfl⟩

/-! ### Encode of decode -/

/-- What O2 says of one word and one answer of the decoder: an instruction is the word's own. -/
def Encodes (op : Word) (d : Decoded) : Prop := ∀ i, d = .instr i → encode i = op ∧ i.wellFormed = true

theorem encodes_unknown (op : Word) : Encodes op (.unknown op) := fun _ h => Decoded.noConfusion h

theorem encodes_instr {op : Word} {i : Instr} (h : encode i = op) (hwf : i.wellFormed = true) :
    Encodes op (.instr i) := by
  rintro j ⟨rfl⟩; exact ⟨h, hwf⟩

theorem encodes_ite {op : Word} {c : Prop} [Decidable c] {i : Instr} {d : Decoded} (h : c → encode i = op)
    (hwf : i.wellFormed = true) (hd : Encodes op d) : Encodes op (if c then .instr i else d) := by
  split_ifs with hc
  · exact encodes_instr (h hc) hwf
  · exact hd

section

variable {op : Word} {o : Nibble}

theorem wordXkk_of_fields {kk : Byte} (ho : fieldO op = o) (hkk : fieldKk op = kk) : wordXkk o (fieldX op) kk = op := by
  rw [← ho, ← hkk, wordXkk_fields]

theorem wordXyn_of_fields {n : Nibble} (ho : fieldO op = o) (hn : fieldN op = n) :
    wordXyn o (fieldX op) (fieldY op) n = op := by
  rw [← ho, ← hn, wordXyn_fields]

theorem wordNnn_of_field (ho : fieldO op = o) : wordNnn o (fieldNnn op) = op := by
  rw [← ho, wordNnn_fields]

/-- The 0 family has x = 0 fixed beside o = 0. -/
theorem zeroWord_of_fields {kk : Byte} (ho : fieldO op = 0x0) (hx : fieldX op = 0) (hkk : fieldKk op = kk) :
    wordXkk 0x0 0 kk = op := by
  rw [← hx]; exact wordXkk_of_fields ho hkk

theorem decodeZero_encodes (ho : fieldO op = 0x0) : Encodes op (decodeZero op) := by
  unfold decodeZero
  split_ifs with hx hscd hcls hret hscr hscl hexit hlow hhigh
  · exact encodes_unknown op
  · refine encodes_instr ?_ (by simpa [Instr.wellFormed] using hscd.2)
    rw [encode, ← not_not.1 hx, ← hscd.1]; exact wordXyn_of_fields ho rfl
  · exact encodes_instr (zeroWord_of_fields ho (not_not.1 hx) hcls) rfl
  · exact encodes_instr (zeroWord_of_fields ho (not_not.1 hx) hret) rfl
  · exact encodes_instr (zeroWord_of_fields ho (not_not.1 hx) hscr) rfl
  · exact encodes_instr (zeroWord_of_fields ho (not_not.1 hx) hscl) rfl
  · exact encodes_instr (zeroWord_of_fields ho (not_not.1 hx) hexit) rfl
  · exact encodes_instr (zeroWord_of_fields ho (not_not.1 hx) hlow) rfl
  · exact encodes_instr (zeroWord_of_fields ho (not_not.1 hx) hhigh) rfl
  · exact encodes_unknown op

theorem decodeAlu_encodes (ho : fieldO op = 0x8) : Encodes op (decodeAlu op) := by
  unfold decodeAlu
  iterate 9 refine encodes_ite (wordXyn_of_fields ho) rfl ?_
  exact encodes_unknown op

theorem decodeKey_encodes (ho : fieldO op = 0xE) : Encodes op (decodeKey op) := by
  unfold decodeKey
  iterate 2 refine encodes_ite (wordXkk_of_fields ho) rfl ?_
  exact encodes_unknown op

theorem decodeMisc_encodes (ho : fieldO op = 0xF) : Encodes op (decodeMisc op) := by
  unfold decodeMisc
  iterate 12 refine encodes_ite (wordXkk_of_fields ho) rfl ?_
  exact encodes_unknown op

end

/-- A primary selector is one of sixteen. -/
theorem nibble_cases (o : Nibble) :
    o = 0x0 ∨ o = 0x1 ∨ o = 0x2 ∨ o = 0x3 ∨ o = 0x4 ∨ o = 0x5 ∨ o = 0x6 ∨ o = 0x7 ∨ o = 0x8 ∨ o = 0x9 ∨ o = 0xA ∨
      o = 0xB ∨ o = 0xC ∨ o = 0xD ∨ o = 0xE ∨ o = 0xF := by
  revert o; decide

/-- Settles O2, family by family: a word is its fields, and the instruction holds those that its row does not fix. -/
theorem encodeOfDecodeIsTheWord : Obligations.EncodeOfDecodeIsTheWord := by
  intro op
  show Encodes op (decode op)
  obtain h | h | h | h | h | h | h | h | h | h | h | h | h | h | h | h := nibble_cases (fieldO op)
  · rw [decode_family0 h]; exact decodeZero_encodes h
  · rw [decode_family1 h]; exact encodes_instr (wordNnn_of_field h) rfl
  · rw [decode_family2 h]; exact encodes_instr (wordNnn_of_field h) rfl
  · rw [decode_family3 h]; exact encodes_instr (wordXkk_of_fields h rfl) rfl
  · rw [decode_family4 h]; exact encodes_instr (wordXkk_of_fields h rfl) rfl
  · rw [decode_family5 h]; exact encodes_ite (wordXyn_of_fields h) rfl (encodes_unknown op)
  · rw [decode_family6 h]; exact encodes_instr (wordXkk_of_fields h rfl) rfl
  · rw [decode_family7 h]; exact encodes_instr (wordXkk_of_fields h rfl) rfl
  · rw [decode_family8 h]; exact decodeAlu_encodes h
  · rw [decode_family9 h]; exact encodes_ite (wordXyn_of_fields h) rfl (encodes_unknown op)
  · rw [decode_familyA h]; exact encodes_instr (wordNnn_of_field h) rfl
  · rw [decode_familyB h]; exact encodes_instr (wordNnn_of_field h) rfl
  · rw [decode_familyC h]; exact encodes_instr (wordXkk_of_fields h rfl) rfl
  · rw [decode_familyD h]; exact encodes_instr (wordXyn_of_fields h rfl) rfl
  · rw [decode_familyE h]; exact decodeKey_encodes h
  · rw [decode_familyF h]; exact decodeMisc_encodes h

/-! ### The illegal words -/

section

variable (op : Word)

theorem fieldO_eq_iff (o : Nibble) : fieldO op = o ↔ op.toNat / 0x1000 = o.toNat := by
  have hlt := op.isLt
  rw [← BitVec.toNat_inj, fieldO, BitVec.extractLsb'_toNat, Nat.shiftRight_eq_div_pow]
  omega

theorem fieldN_eq_iff (n : Nibble) : fieldN op = n ↔ op.toNat % 0x10 = n.toNat := by
  rw [← BitVec.toNat_inj, fieldN, BitVec.extractLsb'_toNat, Nat.shiftRight_eq_div_pow]
  omega

theorem fieldKk_eq_iff (kk : Byte) : fieldKk op = kk ↔ op.toNat % 0x100 = kk.toNat := by
  rw [← BitVec.toNat_inj, fieldKk, BitVec.extractLsb'_toNat, Nat.shiftRight_eq_div_pow]
  omega

theorem fieldX_eq_iff (x : Reg) : fieldX op = x ↔ op.toNat / 0x100 % 0x10 = x.val := by
  rw [← Fin.val_inj, fieldX, BitVec.val_toFin, BitVec.extractLsb'_toNat, Nat.shiftRight_eq_div_pow]

theorem fieldY_eq_iff (y : Reg) : fieldY op = y ↔ op.toNat / 0x10 % 0x10 = y.val := by
  rw [← Fin.val_inj, fieldY, BitVec.val_toFin, BitVec.extractLsb'_toNat, Nat.shiftRight_eq_div_pow]

end

/-- The answer of the decoder is Unknown exactly where P holds. -/
def UnknownIff (op : Word) (P : Prop) (d : Decoded) : Prop := (P → d = .unknown op) ∧ (¬ P → ∃ i, d = .instr i)

section

variable {op : Word} {P : Prop}

theorem unknownIff_instr (i : Instr) (h : ¬ P) : UnknownIff op P (.instr i) := ⟨fun hp => absurd hp h, fun _ => ⟨i, rfl⟩⟩

theorem unknownIff_unknown (h : P) : UnknownIff op P (.unknown op) := ⟨fun _ => rfl, fun hn => absurd h hn⟩

theorem unknownIff_ite {c : Prop} [Decidable c] {i : Instr} {d : Decoded} (h : c → ¬ P)
    (hd : ¬ c → UnknownIff op P d) : UnknownIff op P (if c then .instr i else d) := by
  split_ifs with hc
  · exact unknownIff_instr i (h hc)
  · exact hd hc

theorem decodeZero_unknownIff (ho : fieldO op = 0x0) :
    UnknownIff op (¬ (0x00C1 ≤ op.toNat ∧ op.toNat ≤ 0x00CF) ∧
      op.toNat ∉ [0x00E0, 0x00EE, 0x00FB, 0x00FC, 0x00FD, 0x00FE, 0x00FF]) (decodeZero op) := by
  unfold decodeZero
  by_cases hx : fieldX op = 0
  · rw [if_neg (not_not.2 hx)]
    simp only [ne_eq, fieldO_eq_iff, fieldX_eq_iff, fieldY_eq_iff, fieldN_eq_iff, fieldKk_eq_iff, List.mem_cons,
      List.not_mem_nil, or_false, BitVec.reduceToNat, Fin.isValue, Fin.coe_ofNat_eq_mod, Nat.reduceMod] at ho hx ⊢
    iterate 8 refine unknownIff_ite (fun _ => by omega) fun _ => ?_
    exact unknownIff_unknown (by omega)
  · rw [if_pos hx]
    simp only [fieldO_eq_iff, fieldX_eq_iff, List.mem_cons, List.not_mem_nil, or_false, BitVec.reduceToNat,
      Fin.isValue, Fin.val_zero] at ho hx ⊢
    exact unknownIff_unknown (by omega)

theorem decodeAlu_unknownIff :
    UnknownIff op (op.toNat % 0x10 ∈ [0x8, 0x9, 0xA, 0xB, 0xC, 0xD, 0xF]) (decodeAlu op) := by
  unfold decodeAlu
  simp only [fieldN_eq_iff, List.mem_cons, List.not_mem_nil, or_false, BitVec.reduceToNat]
  iterate 9 refine unknownIff_ite (fun _ => by omega) fun _ => ?_
  exact unknownIff_unknown (by omega)

theorem decodeKey_unknownIff : UnknownIff op (op.toNat % 0x100 ∉ [0x9E, 0xA1]) (decodeKey op) := by
  unfold decodeKey
  simp only [fieldKk_eq_iff, List.mem_cons, List.not_mem_nil, or_false, BitVec.reduceToNat]
  iterate 2 refine unknownIff_ite (fun _ => by omega) fun _ => ?_
  exact unknownIff_unknown (by omega)

theorem decodeMisc_unknownIff :
    UnknownIff op (op.toNat % 0x100 ∉ [0x07, 0x0A, 0x15, 0x18, 0x1E, 0x29, 0x30, 0x33, 0x55, 0x65, 0x75, 0x85])
      (decodeMisc op) := by
  unfold decodeMisc
  simp only [fieldKk_eq_iff, List.mem_cons, List.not_mem_nil, or_false, BitVec.reduceToNat]
  iterate 12 refine unknownIff_ite (fun _ => by omega) fun _ => ?_
  exact unknownIff_unknown (by omega)

/-- The families 5 and 9, which need n = 0. -/
theorem unknownIff_ite_n (i : Instr) :
    UnknownIff op (op.toNat % 0x10 ≠ 0) (if fieldN op = 0 then .instr i else .unknown op) := by
  simp only [fieldN_eq_iff, BitVec.reduceToNat]
  split_ifs with hn
  · exact unknownIff_instr i (by omega)
  · exact unknownIff_unknown hn

theorem UnknownIff.congr {Q : Prop} {d : Decoded} (h : UnknownIff op P d) (hPQ : Q ↔ P) : UnknownIff op Q d :=
  ⟨fun hq => h.1 (hPQ.1 hq), fun hq => h.2 fun hp => hq (hPQ.2 hp)⟩

end

/-- Settles O3, family by family: each family's illegal words are its group of the list, and six families have some. -/
theorem illegalWordsAreThoseOfTheList : Obligations.IllegalWordsAreThoseOfTheList := by
  intro op o n kk illegal
  show UnknownIff op illegal (decode op)
  have hgroup {k : Nibble} (h : fieldO op = k) : o = k.toNat := (fieldO_eq_iff op k).1 h
  obtain h | h | h | h | h | h | h | h | h | h | h | h | h | h | h | h := nibble_cases (fieldO op)
  · rw [decode_family0 h]; exact (decodeZero_unknownIff h).congr (by simp [illegal, hgroup h])
  · rw [decode_family1 h]; exact unknownIff_instr _ (by simp [illegal, hgroup h])
  · rw [decode_family2 h]; exact unknownIff_instr _ (by simp [illegal, hgroup h])
  · rw [decode_family3 h]; exact unknownIff_instr _ (by simp [illegal, hgroup h])
  · rw [decode_family4 h]; exact unknownIff_instr _ (by simp [illegal, hgroup h])
  · rw [decode_family5 h]; exact (unknownIff_ite_n _).congr (by simp [illegal, hgroup h, n])
  · rw [decode_family6 h]; exact unknownIff_instr _ (by simp [illegal, hgroup h])
  · rw [decode_family7 h]; exact unknownIff_instr _ (by simp [illegal, hgroup h])
  · rw [decode_family8 h]; exact decodeAlu_unknownIff.congr (by simp [illegal, hgroup h, n])
  · rw [decode_family9 h]; exact (unknownIff_ite_n _).congr (by simp [illegal, hgroup h, n])
  · rw [decode_familyA h]; exact unknownIff_instr _ (by simp [illegal, hgroup h])
  · rw [decode_familyB h]; exact unknownIff_instr _ (by simp [illegal, hgroup h])
  · rw [decode_familyC h]; exact unknownIff_instr _ (by simp [illegal, hgroup h])
  · rw [decode_familyD h]; exact unknownIff_instr _ (by simp [illegal, hgroup h])
  · rw [decode_familyE h]; exact decodeKey_unknownIff.congr (by simp [illegal, hgroup h, kk])
  · rw [decode_familyF h]; exact decodeMisc_unknownIff.congr (by simp [illegal, hgroup h, kk])

end Sys2Proof
end

section
/-! PROOFS of 40_screen_control.md §2, 42_register_alu.md §3, 43_address_register.md, 44_random.md, 46_key_query.md and
47_timers_and_wait.md: what the instructions that cannot fail do. -/

namespace Sys2Proof.Safety

open Sys2Proof.Machine

/-! ### Screen control -/

/-- The unit of a scroll (R127). -/
theorem scrollUnit_eq (s : State) :
    scrollUnit s = if s.extended = true ∨ s.params.qLoresScroll = .physical then 1 else 2 := by
  unfold scrollUnit
  cases s.extended <;> cases s.params.qLoresScroll <;> simp

/-- Settles O23: each scroll puts the scrolled grid in place of the cells. -/
theorem scrollsMoveTheCells : Obligations.ScrollsMoveTheCells := by
  intro s n u
  have hu : scrollUnit s = u := scrollUnit_eq s
  refine ⟨⟨_, rfl, frame_withCells _ s, fun r c hr _ => ?_⟩, ⟨_, rfl, frame_withCells _ s, fun r c hr hc => ?_⟩,
    ⟨_, rfl, frame_withCells _ s, fun r c hr _ => ?_⟩⟩
  · rw [← hu]; exact cellAt_scrollDown _ s.cells r c hr
  · rw [← hu]; exact cellAt_scrollRight _ s.cells r c hr hc
  · rw [← hu]; exact cellAt_scrollLeft _ s.cells r c hr

/-- Settles O25: EXIT is the normal stop. -/
theorem exitStopsNormally : Obligations.ExitStopsNormally :=
  fun s => ⟨stopNormal s, rfl, rfl, (touches_stopNormal s).frame⟩

/-! ### The register family -/

/-- The flag is written last, so it stands in VF whatever x is (R171). -/
theorem setVThenFlag_vf (x : Reg) (b : Byte) (c : Bool) (s : State) : (setVThenFlag x b c s).v[vf] = flagByte c :=
  setV_get_self vf (flagByte c) (setV x b s)

/-- The result stands in V[x] unless the flag replaces it (R171). -/
theorem setVThenFlag_result {x : Reg} (hx : x ≠ vf) (b : Byte) (c : Bool) (s : State) :
    (setVThenFlag x b c s).v[x] = b := by
  rw [setVThenFlag_eq_setV, setV_get, if_neg (Ne.symm hx), setV_get_self]

/-- An instruction that writes a result and then its flag, with what is said of the two. -/
theorem exec_setVThenFlag_spec {i : Instr} {s : State} {x : Reg} {b : Byte} {c : Bool} {R F : Byte → Prop}
    (hexec : exec i s = .next (setVThenFlag x b c s)) (hR : R b) (hF : F (flagByte c)) :
    ∃ t, exec i s = .next t ∧ (x ≠ vf → R t.v[x]) ∧ F t.v[vf] ∧ Frame [] (fun r => r = x ∨ r = vf) s t :=
  ⟨_, hexec, fun hx => by rw [setVThenFlag_result hx]; exact hR, by rw [setVThenFlag_vf]; exact hF,
    (touches_setVThenFlag x b c s).frame⟩

/-- Settles O35: the sum, then the carry. -/
theorem addSetsTheCarry : Obligations.AddSetsTheCarry := fun _ _ _ =>
  exec_setVThenFlag_spec (R := fun b => b.toNat = _) (F := fun b => b = _) rfl (BitVec.toNat_add _ _)
    (by simp only [flagByte, carry, decide_eq_true_eq])

/-- The difference of two bytes, without a negative number. -/
theorem byte_sub_toNat (a b : Byte) : (a - b).toNat = (a.toNat + 256 - b.toNat) % 256 := by
  have := b.isLt
  rw [BitVec.toNat_sub]
  congr 1
  omega

/-- The no-borrow flag as a byte (R184). -/
theorem flagByte_noBorrow (a b : Byte) : flagByte (noBorrow a b) = if a.toNat < b.toNat then 0 else 1 := by
  simp only [flagByte, noBorrow, decide_eq_true_eq, ← not_lt, ite_not]

/-- Settles O36: the difference, then the no-borrow flag, for both orders of the operands. -/
theorem subtractSetsNoBorrow : Obligations.SubtractSetsNoBorrow := fun _ _ _ =>
  ⟨exec_setVThenFlag_spec (R := fun b => b.toNat = _) (F := fun b => b = _) rfl (byte_sub_toNat _ _)
      (flagByte_noBorrow _ _),
    exec_setVThenFlag_spec (R := fun b => b.toNat = _) (F := fun b => b = _) rfl (byte_sub_toNat _ _)
      (flagByte_noBorrow _ _)⟩

/-- A shift right by one halves, and shifts out the remainder (R181). -/
theorem shr_toNat (b : Byte) : (b >>> 1).toNat = b.toNat / 2 ∧ (flagByte (shiftedOutLow b)).toNat = b.toNat % 2 := by
  revert b; decide

/-- A shift left by one doubles modulo 256, and shifts out the top bit (R183). -/
theorem shl_toNat (b : Byte) :
    (b <<< 1).toNat = b.toNat * 2 % 256 ∧ (flagByte (shiftedOutHigh b)).toNat = b.toNat / 128 := by
  revert b; decide

/-- Settles O37: the shifted source, then the bit shifted out. -/
theorem shiftsKeepTheBitShiftedOut : Obligations.ShiftsKeepTheBitShiftedOut := by
  intro s x y src hsrc
  have hsource : shiftSource x y s = src := hsrc.symm
  refine ⟨exec_setVThenFlag_spec (R := fun b => b.toNat = _) (F := fun b => b.toNat = _) rfl ?_ ?_,
    exec_setVThenFlag_spec (R := fun b => b.toNat = _) (F := fun b => b.toNat = _) rfl ?_ ?_⟩
  · rw [hsource]; exact (shr_toNat src).1
  · rw [hsource]; exact (shr_toNat src).2
  · rw [hsource]; exact (shl_toNat src).1
  · rw [hsource]; exact (shl_toNat src).2

/-- Settles O34: the result, then VF under the quirk alone. -/
theorem logicOperationsWriteTheirRegister : Obligations.LogicOperationsWriteTheirRegister := by
  intro s x y i result hi
  have hexec : exec i s = .next (logicFlag (setV x result s)) := by
    rcases hi with ⟨rfl, rfl⟩ | ⟨rfl, rfl⟩ | ⟨rfl, rfl⟩ <;> rfl
  refine ⟨_, hexec, ((touches_setV s x result).trans (touches_logicFlag _)).frame, fun hkept => ?_, fun hquirk => ?_⟩
  · rw [logicFlag_eq_setV, setV_get]
    by_cases hx : vf = x
    · subst hx
      have hquirk : s.params.qLogicVfReset = false := hkept.resolve_right fun h => h rfl
      simp [hquirk]
    · rw [if_neg hx, setV_get_self]
  · rw [logicFlag_eq_setV, setV_get_self]
    exact if_pos hquirk

/-! ### The address register family -/

/-- Settles O39: both are a write of I with the glyph's address. -/
theorem glyphPointersScaleTheRegister : Obligations.GlyphPointersScaleTheRegister := fun s x =>
  ⟨⟨_, rfl, smallGlyph_toNat s.v[x], frame_setI _ s⟩, ⟨_, rfl, bigGlyph_toNat s.v[x], frame_setI _ s⟩⟩

/-- Settles O40: the wrapped sum in I, then the overflow flag. -/
theorem addToIWrapsAndFlags : Obligations.AddToIWrapsAndFlags := by
  intro s x
  refine ⟨setV vf (flagByte (overflow12 s.i s.v[x])) (setI (wrapAddr s.i s.v[x].toNat) s), rfl, wrapAddr_toNat _ _, ?_,
    (touches_of_exec (i := .addI x) rfl).frame⟩
  rw [setV_get_self]
  simp only [flagByte, overflow12, decide_eq_true_eq]

/-- The base register of Bnnn (R198). -/
theorem jumpBase_eq {nnn : Addr} {s : State} {r : Reg}
    (hr : r.val = (match s.params.qJump with | .v0 => 0 | .vx => nnn.toNat / 256)) : jumpBase nnn s = s.v[r] := by
  unfold jumpBase
  cases hq : s.params.qJump with
  | v0 =>
    rw [hq] at hr
    obtain rfl : r = 0 := Fin.ext hr
    rfl
  | vx =>
    have hval : r.val = nnn.toNat / 256 := by rw [hq] at hr; exact hr
    have hreg : addrReg nnn = r := by
      apply Fin.ext
      rw [hval, addrReg, BitVec.val_toFin, BitVec.extractLsb'_toNat, Nat.shiftRight_eq_div_pow]
      omega
    obtain rfl := hreg
    rfl

/-- Settles O41: PC is the target, and the normal stop follows under the quirk alone. -/
theorem indexedJumpAddsTheRegister : Obligations.IndexedJumpAddsTheRegister := by
  intro s nnn r hr
  have htarget : (jumpTarget nnn s).toNat = s.v[r].toNat + nnn.toNat := by rw [jumpTarget_toNat, jumpBase_eq hr]
  have hself : jumpTarget nnn s = pc0 s ↔ s.v[r].toNat + nnn.toNat = (s.pc - 2).toNat := by
    rw [← BitVec.toNat_inj, htarget, pc0]
  refine ⟨_, exec_jpV0 nnn s, ?_, ?_, (touches_of_exec (exec_jpV0 nnn s)).frame⟩
  · split <;> exact htarget
  · by_cases hstop : s.params.qSelfLoopBnnn = true ∧ jumpTarget nnn s = pc0 s
    · rw [if_pos hstop, if_pos ⟨hstop.1, hself.1 hstop.2⟩]; rfl
    · rw [if_neg hstop, if_neg fun h => hstop ⟨h.1, hself.2 h.2⟩]; rfl

/-! ### The random byte -/

/-- Settles O42: a register write of the masked byte, then the draw is taken. -/
theorem randomByteIsMasked : Obligations.RandomByteIsMasked := fun s x kk =>
  ⟨takeDraw (setV x (randomByte s &&& kk) s), rfl, setV_get_self x _ s, rfl,
    (touches_of_exec (i := .rnd x kk) rfl).frame⟩

/-! ### The key queries -/

/-- A released key, and every other as before. -/
theorem isPressed_consume (k j : Nat) (s : State) :
    isPressed j (consume k s) = if j = k then false else isPressed j s := by
  rw [consume_eq_setKey, isPressed_setKey]
  by_cases hjk : j = k
  · subst hjk
    by_cases hj : j < 16
    · rw [if_pos ⟨rfl, hj⟩, if_pos rfl]
    · rw [if_neg (fun h => hj h.2), if_pos rfl, isPressed_ge j s (by omega)]
  · rw [if_neg (fun h => hjk h.1.symm), if_neg hjk]

/-- A released key under the quirk of ExA1 alone. -/
theorem isPressed_sknpConsume (k j : Nat) (s : State) :
    isPressed j (sknpConsume k s) = if s.params.qExa1Consume = true ∧ j = k then false else isPressed j s := by
  unfold sknpConsume
  by_cases hquirk : s.params.qExa1Consume = true
  · rw [if_pos hquirk, isPressed_consume]; simp [hquirk]
  · rw [if_neg hquirk, if_neg fun h => hquirk h.1]

theorem consume_pc (k : Nat) (s : State) : (consume k s).pc = s.pc := (touches_consume k s).1 .pc (by decide)

theorem sknpConsume_pc (k : Nat) (s : State) : (sknpConsume k s).pc = s.pc := (touches_sknpConsume k s).1 .pc (by decide)

/-- A skip reads no key. -/
theorem isPressed_skipIf (c : Bool) (k : Nat) (s : State) : isPressed k (skipIf c s) = isPressed k s :=
  ((touches_skipIf c s).1 .keys (by decide)).same k

theorem skipIf_pc (c : Bool) (s : State) : (skipIf c s).pc = if c then s.pc + 2 else s.pc := by
  rw [skipIf_eq_setPc, setPc_pc]

/-- Settles O46: the key is consumed, then the skip on what it was. -/
theorem keyQueriesSkipAndConsume : Obligations.KeyQueriesSkipAndConsume := by
  intro s x
  refine ⟨⟨skipIf (isPressed s.v[x].toNat s) (consume s.v[x].toNat s), rfl, ?_, fun hx => ?_, fun k => ?_,
    (touches_of_exec (i := .skp x) rfl).frame⟩,
    ⟨skipIf (!isPressed s.v[x].toNat s) (sknpConsume s.v[x].toNat s), rfl, ?_, fun hx => ?_, fun k => ?_,
    (touches_of_exec (i := .sknp x) rfl).frame⟩⟩
  · rw [skipIf_pc, consume_pc]
  · rw [skipIf_pc, isPressed_ge _ s (by omega), consume_pc]; rfl
  · rw [isPressed_skipIf, isPressed_consume]
  · rw [skipIf_pc, sknpConsume_pc]
    cases isPressed s.v[x].toNat s <;> rfl
  · rw [skipIf_pc, isPressed_ge _ s (by omega), sknpConsume_pc]; rfl
  · rw [isPressed_skipIf, isPressed_sknpConsume]

/-! ### The timer instructions -/

/-- Settles O47: each is one update, and each word lies in its row of the opcode table. -/
theorem timerInstructionsCopyAndWait : Obligations.TimerInstructionsCopyAndWait := fun s x =>
  ⟨exec_setV_spec (b := s.dt) rfl, ⟨_, rfl, rfl, rfl, (touches_waitFor s x).frame⟩,
    ⟨_, rfl, rfl, (touches_withDt s _).frame⟩, ⟨_, rfl, rfl, (touches_withSt s _).frame⟩,
    Laws.TableRow.ldVxDt x, Laws.TableRow.ldVxK x, Laws.TableRow.ldDtVx x, Laws.TableRow.ldStVx x⟩

/-! ### Who reaches what -/

/-- The footprint of an instruction that does not reach the Framebuffer (R302). -/
theorem footprint_of_not_reachesFramebuffer {i : Instr} (h : reachesFramebuffer i = false) :
    .cells ∉ footprint i ∧ .extended ∉ footprint i := by
  cases i <;> simp_all [reachesFramebuffer, footprint]

/-- The footprint of an instruction that does not store (R69). -/
theorem footprint_of_not_storesToMemory {i : Instr} (h : storesToMemory i = false) : .mem ∉ footprint i := by
  cases i <;> simp_all [storesToMemory, footprint]

/-- The key queries alone have the keys in their footprint. -/
theorem keys_mem_footprint {i : Instr} (h : .keys ∈ footprint i) : ∃ x, i = .skp x ∨ i = .sknp x := by
  cases i <;> simp_all [footprint]

/-- Fx75 alone has the RPL flags in its footprint. -/
theorem rpl_mem_footprint {i : Instr} (h : .rpl ∈ footprint i) : ∃ x, i = .ldRVx x := by
  cases i <;> simp_all [footprint]

/-- The call and the return alone have SP in their footprint. -/
theorem sp_mem_footprint {i : Instr} (h : .sp ∈ footprint i) : i = .ret ∨ ∃ nnn, i = .call nnn := by
  cases i <;> simp_all [footprint]

/-- Settles O56: a unit that is not in an instruction's footprint is kept. -/
theorem unitsAreReachedOnlyByTheirInstructions : Obligations.UnitsAreReachedOnlyByTheirInstructions := by
  intro i s t h
  have kept := (touches_of_exec h).1
  refine ⟨fun hi => ?framebuffer, fun hi => kept .keys fun hmem => ?_, fun hi => kept .rpl fun hmem => ?_,
    fun hi => kept .sp fun hmem => ?_, fun hi => (kept .mem (footprint_of_not_storesToMemory hi)).1⟩
  case framebuffer =>
    obtain ⟨hcells, hextended⟩ := footprint_of_not_reachesFramebuffer hi
    exact ⟨kept .cells hcells, kept .extended hextended⟩
  · obtain ⟨x, e⟩ := keys_mem_footprint hmem
    exact e.elim (hi x).1 (hi x).2
  · obtain ⟨x, e⟩ := rpl_mem_footprint hmem
    exact hi x e
  · obtain e | ⟨nnn, e⟩ := sp_mem_footprint hmem
    · exact hi.1 e
    · exact hi.2 nnn e

/-- Settles O57: VF is a destination of the listed instructions alone. -/
theorem onlyTheListedInstructionsWriteVf : Obligations.OnlyTheListedInstructionsWriteVf := by
  intro i s t h hi
  refine (touches_of_exec h).2 vf fun hdest => ?_
  cases i with
  | ldVxMem x =>
    have hx : x ≠ vf := by simpa [mayWriteVf] using hi
    exact hx (le_antisymm (Fin.le_last x) hdest)
  | ldVxR x =>
    obtain ⟨hlow, hhigh⟩ := hdest
    exact absurd ((Fin.le_def.1 hlow).trans hhigh : vf.val ≤ 7) (by decide)
  | _ => simp_all [destinations, mayWriteVf, noReg]

end Sys2Proof.Safety
end

section
/-! PROOFS of 41_control_flow.md §2 and 20_memory.md §3: the jump, and the call and the return on the stack. -/

namespace Sys2Proof.Safety

open Sys2Proof.Machine

/-! ### The jump -/

/-- An instruction that jumps to its own address, as numbers. -/
theorem zextAddr_eq_pc0_iff (nnn : Addr) (s : State) : zextAddr nnn = pc0 s ↔ nnn.toNat = (s.pc - 2).toNat := by
  rw [← BitVec.toNat_inj, zextAddr_toNat, pc0]

/-- Settles O26: PC is the target, and the normal stop follows for the instruction's own address. -/
theorem jumpGoesToItsTarget : Obligations.JumpGoesToItsTarget := by
  intro s nnn
  refine ⟨_, exec_jp nnn s, ?_, ?_, (touches_of_exec (exec_jp nnn s)).frame⟩
  · split <;> exact zextAddr_toNat nnn
  · by_cases hself : zextAddr nnn = pc0 s
    · rw [if_pos hself, if_pos ((zextAddr_eq_pc0_iff nnn s).1 hself)]; rfl
    · rw [if_neg hself, if_neg fun h => hself ((zextAddr_eq_pc0_iff nnn s).2 h)]; rfl

/-! ### The call -/

/-- The stack pointers of the machine, as numbers (R29). -/
theorem SpLegal.bounds {w : Word} (h : SpLegal w) : 0x0EA0 ≤ w.toNat ∧ w.toNat ≤ 0x1000 ∧ w.toNat % 2 = 0 := by
  obtain ⟨k, hk, e⟩ := h
  omega

theorem highByte_toNat (w : Word) : (highByte w).toNat = w.toNat / 256 := by
  have := w.isLt
  rw [highByte, BitVec.extractLsb'_toNat, Nat.shiftRight_eq_div_pow]
  omega

theorem lowByte_toNat (w : Word) : (lowByte w).toNat = w.toNat % 256 := by
  rw [lowByte, BitVec.extractLsb'_toNat]; rfl

/-- The state that a CALL with room on the stack leaves: the pushed word in memory, SP past it, PC at the target. -/
def calledState (nnn : Addr) (s : State) : State :=
  setPc (zextAddr nnn)
    { s with mem := storeImage [highByte s.pc, lowByte s.pc] s.sp.toNat s.mem, sp := s.sp + 2 }

theorem exec_call_room {nnn : Addr} {s : State} (hsp : SpLegal s.sp) (hroom : s.sp.toNat ≠ 0x1000)
    (hother : nnn.toNat ≠ (s.pc - 2).toNat) : exec (.call nnn) s = .next (calledState nnn s) := by
  obtain ⟨hlow, hhigh, heven⟩ := hsp.bounds
  have hpush := push_eq s.pc s (fun h => hroom (by rw [h]; rfl)) (by omega) (by omega)
  rw [exec_call_other fun h => hother ((zextAddr_eq_pc0_iff nnn s).1 h), hpush]
  rfl

/-- SP after a push with room (R72). -/
theorem SpLegal.add_two_toNat {w : Word} (h : SpLegal w) : (w + 2).toNat = w.toNat + 2 := by
  have := h.bounds
  rw [BitVec.toNat_add]; simp; omega

/-- SP after a pop (R73). -/
theorem SpLegal.sub_two_toNat {w : Word} (h : SpLegal w) : (w - 2).toNat = w.toNat - 2 := by
  have := h.bounds
  rw [BitVec.toNat_sub]; simp; omega

/-- The bytes after a push: the two of the entry, every other as before. -/
theorem byteAt_calledState {s : State} (nnn : Addr) (hw : memWf s.mem = true) (hsp : SpLegal s.sp)
    (hroom : s.sp.toNat ≠ 0x1000) (a : Nat) :
    byteAt (calledState nnn s) a =
      if s.sp.toNat ≤ a ∧ a < s.sp.toNat + 2 then [highByte s.pc, lowByte s.pc].getD (a - s.sp.toNat) 0
      else byteAt s a := by
  obtain ⟨hlow, hhigh, heven⟩ := hsp.bounds
  exact byteAt_storeImage [highByte s.pc, lowByte s.pc] s.sp.toNat a s hw (by omega) (by simp; omega)

/-- The high byte of the pushed word lies at SP. -/
theorem byteAt_calledState_high {s : State} (nnn : Addr) (hw : memWf s.mem = true) (hsp : SpLegal s.sp)
    (hroom : s.sp.toNat ≠ 0x1000) : byteAt (calledState nnn s) s.sp.toNat = highByte s.pc := by
  rw [byteAt_calledState nnn hw hsp hroom, if_pos (by omega), Nat.sub_self]; rfl

/-- The low byte of the pushed word lies at SP + 1. -/
theorem byteAt_calledState_low {s : State} (nnn : Addr) (hw : memWf s.mem = true) (hsp : SpLegal s.sp)
    (hroom : s.sp.toNat ≠ 0x1000) : byteAt (calledState nnn s) (s.sp.toNat + 1) = lowByte s.pc := by
  rw [byteAt_calledState nnn hw hsp hroom, if_pos (by omega), Nat.add_sub_cancel_left]; rfl

theorem touches_calledState (nnn : Addr) (s : State) : Touches [.pc, .sp, .mem] noReg s (calledState nnn s) :=
  (((touches_withMem s (storeImage [highByte s.pc, lowByte s.pc] s.sp.toNat s.mem)).andThen
    (touches_withSp _ (s.sp + 2))).andThen (touches_setPc _ (zextAddr nnn))).mono (by decide) fun _ => id

/-- Settles O27, from the state that the CALL leaves. -/
theorem callPushesTheReturnAddress : Obligations.CallPushesTheReturnAddress := by
  intro s nnn hw hsp hroom hother
  refine ⟨_, exec_call_room hsp hroom hother, zextAddr_toNat nnn, hsp.add_two_toNat, ?_, ?_, fun a hhigh hlow => ?_,
    (touches_calledState nnn s).frame⟩
  · rw [byteAt_calledState_high nnn hw hsp hroom, highByte_toNat]
  · rw [byteAt_calledState_low nnn hw hsp hroom, lowByte_toNat]
  · rw [byteAt_calledState nnn hw hsp hroom, if_neg (by omega)]

/-- Settles O28: the self-call check comes before the push, and a full stack fails before any write. -/
theorem callOfItselfOrOnAFullStackStops : Obligations.CallOfItselfOrOnAFullStackStops := by
  intro s nnn
  refine ⟨fun hself => ?_, fun hother hfull => ?_⟩
  · exact ⟨_, exec_call_self ((zextAddr_eq_pc0_iff nnn s).2 hself), zextAddr_toNat nnn, rfl,
      ((touches_setPc s _).andThen (touches_stopNormal _)).frame⟩
  · refine ⟨_, ?_, ⟨rfl, rfl⟩, (touches_fatalStop s _).frame⟩
    rw [exec_call_other fun h => hother ((zextAddr_eq_pc0_iff nnn s).1 h), push_full s.pc s hfull]
    rfl

/-! ### The return -/

/-- The entry below SP, as a RET reads it (R67, R73). -/
theorem pop_of_entry {s : State} (hsp : SpLegal s.sp) (hentry : s.sp.toNat ≠ 0x0EA0) :
    pop s =
      if 0x0FFF < (joinBytes (byteAt s (s.sp.toNat - 2)) (byteAt s (s.sp.toNat - 1))).toNat then
        .failed .invalidStackAddress none { s with sp := s.sp - 2 }
      else .popped (joinBytes (byteAt s (s.sp.toNat - 2)) (byteAt s (s.sp.toNat - 1))) { s with sp := s.sp - 2 } := by
  obtain ⟨hlow, hhigh, heven⟩ := hsp.bounds
  have hsub := hsp.sub_two_toNat
  rw [pop_eq s (fun h => hentry (by rw [h]; rfl)) (by omega), hsub, show s.sp.toNat - 2 + 1 = s.sp.toNat - 1 by omega]

theorem exec_ret_of_entry {s : State} (hsp : SpLegal s.sp) (hentry : s.sp.toNat ≠ 0x0EA0)
    (hvalue : (joinBytes (byteAt s (s.sp.toNat - 2)) (byteAt s (s.sp.toNat - 1))).toNat ≤ 0xFFF) :
    exec .ret s =
      .next (setPc (joinBytes (byteAt s (s.sp.toNat - 2)) (byteAt s (s.sp.toNat - 1))) { s with sp := s.sp - 2 }) := by
  rw [exec_ret, pop_of_entry hsp hentry, if_neg (by omega)]

theorem exec_ret_of_bad_entry {s : State} (hsp : SpLegal s.sp) (hentry : s.sp.toNat ≠ 0x0EA0)
    (hvalue : 0xFFF < (joinBytes (byteAt s (s.sp.toNat - 2)) (byteAt s (s.sp.toNat - 1))).toNat) :
    exec .ret s = raise .invalidStackAddress none .ret { s with sp := s.sp - 2 } := by
  rw [exec_ret, pop_of_entry hsp hentry, if_pos hvalue]

theorem exec_ret_empty {s : State} (h : s.sp = 0x0EA0) : exec .ret s = raise .stackUnderflow none .ret s := by
  rw [exec_ret, pop_empty s h]

/-- Settles O29, from the entry below SP. -/
theorem returnPopsTheAddress : Obligations.ReturnPopsTheAddress := by
  rintro s w hsp hentry rfl hvalue
  refine ⟨_, exec_ret_of_entry hsp hentry hvalue, rfl, hsp.sub_two_toNat, ?_⟩
  exact (((touches_withSp s (s.sp - 2)).andThen (touches_setPc _ _)).mono (by decide) fun _ => id).frame

/-- Settles O30: the underflow check comes before SP is lowered, the value check after. -/
theorem returnFailures : Obligations.ReturnFailures := by
  intro s
  refine ⟨fun hempty => ?_, fun hsp hentry hvalue => ?_⟩
  · exact ⟨_, exec_ret_empty hempty, ⟨rfl, rfl⟩, (touches_fatalStop s _).frame⟩
  · exact ⟨_, exec_ret_of_bad_entry hsp hentry hvalue, ⟨rfl, rfl⟩, hsp.sub_two_toNat,
      ((touches_withSp s _).andThen (touches_fatalStop _ _)).frame⟩

/-- Settles O31: the entry below the new SP is the pushed word, whose two bytes join to it. -/
theorem returnUndoesTheCall : Obligations.ReturnUndoesTheCall := by
  intro s nnn hw hsp hroom hother hpc
  refine ⟨_, exec_call_room hsp hroom hother, fun u hmem hu => ?_⟩
  have hspu : u.sp = s.sp + 2 := hu
  have hadd : u.sp.toNat = s.sp.toNat + 2 := by rw [hspu, hsp.add_two_toNat]
  have hlegal : SpLegal u.sp := by
    rw [hspu]; exact hsp.push fun h => hroom (by rw [h]; rfl)
  have hword : joinBytes (byteAt u (u.sp.toNat - 2)) (byteAt u (u.sp.toNat - 1)) = s.pc := by
    rw [hadd, show s.sp.toNat + 2 - 2 = s.sp.toNat by omega, show s.sp.toNat + 2 - 1 = s.sp.toNat + 1 by omega, hmem,
      hmem, byteAt_calledState_high nnn hw hsp hroom, byteAt_calledState_low nnn hw hsp hroom,
      joinBytes_highByte_lowByte]
  have hbase := hsp.bounds
  refine ⟨_, exec_ret_of_entry hlegal (by omega) (by rw [hword]; exact hpc), hword, ?_⟩
  show u.sp - 2 = s.sp
  rw [hspu, BitVec.add_sub_cancel]

end Sys2Proof.Safety
end

section
/-! PROOFS of 48_bcd_and_bulk.md: the BCD store and the bulk transfers, where they end and where they fail. -/

namespace Sys2Proof.Safety

open Sys2Proof.Machine

/-! ### A write that ends, a write that fails -/

theorem writeBytes_done {bs : List Byte} {a : Nat} (s : State) (hlow : 0x200 ≤ a) (hhigh : a + bs.length ≤ 0x1000) :
    writeBytes bs a s = .done { s with mem := storeImage bs a s.mem } := by
  rw [writeBytes_eq, if_pos (.inr ⟨hlow, hhigh⟩)]

/-- How many bytes a failing write stores before the first address outside the user region. -/
def storedBefore (a : Nat) : Nat := if a < 0x200 then 0 else 0x1000 - a

/-- The state that a failing write leaves. -/
def storedPart (bs : List Byte) (a : Nat) (s : State) : State :=
  { s with mem := storeImage (bs.take (storedBefore a)) a s.mem }

theorem writeBytes_fails {bs : List Byte} {a : Nat} (s : State) (hne : bs ≠ [])
    (hout : ¬ (0x200 ≤ a ∧ a + bs.length ≤ 0x1000)) :
    writeBytes bs a s = .outOfRange (storedPart bs a s) (a + storedBefore a) := by
  rw [writeBytes_eq, if_neg (not_or.2 ⟨hne, hout⟩)]
  unfold storedPart storedBefore
  by_cases hlow : a < 0x200
  · rw [if_pos hlow, if_pos hlow]; rfl
  · rw [if_neg hlow, if_neg hlow, show max a 0x1000 = a + (0x1000 - a) by omega]

/-- The bytes that a failing write leaves: those before the first failing address are stored. -/
theorem byteAt_storedPart {bs : List Byte} {a : Nat} {s : State} (hw : memWf s.mem = true)
    (hout : ¬ (0x200 ≤ a ∧ a + bs.length ≤ 0x1000)) (a' : Nat) :
    byteAt (storedPart bs a s) a' =
      if a ≤ a' ∧ a' < a + storedBefore a then bs.getD (a' - a) 0 else byteAt s a' := by
  unfold storedPart
  by_cases hnone : storedBefore a = 0
  · rw [hnone, if_neg (by omega)]; rfl
  · have hbefore : storedBefore a = 0x1000 - a ∧ 0x200 ≤ a ∧ a < 0x1000 := by
      unfold storedBefore at hnone ⊢
      split at hnone
      · exact absurd rfl hnone
      · next hlow => exact ⟨if_neg hlow, by omega, by omega⟩
    obtain ⟨hcount, hlow, hhigh⟩ := hbefore
    have hlength : (bs.take (storedBefore a)).length = storedBefore a := by rw [List.length_take]; omega
    rw [byteAt_storeImage _ a a' s hw hlow (by omega), hlength]
    by_cases hin : a ≤ a' ∧ a' < a + storedBefore a
    · rw [if_pos hin, if_pos hin, List.getD_eq_getElem?_getD, List.getD_eq_getElem?_getD,
        List.getElem?_take_of_lt (by omega)]
    · rw [if_neg hin, if_neg hin]

/-! ### Fx33 -/

@[simp] theorem bcdDigits_length (b : Byte) : (bcdDigits b).length = 3 := rfl

/-- The three digits as numbers (R266). -/
theorem bcdDigits_toNat (b : Byte) :
    ((bcdDigits b).getD 0 0).toNat = b.toNat / 100 ∧ ((bcdDigits b).getD 1 0).toNat = b.toNat / 10 % 10 ∧
      ((bcdDigits b).getD 2 0).toNat = b.toNat % 10 := by
  have := b.isLt
  refine ⟨?_, ?_, ?_⟩
  · exact (BitVec.toNat_ofNat _ _).trans (Nat.mod_eq_of_lt (by omega))
  · exact (BitVec.toNat_ofNat _ _).trans (Nat.mod_eq_of_lt (by omega))
  · exact (BitVec.toNat_ofNat _ _).trans (Nat.mod_eq_of_lt (by omega))

/-- Settles O48: the transfer stores the list of the three digits. -/
theorem bcdStoresThreeDigits : Obligations.BcdStoresThreeDigits := by
  intro s x hw hlow hhigh
  have hlen := bcdDigits_length s.v[x]
  have hbyte (a : Nat) := byteAt_storeImage (bcdDigits s.v[x]) s.i.toNat a s hw hlow (by omega)
  obtain ⟨hhundreds, htens, hones⟩ := bcdDigits_toNat s.v[x]
  refine ⟨{ s with mem := storeImage (bcdDigits s.v[x]) s.i.toNat s.mem }, ?_, ?_, ?_, ?_, fun a ha => ?_,
    (touches_withMem s _).frame⟩
  · rw [exec_ldB, writeBytes_done s hlow (by omega)]
  · rw [hbyte, if_pos (by omega), Nat.sub_self]; exact hhundreds
  · rw [hbyte, if_pos (by omega), Nat.add_sub_cancel_left]; exact htens
  · rw [hbyte, if_pos (by omega), Nat.add_sub_cancel_left]; exact hones
  · rw [hbyte, if_neg (by omega)]

/-! ### Fx55 and Fx65 -/

@[simp] theorem regsUpTo_length (x : Reg) (s : State) : (regsUpTo x s).length = x.val + 1 := by
  rw [regsUpTo, List.length_take, Vector.length_toList]; omega

/-- The list of V0..Vx holds V[r] at place r (R267). -/
theorem regsUpTo_getD {x r : Reg} (h : r ≤ x) (s : State) : (regsUpTo x s).getD r.val 0 = s.v[r] := by
  have hr : r.val < x.val + 1 := Nat.lt_succ_of_le h
  rw [regsUpTo, List.getD_eq_getElem?_getD, List.getElem?_take_of_lt hr]
  simp

/-- I after a bulk transfer (R268). -/
theorem loadStoreI_toNat (x : Reg) (s : State) :
    (loadStoreI x s).i.toNat = (match s.params.qLoadStoreI with
      | .unchanged => s.i.toNat
      | .increment => (s.i.toNat + x.val + 1) % 0x1000) := by
  rw [loadStoreI_eq_setI, setI_i]
  cases s.params.qLoadStoreI with
  | unchanged => rfl
  | increment => rw [if_pos rfl, wrapAddr_toNat]; rfl

theorem byteAt_loadStoreI (x : Reg) (s : State) (a : Nat) : byteAt (loadStoreI x s) a = byteAt s a :=
  ((touches_loadStoreI x s).1 .mem (by decide)).same a

/-- Settles O49: the transfer stores the list of V0..Vx, then I is updated. -/
theorem storeRegistersToMemory : Obligations.StoreRegistersToMemory := by
  intro s x hw hlow hhigh
  have hlen := regsUpTo_length x s
  have hbyte (a : Nat) := byteAt_storeImage (regsUpTo x s) s.i.toNat a s hw hlow (by omega)
  refine ⟨loadStoreI x { s with mem := storeImage (regsUpTo x s) s.i.toNat s.mem }, ?_, fun r hr => ?_, fun a ha => ?_,
    loadStoreI_toNat x _, ?_⟩
  · rw [exec_ldMemVx, writeBytes_done s hlow (by omega)]
  · have hle : r.val ≤ x.val := hr
    rw [byteAt_loadStoreI, hbyte, if_pos (by omega), Nat.add_sub_cancel_left, regsUpTo_getD hr]
  · rw [byteAt_loadStoreI, hbyte, if_neg (by omega)]
  · exact ((touches_withMem s _).andThen (touches_loadStoreI x _)).frame

/-- Settles O50: the transfer loads every register of V0..Vx, then I is updated. -/
theorem loadRegistersFromMemory : Obligations.LoadRegistersFromMemory := by
  intro s x hfits
  obtain ⟨v, hv, hload⟩ := loadRegs_eq (x.val + 1) 0 s.i.toNat s
  rw [if_pos (.inl (by omega))] at hload
  have hkept (r : Reg) (hr : ¬ r ≤ x) : v[r] = s.v[r] := by
    have hlt : x.val < r.val := not_le.1 hr
    rw [hv r, if_neg (by omega)]
  have hloaded (r : Reg) (hr : r ≤ x) : v[r] = byteAt s (s.i.toNat + r.val) := by
    have hle : r.val ≤ x.val := hr
    rw [hv r, if_pos (by omega), Nat.sub_zero]
  refine ⟨loadStoreI x { s with v := v }, by rw [exec_ldVxMem, hload], fun r hr => ?_, loadStoreI_toNat x _, ?_⟩
  · rw [(touches_loadStoreI x { s with v := v }).2 r id]; exact hloaded r hr
  · exact ((touches_withV s v hkept).andThen (touches_loadStoreI x _)).frame

/-! ### Fx75 and Fx85 -/

/-- Settles O51: the check of x comes first; the copies go flag by flag. -/
theorem rplTransfersWithinEightFlags : Obligations.RplTransfersWithinEightFlags := by
  intro s x
  refine ⟨fun hx => ⟨?copyTo, ?copyFrom⟩, fun hx => ⟨?failTo, ?failFrom⟩⟩
  case copyTo =>
    refine ⟨copyToRpl (x.val + 1) s, (exec_ldRVx x s).trans (if_neg (by omega)), fun j r hr => ?_,
      (touches_copyToRpl _ s).frame⟩
    rw [copyToRpl_get (x.val + 1) s j (by omega)]
    by_cases hle : r ≤ x
    · rw [if_pos hle, if_pos (by rw [← hr]; exact Nat.lt_succ_of_le hle)]
      simp only [Fin.getElem_fin, hr]
    · rw [if_neg hle, if_neg (by rw [← hr]; exact fun h => hle (Nat.le_of_lt_succ h))]
  case copyFrom =>
    refine ⟨copyFromRpl (x.val + 1) s, (exec_ldVxR x s).trans (if_neg (by omega)), fun j r hr hle => ?_,
      ((touches_copyFromRpl (by omega) s).mono (List.Subset.refl _) fun r => Nat.le_of_lt_succ).frame⟩
    rw [copyFromRpl_get (x.val + 1) s r (by omega), dif_pos (Nat.lt_succ_of_le hle)]
    simp only [Fin.getElem_fin, hr]
  case failTo =>
    exact ⟨_, (exec_ldRVx x s).trans (if_pos hx), ⟨rfl, rfl⟩, (touches_fatalStop s _).frame⟩
  case failFrom =>
    exact ⟨_, (exec_ldVxR x s).trans (if_pos hx), ⟨rfl, rfl⟩, (touches_fatalStop s _).frame⟩

/-! ### The failures -/

/-- A store that fails raises AddressOutOfRange on the state with the bytes before the failing address stored. -/
theorem exec_store_fails {s : State} {x : Reg} {i : Instr} {bs : List Byte}
    (hi : (i = .ldB x ∧ bs = bcdDigits s.v[x]) ∨ (i = .ldMemVx x ∧ bs = regsUpTo x s))
    (hout : ¬ (0x200 ≤ s.i.toNat ∧ s.i.toNat + bs.length ≤ 0x1000)) :
    exec i s = raise .addressOutOfRange (some (s.i.toNat + storedBefore s.i.toNat)) i (storedPart bs s.i.toNat s) := by
  obtain ⟨rfl, rfl⟩ | ⟨rfl, rfl⟩ := hi
  · rw [exec_ldB, writeBytes_fails s (List.ne_nil_of_length_pos (by simp)) hout]
  · rw [exec_ldMemVx, writeBytes_fails s (List.ne_nil_of_length_pos (by simp)) hout]

/-- A load that fails raises AddressOutOfRange on the state with the registers before the failing address loaded. -/
theorem exec_load_fails {s : State} {x : Reg} (hout : 0x1000 < s.i.toNat + x.val + 1) :
    ∃ v : Vector Byte 16,
      (∀ r : Reg, v[r] = if s.i.toNat + r.val < 0x1000 then byteAt s (s.i.toNat + r.val) else s.v[r]) ∧
      exec (.ldVxMem x) s = raise .addressOutOfRange (some (max s.i.toNat 0x1000)) (.ldVxMem x) { s with v := v } := by
  obtain ⟨v, hv, hload⟩ := loadRegs_eq (x.val + 1) 0 s.i.toNat s
  rw [if_neg (by omega)] at hload
  refine ⟨v, fun r => ?_, by rw [exec_ldVxMem, hload]⟩
  rw [hv r]
  by_cases hr : s.i.toNat + r.val < 0x1000
  · rw [if_pos hr, if_pos (by omega), Nat.sub_zero]
  · rw [if_neg hr, if_neg (by omega)]

/-- Settles O52: a failing access raises the error on the state that the accesses before it left. -/
theorem bulkFaultsKeepTheEarlierAccesses : Obligations.BulkFaultsKeepTheEarlierAccesses := by
  intro s x hw
  refine ⟨fun i bs hi hout => ?_, fun hout => ?_⟩
  · have hbyte := byteAt_storedPart hw hout
    refine ⟨_, storedBefore s.i.toNat, rfl, exec_store_fails hi hout, ⟨rfl, rfl⟩, fun k hk => ?_, fun a ha => ?_,
      ((touches_withMem s _).andThen (touches_fatalStop (storedPart bs s.i.toNat s) _)).frame⟩
    · exact (hbyte _).trans (by rw [if_pos (by omega), Nat.add_sub_cancel_left])
    · exact (hbyte a).trans (if_neg (by omega))
  · obtain ⟨v, hv, hexec⟩ := exec_load_fails hout
    refine ⟨_, hexec, ⟨rfl, rfl⟩, fun r hr => (hv r).trans (if_pos hr), ?_⟩
    exact ((touches_withV s v fun r hr => (hv r).trans (if_neg hr)).andThen (touches_fatalStop _ _)).frame

end Sys2Proof.Safety
end

section
/-! PROOFS of 45_draw.md §1–§2: the sprite that a draw reads, the cells it covers, and what DRW does to them. -/

namespace Sys2Proof.Safety

open Sys2Proof.Machine

/-! ### The sprite in memory -/

/-- The bits of two joined bytes (R67). -/
theorem joinBytes_bit (hi lo : Byte) (i : Nat) :
    (joinBytes hi lo).getLsbD i = if i < 8 then lo.getLsbD i else hi.getLsbD (i - 8) :=
  BitVec.getLsbD_append (x := hi) (y := lo)

/-- The rows of a 16 × 16 sprite: row j is the bytes 2j and 2j + 1 (R219). -/
theorem pairRows_bytesFrom_get (s : State) (a m j : Nat) (hj : j < m) :
    (pairRows (bytesFrom s a (2 * m)))[j]? = some (joinBytes (byteAt s (a + 2 * j)) (byteAt s (a + 2 * j + 1))) := by
  induction m generalizing a j with
  | zero => omega
  | succ m ih =>
    rw [show 2 * (m + 1) = 2 * m + 1 + 1 by omega, bytesFrom, bytesFrom, pairRows]
    cases j with
    | zero => rfl
    | succ j =>
      rw [List.getElem?_cons_succ, ih (a + 1 + 1) j (by omega), show a + 1 + 1 + 2 * j = a + 2 * (j + 1) by omega]

/-- The sprite at I, as a draw reads it (R217, R219). -/
def spriteAt (n : Nibble) (s : State) : Sprite :=
  if n = 0 then { width := 16, rows := pairRows (bytesFrom s s.i.toNat 32) }
  else { width := 8, rows := (bytesFrom s s.i.toNat n.toNat).map fun b => joinBytes 0 b }

/-- With its bytes in the space the sprite is read (R216). -/
theorem readSprite_fits_eq {n : Nibble} {s : State} (hn : n ≠ 0 ∨ s.extended = true)
    (hfits : s.i.toNat + spriteBytes n ≤ 0x1000) : readSprite n s = .sprite (spriteAt n s) := by
  rw [readSprite_eq]
  unfold spriteAt spriteBytes at *
  by_cases h0 : n = 0
  · simp only [if_pos h0] at hfits ⊢
    rw [if_pos (hn.resolve_left fun h => h h0), if_pos hfits]
  · simp only [if_neg h0] at hfits ⊢
    rw [if_pos hfits]

/-- With a byte outside the space the read fails at the first such address (R284). -/
theorem readSprite_fails_eq {n : Nibble} {s : State} (hn : n ≠ 0 ∨ s.extended = true)
    (hout : 0x1000 < s.i.toNat + spriteBytes n) : readSprite n s = .outOfRange (max s.i.toNat 0x1000) := by
  rw [readSprite_eq]
  unfold spriteBytes at hout
  by_cases h0 : n = 0
  · rw [if_pos h0] at hout ⊢
    rw [if_pos (hn.resolve_left fun h => h h0), if_neg (by omega)]
  · rw [if_neg h0] at hout ⊢
    rw [if_neg (by omega)]

theorem spriteAt_width (n : Nibble) (s : State) : (spriteAt n s).width = spriteWidth n := by
  unfold spriteAt spriteWidth
  split <;> rfl

theorem spriteAt_rows_length (n : Nibble) (s : State) : (spriteAt n s).rows.length = spriteHeight n := by
  unfold spriteAt spriteHeight
  split
  · exact (pairRows_length _).trans (by rw [bytesFrom_length])
  · exact (List.length_map _).trans (bytesFrom_length _ _ _)

/-- The bit of row j, column k of the sprite, in the word that holds the row (R218). -/
theorem spriteAt_bit {n : Nibble} {s : State} {j k : Nat} {row : Word} (hrow : (spriteAt n s).rows[j]? = some row)
    (hj : j < spriteHeight n) (hk : k < spriteWidth n) : row.getLsbD (spriteWidth n - 1 - k) = spriteBit n s j k := by
  unfold spriteAt spriteHeight spriteWidth spriteBit at *
  by_cases h0 : n = 0
  · simp only [if_pos h0] at hrow hj hk ⊢
    rw [pairRows_bytesFrom_get s s.i.toNat 16 j hj, Option.some.injEq] at hrow
    rw [← hrow, joinBytes_bit]
    by_cases hleft : k < 8
    · rw [if_neg (by omega), if_pos hleft]; congr 1; omega
    · rw [if_pos (by omega), if_neg hleft]
  · simp only [if_neg h0] at hrow hj hk ⊢
    rw [List.getElem?_map, bytesFrom_get s s.i.toNat n.toNat j hj, Option.map_some, Option.some.injEq] at hrow
    rw [← hrow, joinBytes_bit, if_pos (by omega)]

/-! ### The cells that a sprite covers -/

/-- Where a position is placed on an axis, as the picture says it (R220). -/
theorem placeOnAxis_iff_falls {clip : Bool} {wraps : Prop} (hclip : clip = false ↔ wraps) {len start k q : Nat}
    (hstart : start < len) (hk : k < len) :
    placeOnAxis clip len (start + k) = some q ↔ Falls wraps len start k q := by
  rw [placeOnAxis_eq_some clip len (start + k) q (by omega), Falls, hclip]

theorem colsClip_iff (edge : SpriteEdge) : colsClip edge = false ↔ edge = .wrapAll := by
  cases edge <;> decide

theorem rowsClip_iff (edge : SpriteEdge) : rowsClip edge = false ↔ edge ≠ .clipAll := by
  cases edge <;> decide

/-- A physical position is in the logical pixel of its half in normal mode (R42). -/
theorem div_pixelScale (ext : Bool) (p : Nat) : p / pixelScale ext = if ext then p else p / 2 := by
  cases ext
  · rfl
  · exact Nat.div_one p

/-- The cells that a draw of the sprite at I flips. -/
def spriteCells (n : Nibble) (xv yv : Byte) (s : State) : List (Nat × Nat) :=
  drawnCells s.extended s.params.qSpriteEdge xv yv (spriteAt n s)

/-- They are the cells that the sprite covers (R220–R222). -/
theorem mem_spriteCells_iff_covers {n : Nibble} {s : State} (hfit : (spriteAt n s).width ≤ logicalWidth s.extended ∧
      (spriteAt n s).rows.length ≤ logicalHeight s.extended) (xv yv : Byte) (r c : Nat) :
    (r, c) ∈ spriteCells n xv yv s ↔ Covers n xv yv s r c := by
  obtain ⟨hwidth, hheight⟩ := hfit
  have hx : xv.toNat % logicalWidth s.extended < logicalWidth s.extended := Nat.mod_lt _ (by cases s.extended <;> decide)
  have hy : yv.toNat % logicalHeight s.extended < logicalHeight s.extended :=
    Nat.mod_lt _ (by cases s.extended <;> decide)
  have hlength := spriteAt_rows_length n s
  have hw := spriteAt_width n s
  have haxes {j k : Nat} (hj : j < spriteHeight n) (hk : k < spriteWidth n) :
      (placeOnAxis (colsClip s.params.qSpriteEdge) (logicalWidth s.extended) (xv.toNat % logicalWidth s.extended + k) =
          some (c / pixelScale s.extended) ∧
        placeOnAxis (rowsClip s.params.qSpriteEdge) (logicalHeight s.extended)
          (yv.toNat % logicalHeight s.extended + j) = some (r / pixelScale s.extended)) ↔
      Falls (s.params.qSpriteEdge = .wrapAll) (logicalWidth s.extended) (xv.toNat % logicalWidth s.extended) k
          (if s.extended then c else c / 2) ∧
        Falls (s.params.qSpriteEdge ≠ .clipAll) (logicalHeight s.extended) (yv.toNat % logicalHeight s.extended) j
          (if s.extended then r else r / 2) := by
    rw [div_pixelScale, div_pixelScale, placeOnAxis_iff_falls (colsClip_iff _) hx (by omega),
      placeOnAxis_iff_falls (rowsClip_iff _) hy (by omega)]
  rw [spriteCells, mem_drawnCells]
  constructor
  · rintro ⟨j, row, k, hrow, hk, hbit, hplace⟩
    have hj : j < spriteHeight n := hlength ▸ (List.getElem?_eq_some_iff.1 hrow).1
    rw [hw] at hk hbit
    exact ⟨j, k, hj, hk, (spriteAt_bit hrow hj hk).symm.trans hbit, (haxes hj hk).1 hplace⟩
  · rintro ⟨j, k, hj, hk, hbit, hfalls⟩
    have hrow := List.getElem?_eq_getElem (l := (spriteAt n s).rows) (i := j) (by omega)
    refine ⟨j, _, k, hrow, by rw [hw]; exact hk, ?_, (haxes hj hk).2 hfalls⟩
    rw [hw]; exact (spriteAt_bit hrow hj hk).trans hbit

/-- What a draw depends on: the sprite's bytes, the mode and the edge rule. -/
theorem covers_congr {n : Nibble} {xv yv : Byte} {s u : State} (hext : u.extended = s.extended)
    (hparams : u.params = s.params) (hi : u.i = s.i) (hmem : ∀ a, byteAt u a = byteAt s a) (r c : Nat) :
    Covers n xv yv u r c ↔ Covers n xv yv s r c := by
  have hbit (j k : Nat) : spriteBit n u j k = spriteBit n s j k := by simp only [spriteBit, hi, hmem]
  simp only [Covers, hext, hparams, hbit]

/-! ### What DRW does -/

/-- Everything a DRW does with its bytes in the space: it inverts the covered cells, all of them in the grid, and the flag
is the collision (R221, R222, R224). -/
theorem exec_drw_drawn {x y : Reg} {n : Nibble} {s : State} (hn : n ≠ 0 ∨ s.extended = true)
    (hfits : s.i.toNat + spriteBytes n ≤ 0x1000) :
    ∃ g hit, exec (.drw x y n) s = .next (setV vf (flagByte hit) { s with cells := g }) ∧
      (∀ r c, Covers n s.v[x] s.v[y] s r c → r < 64 ∧ c < 128 ∧ cellAt g r c = !cellAt s.cells r c) ∧
      (∀ r c, ¬ Covers n s.v[x] s.v[y] s r c → cellAt g r c = cellAt s.cells r c) ∧
      (hit = true ↔ ∃ r c, Covers n s.v[x] s.v[y] s r c ∧ cellAt s.cells r c = true) := by
  have hread := readSprite_fits_eq hn hfits
  have hfit := readSprite_fits hread
  have hcovers := mem_spriteCells_iff_covers hfit s.v[x] s.v[y]
  have hrange : ∀ p ∈ spriteCells n s.v[x] s.v[y] s, p.1 < 64 ∧ p.2 < 128 :=
    drawnCells_inRange s.extended s.params.qSpriteEdge s.v[x] s.v[y] (spriteAt n s) hfit.1 hfit.2
  obtain ⟨hcells, hhit⟩ := flipCells_spec (spriteCells n s.v[x] s.v[y] s) s.cells false hrange
    (drawnCells_nodup s.extended s.params.qSpriteEdge s.v[x] s.v[y] (spriteAt n s) hfit.1 hfit.2)
  refine ⟨(flipCells (spriteCells n s.v[x] s.v[y] s) s.cells false).1,
    (flipCells (spriteCells n s.v[x] s.v[y] s) s.cells false).2, ?_, fun r c h => ?_, fun r c h => ?_, ?_⟩
  · rw [exec_drw, draw_eq, hread]
    rfl
  · have hmem := (hcovers r c).2 h
    exact ⟨(hrange _ hmem).1, (hrange _ hmem).2, by rw [hcells, if_pos hmem]⟩
  · rw [hcells, if_neg fun hmem => h ((hcovers r c).1 hmem)]
  · rw [hhit, Bool.false_or, List.any_eq_true]
    constructor
    · rintro ⟨⟨r, c⟩, hmem, hlit⟩; exact ⟨r, c, (hcovers r c).1 hmem, hlit⟩
    · rintro ⟨r, c, h, hlit⟩; exact ⟨(r, c), (hcovers r c).2 h, hlit⟩

theorem flagByte_eq_one_iff (c : Bool) : flagByte c = 1 ↔ c = true := by
  cases c <;> decide

theorem flagByte_eq_zero_iff (c : Bool) : flagByte c = 0 ↔ c = false := by
  cases c <;> decide

/-- Settles O43, from the covered cells and the collision. -/
theorem drawInvertsTheCoveredCells : Obligations.DrawInvertsTheCoveredCells := by
  intro s x y n hn hfits
  obtain ⟨g, hit, hexec, hcovered, hother, hhit⟩ := exec_drw_drawn (x := x) (y := y) hn hfits
  refine ⟨_, hexec, fun r c _ _ => ⟨fun h => (hcovered r c h).2.2, hother r c⟩, ?_, fun hunlit => ?_, ?_⟩
  · rintro ⟨r, c, -, -, h, hlit⟩
    rw [setV_get_self, flagByte_eq_one_iff, hhit]
    exact ⟨r, c, h, hlit⟩
  · rw [setV_get_self, flagByte_eq_zero_iff, Bool.eq_false_iff, ne_eq, hhit]
    rintro ⟨r, c, h, hlit⟩
    obtain ⟨hr, hc, -⟩ := hcovered r c h
    exact Bool.false_ne_true ((hunlit r c hr hc h).symm.trans hlit)
  · exact (((touches_withCells s g).of_noReg.trans (touches_setV _ vf _)).mono (by decide) fun _ => or_self_iff.1).frame

/-- Settles O44: both draws cover the same cells, so the second inverts what the first did, and it finds lit exactly what
the first lit. -/
theorem drawingTwiceRestoresTheScreen : Obligations.DrawingTwiceRestoresTheScreen := by
  intro s t u x y n hn hfits hexec hcells hext hparams hi hmem hx hy
  obtain ⟨g, hit, hfirst, hcovered, hother, -⟩ := exec_drw_drawn (x := x) (y := y) hn hfits
  obtain rfl := next_unique hexec hfirst
  obtain ⟨g', hit', hsecond, hcovered', hother', hhit'⟩ :=
    exec_drw_drawn (x := x) (y := y) (n := n) (s := u) (by rw [hext]; exact hn) (by rw [hi]; exact hfits)
  have hsame := covers_congr (n := n) (xv := s.v[x]) (yv := s.v[y]) hext hparams hi hmem
  rw [hx, hy] at hcovered' hother' hhit'
  have hg : u.cells = g := hcells
  rw [hg] at hcovered' hother' hhit'
  refine ⟨_, hsecond, fun r c => ?_, ?_⟩
  · show cellAt g' r c = cellAt s.cells r c
    by_cases h : Covers n s.v[x] s.v[y] s r c
    · rw [(hcovered' r c ((hsame r c).2 h)).2.2, (hcovered r c h).2.2, Bool.not_not]
    · rw [hother' r c fun h' => h ((hsame r c).1 h'), hother r c h]
  · rw [setV_get_self, flagByte_eq_one_iff, hhit']
    refine exists_congr fun r => exists_congr fun c => ⟨fun ⟨h, hlit⟩ => ⟨?_, hlit⟩, fun ⟨hunlit, hlit⟩ => ⟨?_, hlit⟩⟩
    · have hinv := (hcovered r c ((hsame r c).1 h)).2.2
      rw [hlit] at hinv
      simpa using hinv.symm
    · rw [hsame r c]
      by_contra h
      have hkept : cellAt g r c = cellAt s.cells r c := hother r c h
      exact Bool.false_ne_true (hunlit.symm.trans (hkept.symm.trans hlit))

/-- Settles O45: the read comes before any flip, and the no-op before the read. -/
theorem drawFaultOrNoOpKeepsTheScreen : Obligations.DrawFaultOrNoOpKeepsTheScreen := by
  intro s x y n
  refine ⟨fun hn hout => ?_, fun h0 hnormal => ?_⟩
  · refine ⟨_, ?_, ⟨rfl, rfl⟩, (touches_fatalStop s _).frame⟩
    rw [exec_drw, draw_eq, readSprite_fails_eq hn hout]
    rfl
  · have hread : readSprite n s = .noop := by rw [readSprite_eq, if_pos h0, if_neg (by rw [hnormal]; decide)]
    refine ⟨s, ?_, (Touches.refl s).frame⟩
    rw [exec_drw, draw_eq, hread]

end Sys2Proof.Safety
end
